-- ==== Sys2Proof/Word.lean ====
section
/-! DEFINITION. The machine's word and byte (spec/00_scope.md R8, R10, R11). -/

namespace Sys2Proof

/-- A byte: the unit of memory and of device transfer (R18). -/
abbrev Byte := BitVec 8

/-- A word: "24-bit unsigned value, the machine's native arithmetic size" (R8 `WORD_BITS`, R18).
`u24(v)` of R11 is `BitVec.ofInt 24 v`, `s24(w)` is `BitVec.toInt w`. -/
abbrev Word := BitVec 24

/-- A device id, 0 to 255 (R8 `NUM_DEVICES`, R57). -/
abbrev DeviceId := BitVec 8

end Sys2Proof
end

