-- ==== Sys2Proof/Syntax.lean ====
section
/-! DEFINITION. The syntax of the instructions: one constructor per row of spec/opcode_table.json
(spec/30_encoding.md R110 to R116, R120). No bit of an encoding is dropped: fields an instruction
ignores are kept as they stand (R124). -/

namespace Sys2Proof

/-- The nine registers (spec/10_state.md R30). -/
inductive Reg where
  | A | X | L | B | S | T | F | PC | SW
deriving DecidableEq, Repr

/-- A Format-2 register field: an id of R30's table, or one of the ids 7 and 10 to 15 that name no
register (R31). -/
inductive RegField where
  | reg (r : Reg)
  | invalid (id : BitVec 4)
deriving DecidableEq, Repr

/-- The (n, i) pair of Format 3 and Format 4; (0, 0) selects the SIC layout instead (R111, R119). -/
inductive Mode where
  /-- (n, i) = (0, 1) -/
  | immediate
  /-- (n, i) = (1, 0) -/
  | indirect
  /-- (n, i) = (1, 1) -/
  | simple
deriving DecidableEq, Repr

/-- The address field of a SIC, Format-3 or Format-4 instruction with its flags (R114 to R116). -/
inductive MemOperand where
  /-- SIC layout: x and a 15-bit address (R114) -/
  | sic (x : Bool) (addr : BitVec 15)
  /-- Format 3: (n, i), x, b, p and a 12-bit displacement (R115) -/
  | f3 (mode : Mode) (x b p : Bool) (disp : BitVec 12)
  /-- Format 4: (n, i), x, b, p and a 20-bit address (R116) -/
  | f4 (mode : Mode) (x b p : Bool) (addr : BitVec 20)
deriving DecidableEq, Repr

/-- The instructions, in the table's order (R120). -/
inductive Instr where
  | float  -- R340
  | fix  -- R341
  | norm  -- R342
  | sio  -- R343
  | hio  -- R344
  | tio  -- R345
  | addr (r1 r2 : RegField)  -- R313
  | subr (r1 r2 : RegField)  -- R314
  | mulr (r1 r2 : RegField)  -- R315
  | divr (r1 r2 : RegField)  -- R316
  | compr (r1 r2 : RegField)  -- R318
  | shiftl (r1 : RegField) (count : BitVec 4)  -- R319
  | shiftr (r1 : RegField) (count : BitVec 4)  -- R320
  | rmo (r1 r2 : RegField)  -- R321
  | svc (r1 r2 : BitVec 4)  -- R346
  | clear (r1 : RegField) (r2 : BitVec 4)  -- R322
  | tixr (r1 : RegField) (r2 : BitVec 4)  -- R324
  | lda (m : MemOperand)  -- R253
  | ldx (m : MemOperand)  -- R254
  | ldl (m : MemOperand)  -- R255
  | sta (m : MemOperand)  -- R261
  | stx (m : MemOperand)  -- R262
  | stl (m : MemOperand)  -- R263
  | add (m : MemOperand)  -- R202
  | sub (m : MemOperand)  -- R203
  | mul (m : MemOperand)  -- R204
  | div (m : MemOperand)  -- R205
  | comp (m : MemOperand)  -- R220
  | tix (m : MemOperand)  -- R222
  | jeq (m : MemOperand)  -- R233
  | jgt (m : MemOperand)  -- R234
  | jlt (m : MemOperand)  -- R235
  | j (m : MemOperand)  -- R232
  | and (m : MemOperand)  -- R207
  | or (m : MemOperand)  -- R208
  | jsub (m : MemOperand)  -- R236
  | rsub (m : MemOperand)  -- R237
  | ldch (m : MemOperand)  -- R260
  | stch (m : MemOperand)  -- R269
  | addf (m : MemOperand)  -- R347
  | subf (m : MemOperand)  -- R348
  | mulf (m : MemOperand)  -- R349
  | divf (m : MemOperand)  -- R350
  | ldb (m : MemOperand)  -- R256
  | lds (m : MemOperand)  -- R257
  | ldf (m : MemOperand)  -- R259
  | ldt (m : MemOperand)  -- R258
  | stb (m : MemOperand)  -- R264
  | sts (m : MemOperand)  -- R265
  | stf (m : MemOperand)  -- R267
  | stt (m : MemOperand)  -- R266
  | compf (m : MemOperand)  -- R351
  | lps (m : MemOperand)  -- R352
  | sti (m : MemOperand)  -- R353
  | rd (m : MemOperand)  -- R297
  | wd (m : MemOperand)  -- R298
  | td (m : MemOperand)  -- R296
  | stsw (m : MemOperand)  -- R268
  | ssk (m : MemOperand)  -- R354
deriving DecidableEq, Repr

end Sys2Proof
end

