-- ==== Sys2Proof/WellFormed.lean ====
section
/-! DEFINITION. Which terms of `Instr` some encoding stands for. Every field is a bit field of its
encoding and may hold any value, but for a register field's `invalid` form, which stands only for
the ids that name no register (spec/10_state.md R31). -/

namespace Sys2Proof

/-- An `invalid` field holds 7 or 10 to 15 (R31). -/
def RegField.wellFormed : RegField → Bool
  | .reg _ => true
  | .invalid id => id == 7 || decide (10 ≤ id.toNat)

/-- The register fields of an instruction: a field that spec/45_register_ops.md R310 marks
"ignored" or "n - 1" is none, and SVC's fields are not checked (R346). -/
def Instr.regFields : Instr → List RegField
  | .float => []
  | .fix => []
  | .norm => []
  | .sio => []
  | .hio => []
  | .tio => []
  | .addr r1 r2 => [r1, r2]
  | .subr r1 r2 => [r1, r2]
  | .mulr r1 r2 => [r1, r2]
  | .divr r1 r2 => [r1, r2]
  | .compr r1 r2 => [r1, r2]
  | .shiftl r1 _ => [r1]
  | .shiftr r1 _ => [r1]
  | .rmo r1 r2 => [r1, r2]
  | .svc _ _ => []
  | .clear r1 _ => [r1]
  | .tixr r1 _ => [r1]
  | .lda _ => []
  | .ldx _ => []
  | .ldl _ => []
  | .sta _ => []
  | .stx _ => []
  | .stl _ => []
  | .add _ => []
  | .sub _ => []
  | .mul _ => []
  | .div _ => []
  | .comp _ => []
  | .tix _ => []
  | .jeq _ => []
  | .jgt _ => []
  | .jlt _ => []
  | .j _ => []
  | .and _ => []
  | .or _ => []
  | .jsub _ => []
  | .rsub _ => []
  | .ldch _ => []
  | .stch _ => []
  | .addf _ => []
  | .subf _ => []
  | .mulf _ => []
  | .divf _ => []
  | .ldb _ => []
  | .lds _ => []
  | .ldf _ => []
  | .ldt _ => []
  | .stb _ => []
  | .sts _ => []
  | .stf _ => []
  | .stt _ => []
  | .compf _ => []
  | .lps _ => []
  | .sti _ => []
  | .rd _ => []
  | .wd _ => []
  | .td _ => []
  | .stsw _ => []
  | .ssk _ => []

/-- The instruction is the reading of some encoding. -/
def Instr.wellFormed (i : Instr) : Bool := i.regFields.all RegField.wellFormed

end Sys2Proof
end

