-- ==== Sys2Proof/Decode.lean ====
section
/-! DEFINITION. The decoder, total on any bytes and rejecting by name, and the encoder
(spec/30_encoding.md). The opcode map is a table, as spec/93_implementation_defined.md I1 asks, so
that a corrected table changes no meaning. -/

namespace Sys2Proof

/-! Register fields -/

/-- The id of a register (spec/10_state.md R30). -/
def Reg.id : Reg → BitVec 4
  | .A => 0
  | .X => 1
  | .L => 2
  | .B => 3
  | .S => 4
  | .T => 5
  | .F => 6
  | .PC => 8
  | .SW => 9

/-- The register an id names, none for 7 and 10 to 15 (R30, R31). -/
def Reg.ofId (id : BitVec 4) : Option Reg :=
  match id.toNat with
  | 0 => some .A
  | 1 => some .X
  | 2 => some .L
  | 3 => some .B
  | 4 => some .S
  | 5 => some .T
  | 6 => some .F
  | 8 => some .PC
  | 9 => some .SW
  | _ => none

/-- Reading a register field (R113). -/
def RegField.ofBits (id : BitVec 4) : RegField :=
  match Reg.ofId id with
  | some r => .reg r
  | none => .invalid id

/-- Writing a register field (R113). -/
def RegField.toBits : RegField → BitVec 4
  | .reg r => r.id
  | .invalid id => id

/-! The opcode map (R120) -/

/-- Format 1, matched on all eight bits of `b0`. -/
def format1Table : List (Byte × Instr) := [
  (0xC0, .float),
  (0xC4, .fix),
  (0xC8, .norm),
  (0xF0, .sio),
  (0xF4, .hio),
  (0xF8, .tio)]

/-- Format 2, matched on all eight bits of `b0`; the arguments are `b1[7:4]` and `b1[3:0]`, in the
roles of spec/45_register_ops.md R310. -/
def format2Table : List (Byte × (BitVec 4 → BitVec 4 → Instr)) := [
  (0x90, fun a b => .addr (.ofBits a) (.ofBits b)),
  (0x94, fun a b => .subr (.ofBits a) (.ofBits b)),
  (0x98, fun a b => .mulr (.ofBits a) (.ofBits b)),
  (0x9C, fun a b => .divr (.ofBits a) (.ofBits b)),
  (0xA0, fun a b => .compr (.ofBits a) (.ofBits b)),
  (0xA4, fun a b => .shiftl (.ofBits a) b),
  (0xA8, fun a b => .shiftr (.ofBits a) b),
  (0xAC, fun a b => .rmo (.ofBits a) (.ofBits b)),
  (0xB0, fun a b => .svc a b),
  (0xB4, fun a b => .clear (.ofBits a) b),
  (0xB8, fun a b => .tixr (.ofBits a) b)]

/-- SIC, Format 3 and Format 4, matched on `b0 & 0xFC`. -/
def format34Table : List (Byte × (MemOperand → Instr)) := [
  (0x00, .lda),
  (0x04, .ldx),
  (0x08, .ldl),
  (0x0C, .sta),
  (0x10, .stx),
  (0x14, .stl),
  (0x18, .add),
  (0x1C, .sub),
  (0x20, .mul),
  (0x24, .div),
  (0x28, .comp),
  (0x2C, .tix),
  (0x30, .jeq),
  (0x34, .jgt),
  (0x38, .jlt),
  (0x3C, .j),
  (0x40, .and),
  (0x44, .or),
  (0x48, .jsub),
  (0x4C, .rsub),
  (0x50, .ldch)] ++ [
  (0x54, .stch),
  (0x58, .addf),
  (0x5C, .subf),
  (0x60, .mulf),
  (0x64, .divf),
  (0x68, .ldb),
  (0x6C, .lds),
  (0x70, .ldf),
  (0x74, .ldt),
  (0x78, .stb),
  (0x7C, .sts),
  (0x80, .stf),
  (0x84, .stt),
  (0x88, .compf),
  (0xD0, .lps),
  (0xD4, .sti),
  (0xD8, .rd),
  (0xDC, .wd),
  (0xE0, .td),
  (0xE8, .stsw),
  (0xEC, .ssk)]

/-- The row of a table under an opcode. -/
def lookup {α : Type} (op : Byte) : List (Byte × α) → Option α
  | [] => none
  | (k, v) :: rest => if k = op then some v else lookup op rest

/-- `b0 & 0xFC`, the "true opcode" of R111. -/
def trueOpcode (b0 : Byte) : Byte := b0 &&& 0xFC

/-- `b0` is a Format-1 opcode byte (R111). -/
def isFormat1 (b0 : Byte) : Bool := (lookup b0 format1Table).isSome

/-- `b0` is a Format-2 opcode byte (R111). -/
def isFormat2 (b0 : Byte) : Bool := (lookup b0 format2Table).isSome

/-- `b0` belongs to the SIC/Format-3/Format-4 opcode space (R111, R117). -/
def isFormat34 (b0 : Byte) : Bool := (lookup (trueOpcode b0) format34Table).isSome

/-- The (n, i) pair of `b0`, none for (0, 0), which selects the SIC layout (R111, R125). -/
def modeOf (b0 : Byte) : Option Mode :=
  match b0.getLsbD 1, b0.getLsbD 0 with
  | false, false => none
  | false, true => some .immediate
  | true, false => some .indirect
  | true, true => some .simple

/-- The length of an instruction from its first two bytes, none for an unknown opcode (R117). -/
def instrLength (b0 b1 : Byte) : Option Nat :=
  if isFormat1 b0 then some 1
  else if isFormat2 b0 then some 2
  else if isFormat34 b0 then
    match modeOf b0 with
    | none => some 3
    | some _ => if b1.getLsbD 4 then some 4 else some 3
  else none

/-! The decoder -/

/-- Why bytes are no instruction. -/
inductive DecodeError where
  /-- the opcode byte matches no format (R121) -/
  | unknownOpcode
  /-- the bytes end before the instruction does -/
  | truncated
deriving DecidableEq, Repr

/-- The address field and flags of a SIC (R114), Format-3 (R115) or Format-4 (R116) instruction,
with the bytes after it; none where the bytes end too early. -/
def decodeOperand (b0 b1 : Byte) (rest : List Byte) : Option (MemOperand × List Byte) :=
  let x := b1.getLsbD 7
  let b := b1.getLsbD 6
  let p := b1.getLsbD 5
  let low := b1.extractLsb' 0 4
  match modeOf b0 with
  | none =>
    match rest with
    | b2 :: rest => some (.sic x (b1.extractLsb' 0 7 ++ b2), rest)
    | [] => none
  | some mode =>
    match b1.getLsbD 4, rest with
    | false, b2 :: rest => some (.f3 mode x b p (low ++ b2), rest)
    | true, b2 :: b3 :: rest => some (.f4 mode x b p (low ++ b2 ++ b3), rest)
    | _, _ => none

/-- The instruction at the head of some bytes and the bytes after it, in the order of the classifiers
of spec/40_execution_cycle.md R152. -/
def decode : List Byte → Except DecodeError (Instr × List Byte)
  | [] => .error .truncated
  | b0 :: rest =>
    match lookup b0 format1Table with
    | some i => .ok (i, rest)
    | none =>
      match rest with
      | [] => .error .truncated
      | b1 :: rest =>
        match lookup b0 format2Table with
        | some mk => .ok (mk (b1.extractLsb' 4 4) (b1.extractLsb' 0 4), rest)
        | none =>
          match lookup (trueOpcode b0) format34Table with
          | none => .error .unknownOpcode
          | some mk =>
            match decodeOperand b0 b1 rest with
            | some (m, rest) => .ok (mk m, rest)
            | none => .error .truncated

/-- Byte `k` of a number whose bit 0 is the least significant bit of the first byte. -/
def byteOf (w k : Nat) : Byte := BitVec.ofNat 8 (w / 256 ^ k)

/-- The bytes of spec/opcode_table.json's number for an instruction, `nbits` of it given and the
rest zero, up to the longest instruction (four bytes). -/
def tableBytes (nbits w : Nat) : List Byte :=
  let v := w % 2 ^ nbits
  [byteOf v 0, byteOf v 1, byteOf v 2, byteOf v 3]

/-- The instruction the decoder reads from a number of spec/opcode_table.json. -/
def decodeTableWord (nbits w : Nat) : Option Instr :=
  match decode (tableBytes nbits w) with
  | .ok (i, _) => some i
  | .error _ => none

/-! The encoder -/

/-- What follows the opcode in an encoding (R112 to R116). -/
inductive Fields where
  | format1
  | format2 (r1 r2 : BitVec 4)
  | format34 (m : MemOperand)
deriving DecidableEq, Repr

/-- The opcode of an instruction (R120). -/
def Instr.opcode : Instr → Byte
  | .float => 0xC0
  | .fix => 0xC4
  | .norm => 0xC8
  | .sio => 0xF0
  | .hio => 0xF4
  | .tio => 0xF8
  | .addr _ _ => 0x90
  | .subr _ _ => 0x94
  | .mulr _ _ => 0x98
  | .divr _ _ => 0x9C
  | .compr _ _ => 0xA0
  | .shiftl _ _ => 0xA4
  | .shiftr _ _ => 0xA8
  | .rmo _ _ => 0xAC
  | .svc _ _ => 0xB0
  | .clear _ _ => 0xB4
  | .tixr _ _ => 0xB8
  | .lda _ => 0x00
  | .ldx _ => 0x04
  | .ldl _ => 0x08
  | .sta _ => 0x0C
  | .stx _ => 0x10
  | .stl _ => 0x14
  | .add _ => 0x18
  | .sub _ => 0x1C
  | .mul _ => 0x20
  | .div _ => 0x24
  | .comp _ => 0x28
  | .tix _ => 0x2C
  | .jeq _ => 0x30
  | .jgt _ => 0x34
  | .jlt _ => 0x38
  | .j _ => 0x3C
  | .and _ => 0x40
  | .or _ => 0x44
  | .jsub _ => 0x48
  | .rsub _ => 0x4C
  | .ldch _ => 0x50
  | .stch _ => 0x54
  | .addf _ => 0x58
  | .subf _ => 0x5C
  | .mulf _ => 0x60
  | .divf _ => 0x64
  | .ldb _ => 0x68
  | .lds _ => 0x6C
  | .ldf _ => 0x70
  | .ldt _ => 0x74
  | .stb _ => 0x78
  | .sts _ => 0x7C
  | .stf _ => 0x80
  | .stt _ => 0x84
  | .compf _ => 0x88
  | .lps _ => 0xD0
  | .sti _ => 0xD4
  | .rd _ => 0xD8
  | .wd _ => 0xDC
  | .td _ => 0xE0
  | .stsw _ => 0xE8
  | .ssk _ => 0xEC

/-- The fields of an instruction (R112 to R116). -/
def Instr.fields : Instr → Fields
  | .float => .format1
  | .fix => .format1
  | .norm => .format1
  | .sio => .format1
  | .hio => .format1
  | .tio => .format1
  | .addr r1 r2 => .format2 r1.toBits r2.toBits
  | .subr r1 r2 => .format2 r1.toBits r2.toBits
  | .mulr r1 r2 => .format2 r1.toBits r2.toBits
  | .divr r1 r2 => .format2 r1.toBits r2.toBits
  | .compr r1 r2 => .format2 r1.toBits r2.toBits
  | .shiftl r1 count => .format2 r1.toBits count
  | .shiftr r1 count => .format2 r1.toBits count
  | .rmo r1 r2 => .format2 r1.toBits r2.toBits
  | .svc r1 r2 => .format2 r1 r2
  | .clear r1 r2 => .format2 r1.toBits r2
  | .tixr r1 r2 => .format2 r1.toBits r2
  | .lda m => .format34 m
  | .ldx m => .format34 m
  | .ldl m => .format34 m
  | .sta m => .format34 m
  | .stx m => .format34 m
  | .stl m => .format34 m
  | .add m => .format34 m
  | .sub m => .format34 m
  | .mul m => .format34 m
  | .div m => .format34 m
  | .comp m => .format34 m
  | .tix m => .format34 m
  | .jeq m => .format34 m
  | .jgt m => .format34 m
  | .jlt m => .format34 m
  | .j m => .format34 m
  | .and m => .format34 m
  | .or m => .format34 m
  | .jsub m => .format34 m
  | .rsub m => .format34 m
  | .ldch m => .format34 m
  | .stch m => .format34 m
  | .addf m => .format34 m
  | .subf m => .format34 m
  | .mulf m => .format34 m
  | .divf m => .format34 m
  | .ldb m => .format34 m
  | .lds m => .format34 m
  | .ldf m => .format34 m
  | .ldt m => .format34 m
  | .stb m => .format34 m
  | .sts m => .format34 m
  | .stf m => .format34 m
  | .stt m => .format34 m
  | .compf m => .format34 m
  | .lps m => .format34 m
  | .sti m => .format34 m
  | .rd m => .format34 m
  | .wd m => .format34 m
  | .td m => .format34 m
  | .stsw m => .format34 m
  | .ssk m => .format34 m

/-- The bits `b0[1:0]` = n, i of a mode (R119). -/
def Mode.bits : Mode → Byte
  | .immediate => 1
  | .indirect => 2
  | .simple => 3

/-- The bytes of a SIC, Format-3 or Format-4 instruction (R114 to R116). -/
def encodeOperand (op : Byte) : MemOperand → List Byte
  | .sic x addr =>
    [op, BitVec.ofBool x ++ addr.extractLsb' 8 7, addr.extractLsb' 0 8]
  | .f3 mode x b p disp =>
    [op ||| mode.bits,
     BitVec.ofBool x ++ BitVec.ofBool b ++ BitVec.ofBool p ++ 0#1 ++ disp.extractLsb' 8 4,
     disp.extractLsb' 0 8]
  | .f4 mode x b p addr =>
    [op ||| mode.bits,
     BitVec.ofBool x ++ BitVec.ofBool b ++ BitVec.ofBool p ++ 1#1 ++ addr.extractLsb' 16 4,
     addr.extractLsb' 8 8,
     addr.extractLsb' 0 8]

/-- The bytes of an instruction, the first at the lowest address (R89). -/
def encode (i : Instr) : List Byte :=
  match i.fields with
  | .format1 => [i.opcode]
  | .format2 r1 r2 => [i.opcode, r1 ++ r2]
  | .format34 m => encodeOperand i.opcode m

end Sys2Proof
end

