-- ==== Sys2Proof/Config.lean ====
section
/-! DEFINITION. What the hardware does not fix: the answers of the device environment `DevEnv`
(spec/44_device_io.md R290). They are free values: constants without a body, applied to the whole
history of the device port, so that nothing can be proved of any one answer (log 3). -/

namespace Sys2Proof

/-- The answer to `open(d)` or to `put(d, c)` (R290). -/
inductive Ack where
  /-- `ok` -/
  | ok
  /-- `fail` of an open, `error` of a put -/
  | fail
deriving DecidableEq, Repr, Inhabited

/-- The answer to `get(d)` (R290): "a byte 0..255, eof, or error; or no answer yet". -/
inductive GetReply where
  /-- a byte, consumed from the stream (R293) -/
  | byte (c : Byte)
  /-- the stream signals its end -/
  | eof
  /-- the stream signals an error -/
  | error
  /-- no answer yet: the step holds (R299) -/
  | pending
deriving DecidableEq, Repr, Inhabited

/-- One transaction of the device port: a request with the answer it got. -/
inductive DevEvent where
  | opened (d : DeviceId) (r : Ack)
  | got (d : DeviceId) (r : GetReply)
  | put (d : DeviceId) (c : Byte) (r : Ack)
deriving DecidableEq, Repr

/-- Free value: what the environment answers to `open(d)` after a history (newest first). -/
opaque Config.openReply : List DevEvent → DeviceId → Ack

/-- Free value: what the environment answers to `get(d)` after a history (newest first). -/
opaque Config.getReply : List DevEvent → DeviceId → GetReply

/-- Free value: what the environment answers to `put(d, c)` after a history (newest first). -/
opaque Config.putReply : List DevEvent → DeviceId → Byte → Ack

end Sys2Proof
end

