-- ==== Sys2Proof/Machine/State.lean ====
section
/-! DEFINITION. The machine's state (spec/10_state.md), its fault kinds, the refusals and the state
after reset. -/

namespace Sys2Proof.Machine

/-- The fault kinds of spec/60_exceptions.md R370, in its order. A step that raises one ends in a
NEXT state, whose `halted` and `fault` hold what R380 says: the spec gives that state, so no step of
this model answers `Host.Outcome.fault` (log 1). Safe: the effect is the spec's own. -/
inductive Fault where
  /-- Raised by fetches, address formation, memory accesses, a Format-2 write of an illegal code to
  SW, and host accesses (R371). Safe: the spec's own effect. -/
  | outOfRange
  /-- Raised by Format-2 register fields and host register accesses (R372). Safe: the spec's own
  effect. -/
  | invalidRegister
  /-- Raised by Format 3 and 4 with b = p = 1 (R373). Safe: the spec's own effect. -/
  | badAddressingMode
  /-- Raised by Format 3 and 4 with x = 1 in a mode that forbids it (R374). Safe: the spec's own
  effect. -/
  | invalidAddressing
  /-- Raised by the fifteen excluded instructions (R375). Safe: the spec's own effect. -/
  | unimplementedOpcode
  /-- Raised by the decoder on the 71 unknown opcode bytes (R376). Safe: the spec's own effect. -/
  | unknownOpcode
  /-- Raised by RD and WD when the on-demand open fails (R377). Safe: the spec's own effect. -/
  | deviceUnavailable
  /-- Raised by RD and WD on a stream failure, RD on end of stream too (R378). Safe: the spec's own
  effect. -/
  | ioError
  /-- Raised by DIV and DIVR with a zero divisor (R379). Safe: the spec's own effect. -/
  | divideByZero
  /-- Raised by the loader only, never by a step (R370, R448). Safe: the spec's own effect. -/
  | loadError
deriving DecidableEq, Repr

/-- The refusals. -/
inductive Refusal where
  /-- Raised by `exec` for an instruction that has no meaning yet; none is left. Safe: the model
  stops and proves nothing of what follows. -/
  | notModelled (mnemonic : String)
deriving DecidableEq, Repr

/-- Memory as a list of (address, byte) pairs; a byte that is not listed reads as
`Sys2Proof.Machine.unlistedByte` (spec/20_memory.md R80, spec/10_state.md R59). -/
abbrev Memory := List Host.Cell

/-- The device environment as far as data can say it (spec/44_device_io.md R290): the MODEL's own
field, not the block's state. `opens`, `gets` and `puts` are answers the environment has already
laid down, oldest first, each for a device; a request for which none is laid down gets a free answer
of `Config`, applied to `log`, the port's history, newest first (log 3, log 4). -/
structure DevEnv where
  opens : List (DeviceId × Ack)
  gets : List (DeviceId × GetReply)
  puts : List (DeviceId × Ack)
  log : List DevEvent
deriving DecidableEq, Repr

/-- A device read in progress: the step or the host operation that waits for the device's answer
(spec/44_device_io.md R293, R299, R300). -/
inductive Wait where
  /-- an RD step -/
  | step (d : DeviceId)
  /-- a host `read` -/
  | host (d : DeviceId)
deriving DecidableEq, Repr

/-- The state of the block (spec/10_state.md). -/
structure State where
  /-- accumulator, id 0 (R30) -/
  A : Word
  /-- index register, id 1 (R30) -/
  X : Word
  /-- linkage register, id 2 (R30) -/
  L : Word
  /-- base register, id 3 (R30) -/
  B : Word
  /-- general register, id 4 (R30) -/
  S : Word
  /-- general register, id 5 (R30) -/
  T : Word
  /-- "floating accumulator", a plain word, id 6 (R30, D1) -/
  F : Word
  /-- program counter, id 8 (R30, R45) -/
  PC : Word
  /-- status word, id 9, one of the three condition codes (R30, R50) -/
  SW : Word
  /-- the memory array (R59) -/
  mem : Memory
  /-- the device table's bound bits, bit `d` for device `d` (R57) -/
  bound : BitVec 256
  /-- the halted latch (R55) -/
  halted : Bool
  /-- the last-fault register (R56) -/
  fault : Option Fault
  /-- the device read in progress, if one is (spec/44_device_io.md R299; log 2) -/
  held : Option Wait
  /-- the device environment (R290), the model's own field -/
  env : DevEnv
deriving DecidableEq, Repr

/-- What a step, or the meaning of an instruction, answers. -/
abbrev Answer := Host.Outcome State Fault Refusal

/-- The machine right after its creation (spec/10_state.md R60, spec/70_reset_and_hazards.md R410):
every register 0, memory zero (nothing listed), devices 0, 1, 2 bound, not halted, no fault. The
environment's field is the model's own and starts empty (log 4). -/
def State.reset : State where
  A := 0
  X := 0
  L := 0
  B := 0
  S := 0
  T := 0
  F := 0
  PC := 0
  SW := 0
  mem := []
  bound := 7
  halted := false
  fault := none
  held := none
  env := { opens := [], gets := [], puts := [], log := [] }

end Sys2Proof.Machine
end

