-- ==== Sys2Proof/Machine/Flags.lean ====
section
/-! DEFINITION. The condition code (spec/10_state.md R50, spec/00_scope.md R16): the only flag the
machine has (spec/41_arith_logic_compare.md R200). -/

namespace Sys2Proof.Machine

/-- The parameter `SIGNED_ARITH` of spec/00_scope.md R8, true by D6: COMP, COMPR, TIX, TIXR, DIV and
DIVR read their operands as two's complement (log 8). -/
def signedArith : Bool := true

/-- The code LT (R50). -/
def ccLT : Word := 0x00

/-- The code EQ (R50). -/
def ccEQ : Word := 0x40

/-- The code GT (R50). -/
def ccGT : Word := 0x80

/-- A word that SW may hold (R40, R50). -/
def legalCode (v : Word) : Bool := v == ccLT || v == ccEQ || v == ccGT

/-- `cmp(a, b)` of spec/00_scope.md R16. -/
def cmp (a b : Int) : Word := if a < b then ccLT else if a = b then ccEQ else ccGT

/-- The number a word stands for where signedness matters: `s24` (R11, R201). -/
def arithValue (w : Word) : Int := if signedArith then w.toInt else w.toNat

/-- The comparison of two words by COMP, COMPR, TIX and TIXR (R201). -/
def compareWords (a b : Word) : Word := cmp (arithValue a) (arithValue b)

end Sys2Proof.Machine
end

