-- ==== Sys2Proof/Machine/Ops.lean ====
section
/-! DEFINITION. The named operations over memory and registers, raising a fault, and fetching an
instruction's bytes. -/

namespace Sys2Proof.Machine

/-! Memory (spec/20_memory.md) -/

/-- `MAX_ADDRESS` of spec/00_scope.md R8 (D38; log 9). -/
def maxAddress : Nat := 0x100000

/-- What a byte that nothing has written reads as: memory is "zero-initialized" (spec/10_state.md
R59). -/
def unlistedByte : Byte := 0

/-- The one form a memory has: addresses strictly rising, each an address of R80, and no entry equal
to what an unlisted address reads as. -/
abbrev Memory.wf (m : Memory) : Prop :=
  m.Pairwise (fun c d => c.1 < d.1) ∧ ∀ c ∈ m, c.1 ≤ maxAddress ∧ c.2 ≠ unlistedByte

/-- The byte at an address of R80. -/
def Memory.read : Memory → Nat → Byte
  | [], _ => unlistedByte
  | (k, v) :: rest, a => if k = a then v else Memory.read rest a

/-- The entry of an address put before a memory of higher addresses; none for the byte that an
unlisted address reads as. -/
def Memory.entry (a : Nat) (v : Byte) (rest : Memory) : Memory :=
  if v = unlistedByte then rest else (a, v) :: rest

/-- The memory after a byte is stored, in its canonical form. -/
def Memory.write : Memory → Nat → Byte → Memory
  | [], a, v => Memory.entry a v []
  | (k, w) :: rest, a, v =>
    if a < k then Memory.entry a v ((k, w) :: rest)
    else if a = k then Memory.entry a v rest
    else (k, w) :: Memory.write rest a v

/-- `readByte` (R82, R83). -/
def readByte (m : Memory) (addr : Nat) : Except Fault Byte :=
  if addr ≤ maxAddress then .ok (m.read addr) else .error .outOfRange

/-- `readWord`, big-endian (R85, R88). -/
def readWord (m : Memory) (addr : Nat) : Except Fault Word :=
  if addr + 2 ≤ maxAddress then .ok (m.read addr ++ m.read (addr + 1) ++ m.read (addr + 2))
  else .error .outOfRange

/-- `writeByte` (R84). -/
def writeByte (m : Memory) (addr : Nat) (v : Byte) : Except Fault Memory :=
  if addr ≤ maxAddress then .ok (m.write addr v) else .error .outOfRange

/-- The high, middle and low byte of a word (R86, R88). -/
def wordBytes (v : Word) : Byte × Byte × Byte :=
  (v.extractLsb' 16 8, v.extractLsb' 8 8, v.extractLsb' 0 8)

/-- `writeWord`: validates, then writes three bytes, the most significant first (R86). -/
def writeWord (m : Memory) (addr : Nat) (v : Word) : Except Fault Memory :=
  if addr + 2 ≤ maxAddress then
    let (high, middle, low) := wordBytes v
    .ok (((m.write addr high).write (addr + 1) middle).write (addr + 2) low)
  else .error .outOfRange

/-- The memory after some bytes are stored at rising addresses from `addr` on, those beyond
`MAX_ADDRESS` left out. -/
def placeBytes (m : Memory) (addr : Nat) : List Byte → Memory
  | [] => m
  | b :: rest => placeBytes (if addr ≤ maxAddress then m.write addr b else m) (addr + 1) rest

/-! Registers (spec/10_state.md) -/

/-- `R[r]` (R34). -/
def State.get (s : State) : Reg → Word
  | .A => s.A
  | .X => s.X
  | .L => s.L
  | .B => s.B
  | .S => s.S
  | .T => s.T
  | .F => s.F
  | .PC => s.PC
  | .SW => s.SW

/-- The state with a register's storage replaced. -/
def State.put (s : State) (r : Reg) (v : Word) : State :=
  match r with
  | .A => { s with A := v }
  | .X => { s with X := v }
  | .L => { s with L := v }
  | .B => { s with B := v }
  | .S => { s with S := v }
  | .T => { s with T := v }
  | .F => { s with F := v }
  | .PC => { s with PC := v }
  | .SW => { s with SW := v }

/-- `R[r] <- v`: a value that is no condition code is rejected for SW, and then no register changes
(R40). -/
def State.set (s : State) (r : Reg) (v : Word) : Except Fault State :=
  if r = .SW ∧ legalCode v = false then .error .outOfRange else .ok (s.put r v)

/-- `A[7:0]` (R41). -/
def lowByte (w : Word) : Byte := w.extractLsb' 0 8

/-- The word with its low byte replaced, the other bytes undisturbed (R41). -/
def withLowByte (w : Word) (c : Byte) : Word := (w &&& 0xFFFF00) ||| c.setWidth 24

/-- The check of a Format-2 register field (spec/45_register_ops.md R311 (1)). -/
def checkField : RegField → Except Fault Reg
  | .reg r => .ok r
  | .invalid _ => .error .invalidRegister

/-! Faults (spec/60_exceptions.md) -/

/-- The numeric code of a fault kind, the spec's own enumeration (R370, D35). -/
def Fault.code : Fault → Nat
  | .outOfRange => 1
  | .invalidRegister => 2
  | .badAddressingMode => 3
  | .invalidAddressing => 4
  | .unimplementedOpcode => 5
  | .unknownOpcode => 6
  | .deviceUnavailable => 7
  | .ioError => 8
  | .divideByZero => 9
  | .loadError => 10

/-- What the last-fault register holds as a number, none for `None` (spec/10_state.md R56, R370). -/
def State.faultCode (s : State) : Option Nat := s.fault.map Fault.code

/-- Taking a fault, the machine's only exception: `fault <- K`, `halted <- 1` (R380). Nothing is
saved, no mode changes and control goes nowhere (R384); PC stays as the fetches left it (R156). -/
def State.raise (s : State) (k : Fault) : State := { s with halted := true, fault := some k }

/-- The return from it: there is no return instruction; only a reset or a successful load clears the
latch (R385, spec/70_reset_and_hazards.md R447). -/
def State.resume (s : State) : State := { s with halted := false, fault := none }

/-- The state a step leaves: the result of its reads, checks and writes, or, where one of them
raises, the state before it with the fault taken (R150, R382). -/
def State.commit (s : State) : Except Fault State → State
  | .ok t => t
  | .error k => s.raise k

/-- The fault of a decode error: `UnknownOpcode` (R376); bytes that end too early are bytes a fetch
did not find (R151), which a step never decodes (log 18). -/
def decodeFault : DecodeError → Fault
  | .unknownOpcode => .unknownOpcode
  | .truncated => .outOfRange

/-! Fetch (spec/40_execution_cycle.md) -/

/-- `Fetch()`: the byte at PC, PC advanced by 1; a fetch that faults does not advance PC (R151). -/
def fetchByte (s : State) : Except Fault (Byte × State) :=
  match readByte s.mem s.PC.toNat with
  | .ok b => .ok (b, { s with PC := s.PC + 1 })
  | .error k => .error k

/-- The bytes of an instruction and the state after their fetches, or the fault of a fetch and the
state after the fetches before it. -/
inductive Fetched where
  | bytes (bs : List Byte) (s : State)
  | fault (k : Fault) (s : State)
deriving DecidableEq, Repr

/-- `n` further fetches after those that gave `bs`. -/
def fetchMore : Nat → List Byte → State → Fetched
  | 0, bs, s => .bytes bs s
  | n + 1, bs, s =>
    match fetchByte s with
    | .ok (b, t) => fetchMore n (bs ++ [b]) t
    | .error k => .fault k s

/-- The fetches of one instruction: `b0`; `b1` unless `b0` is Format 1; then as many as the length
of R117 says, none for an unknown opcode (R152, R154). -/
def fetchInstr (s : State) : Fetched :=
  match fetchByte s with
  | .error k => .fault k s
  | .ok (b0, s1) =>
    if isFormat1 b0 then .bytes [b0] s1
    else
      match fetchByte s1 with
      | .error k => .fault k s1
      | .ok (b1, s2) => fetchMore ((instrLength b0 b1).getD 2 - 2) [b0, b1] s2

/-- The state in which the next step fetches the instruction of a number of spec/opcode_table.json:
its bytes stand at PC, the machine is not halted and no step is in progress (log 6). -/
def placeInstruction (s : State) (nbits w : Nat) : State :=
  { s.resume with mem := placeBytes s.mem s.PC.toNat (tableBytes nbits w), held := none }

end Sys2Proof.Machine
end

