-- ==== Sys2Proof/Machine/Operands.lean ====
section
/-! DEFINITION. Target address and operand resolution (spec/40_execution_cycle.md R160 to R174).
PC is the PC after all fetches of the instruction (D41). -/

namespace Sys2Proof.Machine

/-- The target address before indexing: direct, PC-relative or base-relative, an exact integer
(R160 to R162). Only the Format-3 displacement under p is sign-extended. -/
def baseAddress (s : State) : MemOperand → Except Fault Int
  | .sic _ addr => .ok addr.toNat
  | .f3 _ _ b p disp =>
    if b && p then .error .badAddressingMode
    else if p then .ok (s.PC.toNat + disp.toInt)
    else if b then .ok (s.B.toNat + disp.toNat)
    else .ok disp.toNat
  | .f4 _ _ b p addr =>
    if b && p then .error .badAddressingMode
    else if p then .ok (s.PC.toNat + addr.toNat)
    else if b then .ok (s.B.toNat + addr.toNat)
    else .ok addr.toNat

/-- The x flag. -/
def indexed : MemOperand → Bool
  | .sic x _ => x
  | .f3 _ x _ _ _ => x
  | .f4 _ x _ _ _ => x

/-- The (n, i) pair, none for SIC's (0, 0) (R119). -/
def modeOfOperand : MemOperand → Option Mode
  | .sic _ _ => none
  | .f3 mode _ _ _ _ => some mode
  | .f4 mode _ _ _ _ => some mode

/-- Indexing is legal in simple and in SIC mode (R163, C8). -/
def indexable (m : MemOperand) : Bool :=
  match modeOfOperand m with
  | none => true
  | some .simple => true
  | some .immediate => false
  | some .indirect => false

/-- `target_address` (R160): b and p first, then x, then the range of R164. -/
def targetAddress (s : State) (m : MemOperand) : Except Fault Word := do
  let base ← baseAddress s m
  let ta ←
    if indexed m then
      if indexable m then .ok (base + s.X.toNat) else .error .invalidAddressing
    else .ok base
  if 0 ≤ ta ∧ ta ≤ 0xFFFFFF then .ok (BitVec.ofInt 24 ta) else .error .outOfRange

/-- `operand_word` of the load class (R170); one level of indirection, unmasked (R174). -/
def operandWord (s : State) (m : MemOperand) : Except Fault Word := do
  let ta ← targetAddress s m
  match modeOfOperand m with
  | some .immediate => .ok ta
  | some .indirect => do
    let pointer ← readWord s.mem ta.toNat
    readWord s.mem pointer.toNat
  | some .simple => readWord s.mem ta.toNat
  | none => readWord s.mem ta.toNat

/-- `effective_address` of the store and jump classes (R171). -/
def effectiveAddress (s : State) (m : MemOperand) : Except Fault Word := do
  let ta ← targetAddress s m
  match modeOfOperand m with
  | some .indirect => readWord s.mem ta.toNat
  | some .immediate => .ok ta
  | some .simple => .ok ta
  | none => .ok ta

/-- `operand_byte` of LDCH (R172). -/
def operandByte (s : State) (m : MemOperand) : Except Fault Byte := do
  let ta ← targetAddress s m
  match modeOfOperand m with
  | some .immediate => .ok (lowByte ta)
  | some .indirect => do
    let pointer ← readWord s.mem ta.toNat
    readByte s.mem pointer.toNat
  | some .simple => readByte s.mem ta.toNat
  | none => readByte s.mem ta.toNat

end Sys2Proof.Machine
end

