-- ==== Sys2Proof/Machine/Arith.lean ====
section
/-! DEFINITION. Arithmetic, logic and compare with a memory or immediate operand
(spec/41_arith_logic_compare.md). -/

namespace Sys2Proof.Machine

/-- The quotient of DIV and DIVR: two's-complement operands, truncated toward zero, reduced modulo
2^24; a zero divisor raises `DivideByZero` (R205, R206, D8). -/
def divideWords (dividend divisor : Word) : Except Fault Word :=
  if divisor = 0 then .error .divideByZero
  else .ok (BitVec.ofInt 24 ((arithValue dividend).tdiv (arithValue divisor)))

/-- An instruction that replaces A by a function of A and the word operand. -/
def accumulate (f : Word → Word → Except Fault Word) (m : MemOperand) (s : State) : Answer :=
  .next (s.commit (do
    let v ← operandWord s m
    let a ← f s.A v
    .ok { s with A := a }))

/-- ADD (R202). -/
def execAdd (m : MemOperand) (s : State) : Answer := accumulate (fun a v => .ok (a + v)) m s

/-- SUB (R203). -/
def execSub (m : MemOperand) (s : State) : Answer := accumulate (fun a v => .ok (a - v)) m s

/-- MUL (R204). -/
def execMul (m : MemOperand) (s : State) : Answer := accumulate (fun a v => .ok (a * v)) m s

/-- DIV (R205). -/
def execDiv (m : MemOperand) (s : State) : Answer := accumulate divideWords m s

/-- AND (R207). -/
def execAnd (m : MemOperand) (s : State) : Answer := accumulate (fun a v => .ok (a &&& v)) m s

/-- OR (R208). -/
def execOr (m : MemOperand) (s : State) : Answer := accumulate (fun a v => .ok (a ||| v)) m s

/-- COMP (R220). -/
def execComp (m : MemOperand) (s : State) : Answer :=
  .next (s.commit (do
    let v ← operandWord s m
    .ok { s with SW := compareWords s.A v }))

/-- TIX (R222): the operand is resolved with the old X, the new X is compared. -/
def execTix (m : MemOperand) (s : State) : Answer :=
  .next (s.commit (do
    let v ← operandWord s m
    let x := s.X + 1
    .ok { s with X := x, SW := compareWords x v }))

end Sys2Proof.Machine
end

