-- ==== Sys2Proof/Machine/Devices.lean ====
section
/-! DEFINITION. The device table, the device port and TD, RD, WD (spec/44_device_io.md). -/

namespace Sys2Proof.Machine

/-! The port to the environment (R290; log 3) -/

/-- The first answer laid down for a device and the answers left; `free` where none is. -/
def takeReply {α : Type} (d : DeviceId) (free : α) : List (DeviceId × α) → α × List (DeviceId × α)
  | [] => (free, [])
  | (e, r) :: rest =>
    if e = d then (r, rest)
    else
      let (r', rest') := takeReply d free rest
      (r', (e, r) :: rest')

/-- The request `open(d)`. -/
def askOpen (d : DeviceId) (s : State) : Ack × State :=
  let (r, opens) := takeReply d (Config.openReply s.env.log d) s.env.opens
  (r, { s with env := { s.env with opens := opens, log := .opened d r :: s.env.log } })

/-- The request `get(d)`. -/
def askGet (d : DeviceId) (s : State) : GetReply × State :=
  let (r, gets) := takeReply d (Config.getReply s.env.log d) s.env.gets
  (r, { s with env := { s.env with gets := gets, log := .got d r :: s.env.log } })

/-- The request `put(d, c)`. -/
def askPut (d : DeviceId) (c : Byte) (s : State) : Ack × State :=
  let (r, puts) := takeReply d (Config.putReply s.env.log d c) s.env.puts
  (r, { s with env := { s.env with puts := puts, log := .put d c r :: s.env.log } })

/-! The device table (R291 to R294) -/

/-- `bound[d] = 1` (spec/10_state.md R57). -/
def State.isBound (s : State) (d : DeviceId) : Bool := s.bound.getLsbD d.toNat

/-- `bound[d] <- 1`. -/
def State.bind (s : State) (d : DeviceId) : State :=
  { s with bound := s.bound ||| BitVec.twoPow 256 d.toNat }

/-- `ensure(d)`: binds an unbound device on its first reference (R291). -/
def ensure (d : DeviceId) (s : State) : Ack × State :=
  if s.isBound d then (.ok, s)
  else
    match askOpen d s with
    | (.ok, t) => (.ok, t.bind d)
    | (.fail, t) => (.fail, t)

/-- What a device read comes to (R293). -/
inductive ReadResult where
  /-- the byte, consumed from the stream -/
  | byte (c : Byte)
  /-- `DeviceUnavailable` or `IOError` -/
  | fault (k : Fault)
  /-- no answer yet (R299) -/
  | pending
deriving DecidableEq, Repr

/-- The get of `DevRead(d)`, once the device is bound (R293). -/
def readBound (d : DeviceId) (s : State) : ReadResult × State :=
  match askGet d s with
  | (.byte c, t) => (.byte c, t)
  | (.eof, t) => (.fault .ioError, t)
  | (.error, t) => (.fault .ioError, t)
  | (.pending, t) => (.pending, t)

/-- `DevRead(d)` (R293). -/
def devRead (d : DeviceId) (s : State) : ReadResult × State :=
  match ensure d s with
  | (.fail, t) => (.fault .deviceUnavailable, t)
  | (.ok, t) => readBound d t

/-- `DevWrite(d, c)`: none where it is done, else the fault (R294). -/
def devWrite (d : DeviceId) (c : Byte) (s : State) : Option Fault × State :=
  match ensure d s with
  | (.fail, t) => (some .deviceUnavailable, t)
  | (.ok, t) =>
    match askPut d c t with
    | (.ok, u) => (none, u)
    | (.fail, u) => (some .ioError, u)

/-! The instructions (R295 to R299) -/

/-- The device id: the low byte of the load-class operand (R295). -/
def operandDevice (s : State) (m : MemOperand) : Except Fault DeviceId := do
  let v ← operandWord s m
  .ok (lowByte v)

/-- An instruction on the device its operand names; a fault of the operand's resolution is raised
before any device request. -/
def withDevice (f : DeviceId → State → State) (m : MemOperand) (s : State) : State :=
  match operandDevice s m with
  | .ok d => f d s
  | .error k => s.raise k

/-- TD on a device: LT where it is ready, EQ where it is not (R296). -/
def testDevice (d : DeviceId) (s : State) : State :=
  match ensure d s with
  | (.ok, t) => { t with SW := ccLT }
  | (.fail, t) => { t with SW := ccEQ }

/-- The end of an RD step on device `d`: the byte to A's low byte, the fault, or, without an answer,
the step held (R297, R299). -/
def finishRead (d : DeviceId) : ReadResult × State → State
  | (.byte c, t) => { t with A := withLowByte t.A c, held := none }
  | (.fault k, t) => { t with held := none }.raise k
  | (.pending, t) => { t with held := some (.step d) }

/-- RD on a device (R297). -/
def readDevice (d : DeviceId) (s : State) : State := finishRead d (devRead d s)

/-- A held RD step asks its device again; nothing else runs until it is answered (R299, D32). -/
def resumeRead (d : DeviceId) (s : State) : State := finishRead d (readBound d s)

/-- WD on a device (R298). -/
def writeDevice (d : DeviceId) (s : State) : State :=
  match devWrite d (lowByte s.A) s with
  | (none, t) => t
  | (some k, t) => t.raise k

/-- TD (R296). -/
def execTd (m : MemOperand) (s : State) : Answer := .next (withDevice testDevice m s)

/-- RD (R297). -/
def execRd (m : MemOperand) (s : State) : Answer := .next (withDevice readDevice m s)

/-- WD (R298). -/
def execWd (m : MemOperand) (s : State) : Answer := .next (withDevice writeDevice m s)

end Sys2Proof.Machine
end

