-- ==== Sys2Proof/Machine/Jumps.lean ====
section
/-! DEFINITION. Jumps, subroutine call and return (spec/42_jumps.md). -/

namespace Sys2Proof.Machine

/-- A jump taken when SW holds one of some codes; the effective address is resolved, and may fault,
whether or not it is taken (R231). -/
def jumpIf (taken : Word → Bool) (m : MemOperand) (s : State) : Answer :=
  .next (s.commit (do
    let ea ← effectiveAddress s m
    .ok (if taken s.SW then { s with PC := ea } else s)))

/-- J (R232). -/
def execJ (m : MemOperand) (s : State) : Answer := jumpIf (fun _ => true) m s

/-- JEQ (R233). -/
def execJeq (m : MemOperand) (s : State) : Answer := jumpIf (fun sw => sw == ccEQ) m s

/-- JGT (R234). -/
def execJgt (m : MemOperand) (s : State) : Answer := jumpIf (fun sw => sw == ccGT) m s

/-- JLT (R235). -/
def execJlt (m : MemOperand) (s : State) : Answer := jumpIf (fun sw => sw == ccLT) m s

/-- JSUB (R236): the target is resolved first, then L gets the return address. -/
def execJsub (m : MemOperand) (s : State) : Answer :=
  .next (s.commit (do
    let ea ← effectiveAddress s m
    .ok { s with L := s.PC, PC := ea }))

/-- RSUB (R237): the target address is computed, so that its faults apply, and ignored (R173). -/
def execRsub (m : MemOperand) (s : State) : Answer :=
  .next (s.commit (do
    let _ ← targetAddress s m
    .ok { s with PC := s.L }))

end Sys2Proof.Machine
end

