-- ==== Sys2Proof/Machine/LoadStore.lean ====
section
/-! DEFINITION. Loads and stores (spec/43_load_store.md). -/

namespace Sys2Proof.Machine

/-- A word load into a register (R250). -/
def loadWord (r : Reg) (m : MemOperand) (s : State) : Answer :=
  .next (s.commit (do
    let v ← operandWord s m
    s.set r v))

/-- A word store (R251); an immediate store writes at TA itself (R252). -/
def storeWord (v : Word) (m : MemOperand) (s : State) : Answer :=
  .next (s.commit (do
    let ea ← effectiveAddress s m
    let mem ← writeWord s.mem ea.toNat v
    .ok { s with mem := mem }))

/-- LDA (R253). -/
def execLda (m : MemOperand) (s : State) : Answer := loadWord .A m s

/-- LDX (R254). -/
def execLdx (m : MemOperand) (s : State) : Answer := loadWord .X m s

/-- LDL (R255). -/
def execLdl (m : MemOperand) (s : State) : Answer := loadWord .L m s

/-- LDB (R256). -/
def execLdb (m : MemOperand) (s : State) : Answer := loadWord .B m s

/-- LDS (R257). -/
def execLds (m : MemOperand) (s : State) : Answer := loadWord .S m s

/-- LDT (R258). -/
def execLdt (m : MemOperand) (s : State) : Answer := loadWord .T m s

/-- LDF (R259): a 24-bit word move. -/
def execLdf (m : MemOperand) (s : State) : Answer := loadWord .F m s

/-- LDCH (R260). -/
def execLdch (m : MemOperand) (s : State) : Answer :=
  .next (s.commit (do
    let c ← operandByte s m
    .ok { s with A := withLowByte s.A c }))

/-- STA (R261). -/
def execSta (m : MemOperand) (s : State) : Answer := storeWord s.A m s

/-- STX (R262). -/
def execStx (m : MemOperand) (s : State) : Answer := storeWord s.X m s

/-- STL (R263). -/
def execStl (m : MemOperand) (s : State) : Answer := storeWord s.L m s

/-- STB (R264). -/
def execStb (m : MemOperand) (s : State) : Answer := storeWord s.B m s

/-- STS (R265). -/
def execSts (m : MemOperand) (s : State) : Answer := storeWord s.S m s

/-- STT (R266). -/
def execStt (m : MemOperand) (s : State) : Answer := storeWord s.T m s

/-- STF (R267): a 24-bit word store. -/
def execStf (m : MemOperand) (s : State) : Answer := storeWord s.F m s

/-- STSW (R268). -/
def execStsw (m : MemOperand) (s : State) : Answer := storeWord s.SW m s

/-- STCH (R269): one byte. -/
def execStch (m : MemOperand) (s : State) : Answer :=
  .next (s.commit (do
    let ea ← effectiveAddress s m
    let mem ← writeByte s.mem ea.toNat (lowByte s.A)
    .ok { s with mem := mem }))

end Sys2Proof.Machine
end

