-- ==== Sys2Proof/Machine/RegisterOps.lean ====
section
/-! DEFINITION. Register-register instructions, Format 2 (spec/45_register_ops.md). Each follows the
order of R311: the fields are checked, r1 first; the sources are read; the result is computed; the
destination is written with `set`. PC as a source is the next instruction's address (R312, D43). -/

namespace Sys2Proof.Machine

/-- `R[r2] <- f(R[r2], R[r1])` (R310). -/
def combine (f : Word → Word → Except Fault Word) (r1 r2 : RegField) (s : State) : Answer :=
  .next (s.commit (do
    let src ← checkField r1
    let dst ← checkField r2
    let v ← f (s.get dst) (s.get src)
    s.set dst v))

/-- `R[r1] <- f(R[r1])` (R310). -/
def update (f : Word → Word) (r1 : RegField) (s : State) : Answer :=
  .next (s.commit (do
    let r ← checkField r1
    s.set r (f (s.get r))))

/-- The shift count `n = r2 + 1`, 1 to 16 (R310, D24). -/
def shiftCount (count : BitVec 4) : Nat := count.toNat + 1

/-- The circular left shift of R319. -/
def rotateLeft (v : Word) (n : Nat) : Word := (v <<< n) ||| (v >>> (24 - n))

/-- The arithmetic right shift of R320. -/
def shiftRight (v : Word) (n : Nat) : Word := v.sshiftRight n

/-- ADDR (R313). -/
def execAddr (r1 r2 : RegField) (s : State) : Answer := combine (fun d v => .ok (d + v)) r1 r2 s

/-- SUBR (R314). -/
def execSubr (r1 r2 : RegField) (s : State) : Answer := combine (fun d v => .ok (d - v)) r1 r2 s

/-- MULR (R315). -/
def execMulr (r1 r2 : RegField) (s : State) : Answer := combine (fun d v => .ok (d * v)) r1 r2 s

/-- DIVR (R316). -/
def execDivr (r1 r2 : RegField) (s : State) : Answer := combine divideWords r1 r2 s

/-- RMO (R321). -/
def execRmo (r1 r2 : RegField) (s : State) : Answer := combine (fun _ v => .ok v) r1 r2 s

/-- COMPR (R318). -/
def execCompr (r1 r2 : RegField) (s : State) : Answer :=
  .next (s.commit (do
    let first ← checkField r1
    let second ← checkField r2
    .ok { s with SW := compareWords (s.get first) (s.get second) }))

/-- SHIFTL (R319). -/
def execShiftl (r1 : RegField) (count : BitVec 4) (s : State) : Answer :=
  update (fun v => rotateLeft v (shiftCount count)) r1 s

/-- SHIFTR (R320). -/
def execShiftr (r1 : RegField) (count : BitVec 4) (s : State) : Answer :=
  update (fun v => shiftRight v (shiftCount count)) r1 s

/-- CLEAR (R322); its r2 field is ignored (R124). -/
def execClear (r1 : RegField) (s : State) : Answer := update (fun _ => 0) r1 s

/-- TIXR (R324): R[r1] is read after X is incremented (D27); its r2 field is ignored (R124). -/
def execTixr (r1 : RegField) (s : State) : Answer :=
  .next (s.commit (do
    let r ← checkField r1
    let t := { s with X := s.X + 1 }
    .ok { t with SW := compareWords t.X (t.get r) }))

end Sys2Proof.Machine
end

