-- ==== Sys2Proof/Machine/Unimplemented.lean ====
section
/-! DEFINITION. The recognized but unimplemented instructions (spec/46_unimplemented.md). Each raises
`UnimplementedOpcode` after its bytes are fetched and before any other check: no field is checked,
no memory is read, no device request is sent, no register is written (R155, D3). -/

namespace Sys2Proof.Machine

/-- The effect all of them have (R155, R375). -/
def unimplemented (s : State) : Answer := .next (s.raise .unimplementedOpcode)

/-- FLOAT (R340). -/
def execFloat (s : State) : Answer := unimplemented s

/-- FIX (R341). -/
def execFix (s : State) : Answer := unimplemented s

/-- NORM (R342). -/
def execNorm (s : State) : Answer := unimplemented s

/-- SIO (R343). -/
def execSio (s : State) : Answer := unimplemented s

/-- HIO (R344). -/
def execHio (s : State) : Answer := unimplemented s

/-- TIO (R345). -/
def execTio (s : State) : Answer := unimplemented s

/-- SVC (R346). -/
def execSvc (s : State) : Answer := unimplemented s

/-- ADDF (R347). -/
def execAddf (s : State) : Answer := unimplemented s

/-- SUBF (R348). -/
def execSubf (s : State) : Answer := unimplemented s

/-- MULF (R349). -/
def execMulf (s : State) : Answer := unimplemented s

/-- DIVF (R350). -/
def execDivf (s : State) : Answer := unimplemented s

/-- COMPF (R351). -/
def execCompf (s : State) : Answer := unimplemented s

/-- LPS (R352). -/
def execLps (s : State) : Answer := unimplemented s

/-- STI (R353). -/
def execSti (s : State) : Answer := unimplemented s

/-- SSK (R354). -/
def execSsk (s : State) : Answer := unimplemented s

end Sys2Proof.Machine
end

