-- ==== Sys2Proof/Machine/Dispatch.lean ====
section
/-! DEFINITION. The meaning of each instruction, one arm per constructor. -/

namespace Sys2Proof.Machine

def exec (i : Instr) (s : State) : Host.Outcome State Fault Refusal :=
  match i with
  | .float => Sys2Proof.Machine.execFloat s
  | .fix => Sys2Proof.Machine.execFix s
  | .norm => Sys2Proof.Machine.execNorm s
  | .sio => Sys2Proof.Machine.execSio s
  | .hio => Sys2Proof.Machine.execHio s
  | .tio => Sys2Proof.Machine.execTio s
  | .addr r1 r2 => Sys2Proof.Machine.execAddr r1 r2 s
  | .subr r1 r2 => Sys2Proof.Machine.execSubr r1 r2 s
  | .mulr r1 r2 => Sys2Proof.Machine.execMulr r1 r2 s
  | .divr r1 r2 => Sys2Proof.Machine.execDivr r1 r2 s
  | .compr r1 r2 => Sys2Proof.Machine.execCompr r1 r2 s
  | .shiftl r1 count => Sys2Proof.Machine.execShiftl r1 count s
  | .shiftr r1 count => Sys2Proof.Machine.execShiftr r1 count s
  | .rmo r1 r2 => Sys2Proof.Machine.execRmo r1 r2 s
  | .svc _ _ => Sys2Proof.Machine.execSvc s
  | .clear r1 _ => Sys2Proof.Machine.execClear r1 s
  | .tixr r1 _ => Sys2Proof.Machine.execTixr r1 s
  | .lda m => Sys2Proof.Machine.execLda m s
  | .ldx m => Sys2Proof.Machine.execLdx m s
  | .ldl m => Sys2Proof.Machine.execLdl m s
  | .sta m => Sys2Proof.Machine.execSta m s
  | .stx m => Sys2Proof.Machine.execStx m s
  | .stl m => Sys2Proof.Machine.execStl m s
  | .add m => Sys2Proof.Machine.execAdd m s
  | .sub m => Sys2Proof.Machine.execSub m s
  | .mul m => Sys2Proof.Machine.execMul m s
  | .div m => Sys2Proof.Machine.execDiv m s
  | .comp m => Sys2Proof.Machine.execComp m s
  | .tix m => Sys2Proof.Machine.execTix m s
  | .jeq m => Sys2Proof.Machine.execJeq m s
  | .jgt m => Sys2Proof.Machine.execJgt m s
  | .jlt m => Sys2Proof.Machine.execJlt m s
  | .j m => Sys2Proof.Machine.execJ m s
  | .and m => Sys2Proof.Machine.execAnd m s
  | .or m => Sys2Proof.Machine.execOr m s
  | .jsub m => Sys2Proof.Machine.execJsub m s
  | .rsub m => Sys2Proof.Machine.execRsub m s
  | .ldch m => Sys2Proof.Machine.execLdch m s
  | .stch m => Sys2Proof.Machine.execStch m s
  | .addf _ => Sys2Proof.Machine.execAddf s
  | .subf _ => Sys2Proof.Machine.execSubf s
  | .mulf _ => Sys2Proof.Machine.execMulf s
  | .divf _ => Sys2Proof.Machine.execDivf s
  | .ldb m => Sys2Proof.Machine.execLdb m s
  | .lds m => Sys2Proof.Machine.execLds m s
  | .ldf m => Sys2Proof.Machine.execLdf m s
  | .ldt m => Sys2Proof.Machine.execLdt m s
  | .stb m => Sys2Proof.Machine.execStb m s
  | .sts m => Sys2Proof.Machine.execSts m s
  | .stf m => Sys2Proof.Machine.execStf m s
  | .stt m => Sys2Proof.Machine.execStt m s
  | .compf _ => Sys2Proof.Machine.execCompf s
  | .lps _ => Sys2Proof.Machine.execLps s
  | .sti _ => Sys2Proof.Machine.execSti s
  | .rd m => Sys2Proof.Machine.execRd m s
  | .wd m => Sys2Proof.Machine.execWd m s
  | .td m => Sys2Proof.Machine.execTd m s
  | .stsw m => Sys2Proof.Machine.execStsw m s
  | .ssk _ => Sys2Proof.Machine.execSsk s

end Sys2Proof.Machine
end

