-- ==== Sys2Proof/Machine/Cycle.lean ====
section
/-! DEFINITION. The sequencer: one fetch-decode-execute cycle (spec/40_execution_cycle.md R150 to
R156). -/

namespace Sys2Proof.Machine

/-- The fetched bytes decoded and executed; a fetch or decode fault is raised with PC as the fetches
left it (R152, R154, R156). -/
def runFetched : Fetched → Answer
  | .fault k t => .next (t.raise k)
  | .bytes bs t =>
    match decode bs with
    | .ok (i, _) => exec i t
    | .error e => .next (t.raise (decodeFault e))

/-- Nothing while halted (R153); a held RD waits for its device (R299); while a host read is in
progress no step runs (spec/20_memory.md R92); else one instruction is fetched, decoded and executed
(R152). -/
def cycle (s : State) : Answer :=
  if s.halted then .next s
  else
    match s.held with
    | some (.step d) => .next (resumeRead d s)
    | some (.host _) => .next s
    | none => runFetched (fetchInstr s)

end Sys2Proof.Machine
end

