-- ==== Sys2Proof/Machine/Step.lean ====
section
/-! DEFINITION. One step of the machine, and the placing of an instruction to run. -/

namespace Sys2Proof.Machine

/-- One step (spec/40_execution_cycle.md R150, R152). -/
def step (s : State) : Host.Outcome State Fault Refusal := cycle s

/-- The state in which `step` fetches and runs the instruction of a number of
spec/opcode_table.json (log 6). -/
def State.withFetchWord (s : State) (nbits w : Nat) : State := placeInstruction s nbits w

end Sys2Proof.Machine
end

