-- ==== Sys2Proof/Machine/Loader.lean ====
section
/-! DEFINITION. The object loader, the machine's boot mechanism (spec/70_reset_and_hazards.md R440 to
R449). A module is a list of ASCII bytes. -/

namespace Sys2Proof.Machine

/-! Lines and fields (R440) -/

/-- The newline-separated lines of a module. -/
def splitLines : List Byte → List (List Byte)
  | [] => [[]]
  | c :: rest =>
    if c = 0x0A then [] :: splitLines rest
    else
      match splitLines rest with
      | [] => [[c]]
      | line :: lines => (c :: line) :: lines

/-- A line without its trailing carriage return. -/
def dropReturn : List Byte → List Byte
  | [] => []
  | c :: rest =>
    match rest with
    | [] => if c = 0x0D then [] else [c]
    | _ :: _ => c :: dropReturn rest

/-- The non-empty lines of a module. -/
def moduleLines (text : List Byte) : List (List Byte) :=
  ((splitLines text).map dropReturn).filter (fun line => !line.isEmpty)

/-- The value of a hex digit: "accepts only the characters 0-9 and A-F". -/
def hexDigit (c : Byte) : Option Nat :=
  if 0x30 ≤ c.toNat ∧ c.toNat ≤ 0x39 then some (c.toNat - 0x30)
  else if 0x41 ≤ c.toNat ∧ c.toNat ≤ 0x46 then some (c.toNat - 0x41 + 10)
  else none

/-- The number that some hex digits write, after the digits that gave `acc`. -/
def hexNumber (acc : Nat) : List Byte → Option Nat
  | [] => some acc
  | c :: rest =>
    match hexDigit c with
    | some d => hexNumber (acc * 16 + d) rest
    | none => none

/-- The characters of a line in columns `col` to `col + width - 1`, counted from 1; none where the
line is too short. -/
def columns (line : List Byte) (col width : Nat) : Option (List Byte) :=
  let field := (line.drop (col - 1)).take width
  if field.length = width then some field else none

/-- The hex field of a line in some columns. -/
def hexField (line : List Byte) (col width : Nat) : Option Nat :=
  (columns line col width).bind (hexNumber 0)

/-- `k` bytes as hex pairs from column `col` on. -/
def hexBytes (line : List Byte) : Nat → Nat → Option (List Byte)
  | _, 0 => some []
  | col, k + 1 => do
    let v ← hexField line col 2
    let rest ← hexBytes line (col + 2) k
    some (BitVec.ofNat 8 v :: rest)

/-! Records (R441 to R445) -/

/-- A record as far as it has an effect. -/
inductive Record where
  /-- T: the bytes and the address of the first (R442) -/
  | text (addr : Nat) (bytes : List Byte)
  /-- E: the entry PC (R445) -/
  | finish (start : Nat)
  /-- H, M, D or R: no effect on memory or registers (R441, R443, R444, R446) -/
  | inert
deriving DecidableEq, Repr

/-- H: the name is any six characters; start address and length are parsed (R441). Its load counter
is set again by every T record (R442, C3). -/
def headerRecord (line : List Byte) : Option Record := do
  let _ ← hexField line 8 6
  let _ ← hexField line 14 6
  some .inert

/-- T: load address, byte count, bytes, each of which must have an address of memory (R442). -/
def textRecord (line : List Byte) : Option Record := do
  let addr ← hexField line 2 6
  let k ← hexField line 8 2
  let bytes ← hexBytes line 10 k
  if k = 0 ∨ addr + k - 1 ≤ maxAddress then some (.text addr bytes) else none

/-- M: offset and length are parsed (R443). -/
def modificationRecord (line : List Byte) : Option Record := do
  let _ ← hexField line 2 6
  let _ ← hexField line 8 2
  some .inert

/-- E: the start address (R445). -/
def endRecord (line : List Byte) : Option Record := do
  let start ← hexField line 2 6
  some (.finish start)

/-- A line by its first character: H, T, M, D, R or E (R449). -/
def parseRecord (line : List Byte) : Option Record :=
  match line.head? with
  | none => none
  | some tag =>
    if tag = 0x48 then headerRecord line
    else if tag = 0x54 then textRecord line
    else if tag = 0x4D then modificationRecord line
    else if tag = 0x44 then some .inert
    else if tag = 0x52 then some .inert
    else if tag = 0x45 then endRecord line
    else none

/-- What a module loads: its T records in order and its entry PC. -/
structure Image where
  texts : List (Nat × List Byte)
  entry : Nat
deriving DecidableEq, Repr

/-- The records up to the first E record, which is required (R440, R445). -/
def parseRecords : List (List Byte) → Option Image
  | [] => none
  | line :: rest =>
    match parseRecord line with
    | none => none
    | some (.finish start) => some { texts := [], entry := start }
    | some .inert => parseRecords rest
    | some (.text addr bytes) =>
      match parseRecords rest with
      | some image => some { image with texts := (addr, bytes) :: image.texts }
      | none => none

/-- A module: its first non-empty line is an H record (R440); none is a `LoadError` (R449). -/
def parseModule (text : List Byte) : Option Image :=
  match moduleLines text with
  | [] => none
  | line :: rest => if line.head? = some 0x48 then parseRecords (line :: rest) else none

/-! The load (R447, R448) -/

/-- Every T byte written, in the order of the records. -/
def writeTexts (m : Memory) : List (Nat × List Byte) → Memory
  | [] => m
  | (addr, bytes) :: rest => writeTexts (placeBytes m addr bytes) rest

/-- `load(module)`: a successful load writes every T byte, sets PC from the E record and clears
`halted` and `fault` (R447); a failed one sets them to 1 and `LoadError` and changes nothing else
(R448). -/
def loadModule (text : List Byte) (s : State) : State :=
  match parseModule text with
  | some image =>
    { s.resume with mem := writeTexts s.mem image.texts, PC := BitVec.ofNat 24 image.entry }
  | none => s.raise .loadError

end Sys2Proof.Machine
end

