-- ==== Sys2Proof/Machine/HostPort.lean ====
section
/-! DEFINITION. The host port (spec/60_exceptions.md R395): the operations of everything outside the
block, each one indivisible transaction between steps (spec/20_memory.md R92, R101). The driver's
start, stop and isRunning are outside the block (R398). -/

namespace Sys2Proof.Machine

/-- The host's operations; ids, addresses and values are whatever integers the host sends. -/
inductive HostOp where
  | step
  | reset
  | load (text : List Byte)
  | halted
  | get (id : Int)
  | set (id v : Int)
  | readByte (addr : Int)
  | writeByte (addr v : Int)
  | readWord (addr : Int)
  | writeWord (addr v : Int)
  | dump (low high : Int)
  | test (id : Int)
  | read (id : Int)
  | write (id v : Int)
deriving DecidableEq, Repr

/-- What an operation returns. -/
inductive HostReply where
  | ok
  | flag (b : Bool)
  | byte (v : Byte)
  | word (v : Word)
  | bytes (vs : List Byte)
  /-- the typed failure (R395, R396) -/
  | failed (k : Fault)
  /-- no return yet: a device has not answered, or another operation is in progress (R299, R395) -/
  | pending
deriving DecidableEq, Repr

/-- A natural number up to a bound, or `OutOfRange` (R371). -/
def hostNat (bound : Nat) (v : Int) : Except Fault Nat :=
  if 0 ≤ v ∧ v ≤ bound then .ok v.toNat else .error .outOfRange

/-- The register of an id, or `InvalidRegister` (R31). -/
def hostReg (id : Int) : Except Fault Reg :=
  if 0 ≤ id ∧ id ≤ 15 then
    match Reg.ofId (BitVec.ofInt 4 id) with
    | some r => .ok r
    | none => .error .invalidRegister
  else .error .invalidRegister

/-- `set(id, v)` of spec/10_state.md R40. -/
def hostSet (id v : Int) (s : State) : Except Fault State := do
  let r ← hostReg id
  let n ← hostNat 0xFFFFFF v
  s.set r (BitVec.ofNat 24 n)

/-- `readByte` at the port (spec/20_memory.md R82, R101). -/
def hostReadByte (addr : Int) (s : State) : Except Fault Byte := do
  let a ← hostNat maxAddress addr
  Machine.readByte s.mem a

/-- `readWord` at the port (R85, R101). -/
def hostReadWord (addr : Int) (s : State) : Except Fault Word := do
  let a ← hostNat maxAddress addr
  Machine.readWord s.mem a

/-- `writeByte` at the port (R84, R101). -/
def hostWriteByte (addr v : Int) (s : State) : Except Fault State := do
  let a ← hostNat maxAddress addr
  let b ← hostNat 0xFF v
  let mem ← Machine.writeByte s.mem a (BitVec.ofNat 8 b)
  .ok { s with mem := mem }

/-- `writeWord` at the port (R86, R101). -/
def hostWriteWord (addr v : Int) (s : State) : Except Fault State := do
  let a ← hostNat maxAddress addr
  let w ← hostNat 0xFFFFFF v
  let mem ← Machine.writeWord s.mem a (BitVec.ofNat 24 w)
  .ok { s with mem := mem }

/-- `dump(low, high)`: the bytes of a range, both ends included (R101, D46). -/
def hostDump (low high : Int) (s : State) : Except Fault (List Byte) := do
  let l ← hostNat maxAddress low
  let h ← hostNat maxAddress high
  if l ≤ h then .ok ((List.range (h - l + 1)).map (fun k => s.mem.read (l + k)))
  else .error .outOfRange

/-- The reply of an operation that only reads. -/
def answered {α : Type} (wrap : α → HostReply) : Except Fault α → HostReply
  | .ok v => wrap v
  | .error k => .failed k

/-- The reply and the state of an operation that writes: on a failure nothing changes, `halted` and
`fault` included (R396). -/
def written (s : State) : Except Fault State → HostReply × State
  | .ok t => (.ok, t)
  | .error k => (.failed k, s)

/-- The machine created anew (R410, D48); the environment, which is not the block's, goes on
(log 14). -/
def hostReset (s : State) : State := { State.reset with env := s.env }

/-- `test(id)` on a device (spec/44_device_io.md R292, R300). -/
def hostTest (id : Int) (s : State) : HostReply × State :=
  match hostNat 255 id with
  | .error k => (.failed k, s)
  | .ok d =>
    match ensure (BitVec.ofNat 8 d) s with
    | (.ok, t) => (.flag true, t)
    | (.fail, t) => (.flag false, t)

/-- The end of a host `read` on device `d`, by what the device read came to: the byte, and the device
bound; the failure, which leaves the bound bits as they were before the operation (R396, D45; log 15);
or, without an answer, the whole machine held by the operation, which binds the device only where it
succeeds (R293, R300, R395). -/
def finishHostRead (d : DeviceId) (before : BitVec 256) : ReadResult × State → HostReply × State
  | (.byte c, t) => (.byte c, { t.bind d with held := none })
  | (.fault k, t) => (.failed k, { t with bound := before, held := none })
  | (.pending, t) => (.pending, { t with bound := before, held := some (.host d) })

/-- A held host `read` asks its device again. -/
def hostResumeRead (d : DeviceId) (s : State) : HostReply × State :=
  finishHostRead d s.bound (readBound d s)

/-- `read(id)` on a device (R293, R300). -/
def hostRead (id : Int) (s : State) : HostReply × State :=
  match hostNat 255 id with
  | .error k => (.failed k, s)
  | .ok d => finishHostRead (BitVec.ofNat 8 d) s.bound (devRead (BitVec.ofNat 8 d) s)

/-- `write(id, byte)` on a device (R294, R300); a failure leaves the bound bits as they were (R396, D45;
log 15). -/
def hostWrite (id v : Int) (s : State) : HostReply × State :=
  match hostNat 255 id, hostNat 0xFF v with
  | .ok d, .ok b =>
    match devWrite (BitVec.ofNat 8 d) (BitVec.ofNat 8 b) s with
    | (none, t) => (.ok, t)
    | (some k, t) => (.failed k, { t with bound := s.bound })
  | .error k, _ => (.failed k, s)
  | .ok _, .error k => (.failed k, s)

/-- `step`: returns ok, or the fault kind, the stored one while halted (R153, R380); a held RD has
not returned (R299). The last two answers no step gives. -/
def hostStep (s : State) : HostReply × State :=
  match Machine.step s with
  | .next t =>
    match t.held, t.fault with
    | some _, _ => (.pending, t)
    | none, some k => (.failed k, t)
    | none, none => (.ok, t)
  | .fault k => (.failed k, s)
  | .refused _ => (.pending, s)

/-- `load(module)` (spec/70_reset_and_hazards.md R447, R448). -/
def hostLoad (text : List Byte) (s : State) : HostReply × State :=
  let t := loadModule text s
  match t.fault with
  | none => (.ok, t)
  | some k => (.failed k, t)

/-- An operation with no device read in progress. -/
def hostServe (op : HostOp) (s : State) : HostReply × State :=
  match op with
  | .step => hostStep s
  | .reset => (.ok, hostReset s)
  | .load text => hostLoad text s
  | .halted => (.flag s.halted, s)
  | .get id => (answered .word ((hostReg id).map s.get), s)
  | .set id v => written s (hostSet id v s)
  | .readByte addr => (answered .byte (hostReadByte addr s), s)
  | .writeByte addr v => written s (hostWriteByte addr v s)
  | .readWord addr => (answered .word (hostReadWord addr s), s)
  | .writeWord addr v => written s (hostWriteWord addr v s)
  | .dump low high => (answered .bytes (hostDump low high s), s)
  | .test id => hostTest id s
  | .read id => hostRead id s
  | .write id v => hostWrite id v s

/-- One operation of the host. While an RD step or a host read is held, no operation but that one
goes on, and every other waits (R299, R395, D32; log 15). -/
def hostPerform (op : HostOp) (s : State) : HostReply × State :=
  match s.held with
  | none => hostServe op s
  | some (.step _) => if op = .step then hostStep s else (.pending, s)
  | some (.host d) => if op = .read d.toNat then hostResumeRead d s else (.pending, s)

end Sys2Proof.Machine
end

