-- ==== Sys2Proof/Safety.lean ====
section
/-! DEFINITION. The terms the statements use: the invariant of the state, the end of a run
(spec/70_reset_and_hazards.md R460), what an instruction may write (spec/10_state.md R42), and what
a device has received. -/

namespace Sys2Proof.Machine

/-! The invariant -/

/-- The device a read in progress waits for. -/
def Wait.device : Wait → DeviceId
  | .step d => d
  | .host d => d

/-- The read in progress is the host's. -/
def Wait.byHost : Wait → Bool
  | .step _ => false
  | .host _ => true

/-- What holds of the block's state at reset and after every step and host operation: memory in its
canonical form; SW a legal code (R35, R50); `fault` set exactly while `halted` is (R55, R56); a read
in progress that is an RD is of a bound device and only while not halted (R299); devices 0, 1, 2
bound (R57). -/
abbrev State.inv (s : State) : Prop :=
  s.mem.wf ∧ legalCode s.SW = true ∧ s.halted = s.fault.isSome ∧
    (∀ w ∈ s.held, w.byHost = true ∨ (s.isBound w.device = true ∧ s.halted = false)) ∧
    s.isBound 0 = true ∧ s.isBound 1 = true ∧ s.isBound 2 = true

/-! The end of a run (R460) -/

/-- Ended by a fault (R460 (1)). -/
def State.faulted (s : State) : Bool := s.halted

/-- Waiting for a device (R460 (3)). -/
def State.waiting (s : State) : Bool :=
  match s.held with
  | some (.step _) => !s.halted
  | some (.host _) => false
  | none => false

/-- The operand of J, JEQ, JGT or JLT when its condition holds under a status word. -/
def takenJump (sw : Word) : Instr → Option MemOperand
  | .j m => some m
  | .jeq m => if sw = ccEQ then some m else none
  | .jgt m => if sw = ccGT then some m else none
  | .jlt m => if sw = ccLT then some m else none
  | _ => none

/-- Idle at a self-jump: the instruction at PC is a taken J, JEQ, JGT or JLT whose effective address
is its own address (R460 (2)). A jump through an indirect word is not recognised (log 13). -/
def State.idle (s : State) : Bool :=
  !s.halted && s.held.isNone &&
    match fetchInstr s with
    | .fault _ _ => false
    | .bytes bs t =>
      match decode bs with
      | .error _ => false
      | .ok (i, _) =>
        match takenJump s.SW i with
        | none => false
        | some m =>
          modeOfOperand m != some .indirect &&
            match effectiveAddress t m with
            | .ok ea => ea == s.PC
            | .error _ => false

/-! What an instruction may write -/

/-- The register a Format-2 field names, if it names one. -/
def fieldRegs : RegField → List Reg
  | .reg r => [r]
  | .invalid _ => []

/-- The registers an instruction may write, its fetches' advance of PC apart (spec/10_state.md R42). -/
def destinations : Instr → List Reg
  | .float => []
  | .fix => []
  | .norm => []
  | .sio => []
  | .hio => []
  | .tio => []
  | .addr _ r2 => fieldRegs r2
  | .subr _ r2 => fieldRegs r2
  | .mulr _ r2 => fieldRegs r2
  | .divr _ r2 => fieldRegs r2
  | .compr _ _ => [.SW]
  | .shiftl r1 _ => fieldRegs r1
  | .shiftr r1 _ => fieldRegs r1
  | .rmo _ r2 => fieldRegs r2
  | .svc _ _ => []
  | .clear r1 _ => fieldRegs r1
  | .tixr _ _ => [.X, .SW]
  | .lda _ => [.A]
  | .ldx _ => [.X]
  | .ldl _ => [.L]
  | .sta _ => []
  | .stx _ => []
  | .stl _ => []
  | .add _ => [.A]
  | .sub _ => [.A]
  | .mul _ => [.A]
  | .div _ => [.A]
  | .comp _ => [.SW]
  | .tix _ => [.X, .SW]
  | .jeq _ => [.PC]
  | .jgt _ => [.PC]
  | .jlt _ => [.PC]
  | .j _ => [.PC]
  | .and _ => [.A]
  | .or _ => [.A]
  | .jsub _ => [.L, .PC]
  | .rsub _ => [.PC]
  | .ldch _ => [.A]
  | .stch _ => []
  | .addf _ => []
  | .subf _ => []
  | .mulf _ => []
  | .divf _ => []
  | .ldb _ => [.B]
  | .lds _ => [.S]
  | .ldf _ => [.F]
  | .ldt _ => [.T]
  | .stb _ => []
  | .sts _ => []
  | .stf _ => []
  | .stt _ => []
  | .compf _ => []
  | .lps _ => []
  | .sti _ => []
  | .rd _ => [.A]
  | .wd _ => []
  | .td _ => [.SW]
  | .stsw _ => []
  | .ssk _ => []

/-- The operand a store instruction stores to, and how many bytes (spec/20_memory.md R91). -/
def storeTarget : Instr → Option (MemOperand × Nat)
  | .float => none
  | .fix => none
  | .norm => none
  | .sio => none
  | .hio => none
  | .tio => none
  | .addr _ _ => none
  | .subr _ _ => none
  | .mulr _ _ => none
  | .divr _ _ => none
  | .compr _ _ => none
  | .shiftl _ _ => none
  | .shiftr _ _ => none
  | .rmo _ _ => none
  | .svc _ _ => none
  | .clear _ _ => none
  | .tixr _ _ => none
  | .lda _ => none
  | .ldx _ => none
  | .ldl _ => none
  | .sta m => some (m, 3)
  | .stx m => some (m, 3)
  | .stl m => some (m, 3)
  | .add _ => none
  | .sub _ => none
  | .mul _ => none
  | .div _ => none
  | .comp _ => none
  | .tix _ => none
  | .jeq _ => none
  | .jgt _ => none
  | .jlt _ => none
  | .j _ => none
  | .and _ => none
  | .or _ => none
  | .jsub _ => none
  | .rsub _ => none
  | .ldch _ => none
  | .stch m => some (m, 1)
  | .addf _ => none
  | .subf _ => none
  | .mulf _ => none
  | .divf _ => none
  | .ldb _ => none
  | .lds _ => none
  | .ldf _ => none
  | .ldt _ => none
  | .stb m => some (m, 3)
  | .sts m => some (m, 3)
  | .stf m => some (m, 3)
  | .stt m => some (m, 3)
  | .compf _ => none
  | .lps _ => none
  | .sti _ => none
  | .rd _ => none
  | .wd _ => none
  | .td _ => none
  | .stsw m => some (m, 3)
  | .ssk _ => none

/-- The instructions that reach the device space (spec/20_memory.md R81). -/
def usesDevice : Instr → Bool
  | .float => false
  | .fix => false
  | .norm => false
  | .sio => false
  | .hio => false
  | .tio => false
  | .addr _ _ => false
  | .subr _ _ => false
  | .mulr _ _ => false
  | .divr _ _ => false
  | .compr _ _ => false
  | .shiftl _ _ => false
  | .shiftr _ _ => false
  | .rmo _ _ => false
  | .svc _ _ => false
  | .clear _ _ => false
  | .tixr _ _ => false
  | .lda _ => false
  | .ldx _ => false
  | .ldl _ => false
  | .sta _ => false
  | .stx _ => false
  | .stl _ => false
  | .add _ => false
  | .sub _ => false
  | .mul _ => false
  | .div _ => false
  | .comp _ => false
  | .tix _ => false
  | .jeq _ => false
  | .jgt _ => false
  | .jlt _ => false
  | .j _ => false
  | .and _ => false
  | .or _ => false
  | .jsub _ => false
  | .rsub _ => false
  | .ldch _ => false
  | .stch _ => false
  | .addf _ => false
  | .subf _ => false
  | .mulf _ => false
  | .divf _ => false
  | .ldb _ => false
  | .lds _ => false
  | .ldf _ => false
  | .ldt _ => false
  | .stb _ => false
  | .sts _ => false
  | .stf _ => false
  | .stt _ => false
  | .compf _ => false
  | .lps _ => false
  | .sti _ => false
  | .rd _ => true
  | .wd _ => true
  | .td _ => true
  | .stsw _ => false
  | .ssk _ => false

/-! Memory and devices as the statements speak of them -/

/-- `n` bytes of memory from an address on. -/
def bytesAt (m : Memory) (addr n : Nat) : List Byte :=
  (List.range n).map (fun k => m.read (addr + k))

/-- The bytes a device has accepted, oldest first. -/
def sentTo (d : DeviceId) : List DevEvent → List Byte
  | [] => []
  | .put e c .ok :: rest => if e = d then sentTo d rest ++ [c] else sentTo d rest
  | .put _ _ .fail :: rest => sentTo d rest
  | .opened _ _ :: rest => sentTo d rest
  | .got _ _ :: rest => sentTo d rest

/-! Modules, written out (spec/70_reset_and_hazards.md R440 to R445) -/

/-- A hex character: 0-9 or A-F (R440). -/
def isHexChar (c : Byte) : Bool :=
  (0x30 ≤ c.toNat && c.toNat ≤ 0x39) || (0x41 ≤ c.toNat && c.toNat ≤ 0x46)

/-- The character of a hex digit. -/
def hexChar (d : Nat) : Byte :=
  if d < 10 then BitVec.ofNat 8 (0x30 + d) else BitVec.ofNat 8 (0x41 + (d - 10))

/-- A number as uppercase hex digits, zero-padded to a width. -/
def hexChars : Nat → Nat → List Byte
  | 0, _ => []
  | width + 1, n => hexChars width (n / 16) ++ [hexChar (n % 16)]

/-- A line between the H and the E record. -/
inductive ModuleItem where
  /-- T (R442): the characters after the last byte are ignored -/
  | text (addr : Nat) (bytes : List Byte) (comment : List Byte)
  /-- M (R443) -/
  | modification (offset length : Nat) (comment : List Byte)
  /-- D (R444) -/
  | define (comment : List Byte)
  /-- R (R444) -/
  | refer (comment : List Byte)
deriving DecidableEq, Repr

/-- The characters of a line. -/
def ModuleItem.line : ModuleItem → List Byte
  | .text addr bytes comment =>
    [0x54] ++ hexChars 6 addr ++ hexChars 2 bytes.length ++
      bytes.flatMap (fun b => hexChars 2 b.toNat) ++ comment
  | .modification offset length comment =>
    [0x4D] ++ hexChars 6 offset ++ hexChars 2 length ++ comment
  | .define comment => [0x44] ++ comment
  | .refer comment => [0x52] ++ comment

/-- The numbers of a line fit their columns, the bytes of a T record have addresses of memory, and
no character is a newline. -/
def ModuleItem.fits : ModuleItem → Bool
  | .text addr bytes comment =>
    addr < 16 ^ 6 && bytes.length < 256 && (bytes.isEmpty || addr + bytes.length - 1 ≤ 0x100000) &&
      !comment.contains 0x0A
  | .modification offset length comment =>
    offset < 16 ^ 6 && length < 256 && !comment.contains 0x0A
  | .define comment => !comment.contains 0x0A
  | .refer comment => !comment.contains 0x0A

/-- What a line loads. -/
def ModuleItem.loads : ModuleItem → Option (Nat × List Byte)
  | .text addr bytes _ => some (addr, bytes)
  | .modification _ _ _ => none
  | .define _ => none
  | .refer _ => none

/-- A module: the H record, some lines and the E record, each line ended by a newline; what follows
is ignored. -/
def moduleText (name : List Byte) (start size : Nat) (items : List ModuleItem) (entry : Nat)
    (later : List Byte) : List Byte :=
  [0x48] ++ name ++ hexChars 6 start ++ hexChars 6 size ++ [0x0A] ++
    items.flatMap (fun item => item.line ++ [0x0A]) ++
    [0x45] ++ hexChars 6 entry ++ [0x0A] ++ later

/-- The byte values spec/30_encoding.md R121 lists as selecting no instruction. -/
def unknownOpcodeByte (b : Byte) : Bool :=
  let n := b.toNat
  (0x8C ≤ n && n ≤ 0x8F)
    || (0x90 ≤ n && n ≤ 0xBB &&
      !([0x90, 0x94, 0x98, 0x9C, 0xA0, 0xA4, 0xA8, 0xAC, 0xB0, 0xB4, 0xB8].contains n))
    || (0xBC ≤ n && n ≤ 0xBF)
    || (0xC1 ≤ n && n ≤ 0xC3) || (0xC5 ≤ n && n ≤ 0xC7) || (0xC9 ≤ n && n ≤ 0xCF)
    || (0xE4 ≤ n && n ≤ 0xE7)
    || (0xF1 ≤ n && n ≤ 0xF3) || (0xF5 ≤ n && n ≤ 0xF7) || (0xF9 ≤ n && n ≤ 0xFF)

end Sys2Proof.Machine
end

