-- ==== Sys2Proof/Certificates/Slice0/Obligations.lean ====
section
/-! DEFINITION. The statements for the provers. A statement about the device environment holds for
every answer it may give (log 3). -/

open Sys2Proof Sys2Proof.Machine

/-! Encoding -/

/-- The decoder reads every well-formed instruction back from its encoding, with every operand at
every value, and leaves the bytes after it (spec/30_encoding.md R110 to R116). -/
def Obligations.DecodeReadsEncodedInstruction : Prop :=
  ∀ (i : Instr) (rest : List Byte), i.wellFormed = true →
    decode (encode i ++ rest) = .ok (i, rest)

/-- What is decoded is well formed, and the bytes it was decoded from are its encoding: no two byte
strings stand for one instruction. -/
def Obligations.DecodedBytesAreTheEncoding : Prop :=
  ∀ (bs rest : List Byte) (i : Instr), decode bs = .ok (i, rest) →
    i.wellFormed = true ∧ bs = encode i ++ rest

/-- The 71 byte values that R121 lists select no instruction; every other one does. -/
def Obligations.UnknownOpcodeBytesAreTheListedOnes : Prop :=
  (∀ (b0 b1 : Byte) (rest : List Byte), unknownOpcodeByte b0 = true →
    decode (b0 :: b1 :: rest) = .error .unknownOpcode) ∧
  (∀ (b0 b1 b2 b3 : Byte) (rest : List Byte), unknownOpcodeByte b0 = false →
    ∃ i r, decode (b0 :: b1 :: b2 :: b3 :: rest) = .ok (i, r)) ∧
  ((List.range 256).filter (fun n => unknownOpcodeByte (BitVec.ofNat 8 n))).length = 71

/-- The first two bytes decide the length of an instruction (R117), which is its format's. -/
def Obligations.FirstTwoBytesDecideTheLength : Prop :=
  ∀ (b0 b1 : Byte) (rest r : List Byte) (i : Instr), decode (b0 :: b1 :: rest) = .ok (i, r) →
    ∃ n, instrLength b0 b1 = some n ∧ n + r.length = rest.length + 2 ∧
      n = match i.fields with
        | .format1 => 1
        | .format2 _ _ => 2
        | .format34 (.sic _ _) => 3
        | .format34 (.f3 _ _ _ _ _) => 3
        | .format34 (.f4 _ _ _ _ _) => 4

/-- Words of the spec's own examples decode to the instructions it names. -/
def Obligations.ExampleWordsDecode : Prop :=
  decode [0x19, 0x00, 0x03] = .ok (.add (.f3 .immediate false false false 3), []) ∧
  decode [0x3F, 0x2F, 0xFD] = .ok (.j (.f3 .simple false false true 0xFFD), []) ∧
  decode [0x4B, 0x10, 0x00, 0x10] = .ok (.jsub (.f4 .simple false false false 0x10), []) ∧
  decode [0x00, 0x92, 0x34] = .ok (.lda (.sic true 0x1234), []) ∧
  decode [0x02, 0x40, 0x03] = .ok (.lda (.f3 .indirect false true false 3), []) ∧
  decode [0x57, 0xAF, 0xF2] = .ok (.stch (.f3 .simple true false true 0xFF2), []) ∧
  decode [0xD9, 0x00, 0x01] = .ok (.rd (.f3 .immediate false false false 1), []) ∧
  decode [0x9C, 0x40] = .ok (.divr (.reg .S) (.reg .A), []) ∧
  decode [0xA4, 0x03] = .ok (.shiftl (.reg .A) 3, []) ∧
  decode [0xAC, 0x28] = .ok (.rmo (.reg .L) (.reg .PC), []) ∧
  decode [0xC4] = .ok (.fix, [])

/-! The step -/

/-- A step runs the instruction its bytes at PC decode to, with PC moved past it (spec/10_state.md
R46, spec/40_execution_cycle.md R152). -/
def Obligations.StepRunsTheDecodedInstruction : Prop :=
  ∀ (s : State) (i : Instr) (n : Nat), s.halted = false → s.held = none →
    s.PC.toNat + n ≤ 0x100001 → decode (bytesAt s.mem s.PC.toNat n) = .ok (i, []) →
    step s = exec i { s with PC := s.PC + BitVec.ofNat 24 n }

/-- Every step answers a next state: none stops with a fault of the model, none is refused. This is
the model's form: raising a fault is a next state (log 1, read from R380), and so is an RD that waits
for its device, although R299 says that its step has not ended (log 2, DESIGN CHOICE). -/
def Obligations.EveryStepAnswersNext : Prop :=
  ∀ s : State, ∃ t, step s = .next t

/-- While halted a step changes nothing and reports the stored fault, and only a reset or a
successful load clears the latch (R153). -/
def Obligations.HaltedMachineStaysHalted : Prop :=
  (∀ s : State, s.halted = true → step s = .next s) ∧
  (∀ (s : State) (k : Fault), s.halted = true → s.fault = some k → s.held = none →
    hostPerform .step s = (.failed k, s)) ∧
  (∀ (op : HostOp) (s : State), s.halted = true → (hostPerform op s).2.halted = false →
    op = .reset ∨ ∃ text image, op = .load text ∧ parseModule text = some image)

/-- The fetches of an instruction read its bytes at rising addresses and PC never wraps; a fetch
beyond the memory raises `OutOfRange` before PC is advanced (spec/10_state.md R48). -/
def Obligations.FetchedPCNeverWraps : Prop :=
  (∀ (s t : State) (bs : List Byte), fetchInstr s = .bytes bs t →
    bs = bytesAt s.mem s.PC.toNat bs.length ∧ t = { s with PC := t.PC } ∧
    t.PC.toNat = s.PC.toNat + bs.length ∧ t.PC.toNat ≤ 0x100001) ∧
  (∀ (s t : State) (k : Fault), fetchInstr s = .fault k t →
    k = .outOfRange ∧ t = { s with PC := t.PC } ∧ 0x100000 < t.PC.toNat ∧
    (t.PC = s.PC ∨ t.PC.toNat = 0x100001)) ∧
  (∀ s : State, s.halted = false → s.held = none → 0x100000 < s.PC.toNat →
    step s = .next { s with halted := true, fault := some .outOfRange })

/-- An unknown opcode is raised after two fetches; if the second has no byte, that fault is raised
instead (R154). -/
def Obligations.UnknownOpcodeConsumesTwoBytes : Prop :=
  ∀ s : State, s.halted = false → s.held = none →
    unknownOpcodeByte (s.mem.read s.PC.toNat) = true →
    (s.PC.toNat + 1 ≤ 0x100000 →
      step s = .next { s with PC := s.PC + 2, halted := true, fault := some .unknownOpcode }) ∧
    (s.PC.toNat = 0x100000 →
      step s = .next { s with PC := s.PC + 1, halted := true, fault := some .outOfRange })

/-- Faults are precise (spec/60_exceptions.md R382): after a faulting step the block is as before
but for the PC advance over at most four fetched bytes, `halted`, `fault` and bound bits that a
successful open set; a read in progress has ended; no device has received a byte. A fault of a fetch
is the fault raised; it is no `LoadError`. The environment's field is the model's own (log 3); that a
fault ends a held read, whose step fetches nothing more, is the model's form of a held RD (log 2). -/
def Obligations.FaultsArePrecise : Prop :=
  ∀ s t : State, s.halted = false → step s = .next t → t.halted = true →
    ∃ (n : Nat) (k : Fault), n ≤ 4 ∧ (s.held ≠ none → n = 0) ∧ k ≠ .loadError ∧
      (∀ bs u, s.held = none → fetchInstr s = .bytes bs u → n = bs.length) ∧
      (∀ k' u, s.held = none → fetchInstr s = .fault k' u →
        k = k' ∧ u.PC = s.PC + BitVec.ofNat 24 n) ∧
      t = { s with PC := s.PC + BitVec.ofNat 24 n, halted := true, fault := some k, held := none,
                   bound := t.bound, env := t.env } ∧
      (∀ d, s.isBound d = true → t.isBound d = true) ∧
      (∀ d, s.isBound d = false → t.isBound d = true →
        ∃ e, t.env.log = e :: .opened d .ok :: s.env.log) ∧
      (∀ d, sentTo d t.env.log = sentTo d s.env.log)

/-- Every step keeps the invariant of the state: memory in its canonical form, SW a legal code,
`fault` set exactly while `halted` is, an RD in progress of a bound device and only while not halted,
devices 0 to 2 bound. The memory's form (log 5) and the field of a read in progress (log 2)
are the model's. -/
def Obligations.StepKeepsTheInvariant : Prop :=
  ∀ s t : State, s.inv → step s = .next t → t.inv

/-- The state after reset has the invariant. -/
def Obligations.ResetHasTheInvariant : Prop := State.reset.inv

/-- Every operation of the host keeps the invariant. -/
def Obligations.HostOperationsKeepTheInvariant : Prop :=
  ∀ (op : HostOp) (s : State), s.inv → (hostPerform op s).2.inv

/-- Every piece of the block's state after reset, and that a host reset gives just that state
(spec/70_reset_and_hazards.md R410, spec/10_state.md R60); of the model's own field `env` nothing is
said. That no read is in progress at reset is the model's choice (log 2). -/
def Obligations.ResetValues : Prop :=
  (∀ r : Reg, State.reset.get r = 0) ∧ (∀ a : Nat, State.reset.mem.read a = 0) ∧
  (∀ d : DeviceId, State.reset.isBound d = decide (d.toNat ≤ 2)) ∧
  State.reset.halted = false ∧ State.reset.fault = none ∧ State.reset.held = none ∧
  (∀ s : State, s.held = none →
    ∃ e : DevEnv, hostPerform .reset s = (.ok, { State.reset with env := e }))

/-- A bound bit, once set, stays set through every step and every host operation but the creation of
a new machine (spec/44_device_io.md R291). -/
def Obligations.BoundBitsNeverClear : Prop :=
  (∀ (s t : State) (d : DeviceId), step s = .next t → s.isBound d = true → t.isBound d = true) ∧
  (∀ (op : HostOp) (s : State) (d : DeviceId), op ≠ .reset → s.isBound d = true →
    (hostPerform op s).2.isBound d = true)

/-- From reset with no load, memory of zeros runs as `LDA 0` every three bytes, up to the fetch
beyond the memory (R412). -/
def Obligations.ZeroMemoryRunsToTheTop : Prop :=
  (∀ k : Nat, k ≤ 349525 →
    Host.Core.run core k State.reset = .next { State.reset with PC := BitVec.ofNat 24 (3 * k) }) ∧
  Host.Core.run core 349526 State.reset =
    .next { State.reset with PC := 0x100001, halted := true, fault := some .outOfRange }

/-- At a self-jump a step leaves every piece of state unchanged (R460 (2)). That a jump through an
indirect word is not recognised is the model's reading (log 13). -/
def Obligations.IdleSelfJumpChangesNothing : Prop :=
  ∀ s : State, s.idle = true → step s = .next s

/-! Target address and operands -/

/-- The target address for every combination of flags (spec/40_execution_cycle.md R165), with the
range check of R164. -/
def Obligations.TargetAddressByFlags : Prop :=
  ∀ (s : State) (mode : Mode) (x b p : Bool) (a15 : BitVec 15) (disp : BitVec 12)
    (a20 : BitVec 20),
  let ranged : Int → Except Fault Word := fun v =>
    if 0 ≤ v ∧ v ≤ 0xFFFFFF then .ok (BitVec.ofInt 24 v) else .error .outOfRange
  let sext : Int := if disp.toNat < 2048 then disp.toNat else disp.toNat - 4096
  let X : Int := s.X.toNat
  let B : Int := s.B.toNat
  let PC : Int := s.PC.toNat
  targetAddress s (.sic false a15) = ranged a15.toNat ∧
  targetAddress s (.sic true a15) = ranged (a15.toNat + X) ∧
  targetAddress s (.f3 mode false false false disp) = ranged disp.toNat ∧
  targetAddress s (.f3 mode false false true disp) = ranged (PC + sext) ∧
  targetAddress s (.f3 mode false true false disp) = ranged (B + disp.toNat) ∧
  targetAddress s (.f3 mode x true true disp) = .error .badAddressingMode ∧
  targetAddress s (.f4 mode false false false a20) = ranged a20.toNat ∧
  targetAddress s (.f4 mode false false true a20) = ranged (PC + a20.toNat) ∧
  targetAddress s (.f4 mode false true false a20) = ranged (B + a20.toNat) ∧
  targetAddress s (.f4 mode x true true a20) = .error .badAddressingMode ∧
  targetAddress s (.f3 .simple true false false disp) = ranged (disp.toNat + X) ∧
  targetAddress s (.f3 .simple true false true disp) = ranged (PC + sext + X) ∧
  targetAddress s (.f3 .simple true true false disp) = ranged (B + disp.toNat + X) ∧
  targetAddress s (.f4 .simple true false false a20) = ranged (a20.toNat + X) ∧
  targetAddress s (.f4 .simple true false true a20) = ranged (PC + a20.toNat + X) ∧
  targetAddress s (.f4 .simple true true false a20) = ranged (B + a20.toNat + X) ∧
  (mode ≠ .simple → (b && p) = false →
    targetAddress s (.f3 mode true b p disp) = .error .invalidAddressing ∧
    targetAddress s (.f4 mode true b p a20) = .error .invalidAddressing)

/-- The word operand, effective address and byte operand by mode (R170, R171, R172), with exactly one
level of indirection (R174). -/
def Obligations.OperandByMode : Prop :=
  ∀ (s : State) (m : MemOperand),
  (∀ k, targetAddress s m = .error k →
    operandWord s m = .error k ∧ effectiveAddress s m = .error k ∧ operandByte s m = .error k) ∧
  (∀ ta, targetAddress s m = .ok ta →
    (modeOfOperand m = some .immediate →
      operandWord s m = .ok ta ∧ effectiveAddress s m = .ok ta ∧
      ∃ c, operandByte s m = .ok c ∧ c.toNat = ta.toNat % 256) ∧
    (modeOfOperand m = some .indirect →
      (∀ p, readWord s.mem ta.toNat = .ok p →
        operandWord s m = readWord s.mem p.toNat ∧ effectiveAddress s m = .ok p ∧
        operandByte s m = readByte s.mem p.toNat) ∧
      (∀ k, readWord s.mem ta.toNat = .error k →
        operandWord s m = .error k ∧ effectiveAddress s m = .error k ∧
        operandByte s m = .error k)) ∧
    (modeOfOperand m = some .simple ∨ modeOfOperand m = none →
      operandWord s m = readWord s.mem ta.toNat ∧ effectiveAddress s m = .ok ta ∧
      operandByte s m = readByte s.mem ta.toNat))

/-! Memory -/

/-- `readByte` reads the byte at an address up to 0x100000; `readWord` is big-endian and needs all three
bytes. At the host's port an address that is negative or too high fails `OutOfRange`; a read changes
nothing (spec/20_memory.md R82, R85). -/
def Obligations.ReadWordIsBigEndian : Prop :=
  ∀ (m : Memory) (addr : Nat),
  (addr + 2 ≤ 0x100000 → ∃ w, readWord m addr = .ok w ∧
    w.toNat = (m.read addr).toNat * 2 ^ 16 + (m.read (addr + 1)).toNat * 2 ^ 8 +
      (m.read (addr + 2)).toNat) ∧
  (0x100000 < addr + 2 → readWord m addr = .error .outOfRange) ∧
  (addr ≤ 0x100000 → readByte m addr = .ok (m.read addr)) ∧
  (0x100000 < addr → readByte m addr = .error .outOfRange) ∧
  (∀ (s : State) (a : Int), s.held = none →
    (0 ≤ a ∧ a ≤ 0x100000 →
      hostPerform (.readByte a) s = (.byte (s.mem.read a.toNat), s)) ∧
    (¬ (0 ≤ a ∧ a ≤ 0x100000) → hostPerform (.readByte a) s = (.failed .outOfRange, s)) ∧
    (0 ≤ a ∧ a + 2 ≤ 0x100000 → ∃ w, readWord s.mem a.toNat = .ok w ∧
      hostPerform (.readWord a) s = (.word w, s)) ∧
    (¬ (0 ≤ a ∧ a + 2 ≤ 0x100000) → hostPerform (.readWord a) s = (.failed .outOfRange, s)))

/-- `writeWord` validates first and then writes three bytes, the most significant first; every other
byte reads as before, and reading the word gives it back (R86). -/
def Obligations.WriteWordValidatesThenWrites : Prop :=
  ∀ (s : State) (addr v : Int), s.held = none → s.mem.wf →
  (0 ≤ addr ∧ addr + 2 ≤ 0x100000 ∧ 0 ≤ v ∧ v ≤ 0xFFFFFF →
    ∃ m' : Memory, hostPerform (.writeWord addr v) s = (.ok, { s with mem := m' }) ∧
      (m'.read addr.toNat).toNat = v.toNat / 65536 ∧
      (m'.read (addr.toNat + 1)).toNat = v.toNat / 256 % 256 ∧
      (m'.read (addr.toNat + 2)).toNat = v.toNat % 256 ∧
      (∀ a, a < addr.toNat ∨ addr.toNat + 2 < a → m'.read a = s.mem.read a) ∧
      hostPerform (.readWord addr) { s with mem := m' } =
        (.word (BitVec.ofInt 24 v), { s with mem := m' })) ∧
  (¬ (0 ≤ addr ∧ addr + 2 ≤ 0x100000 ∧ 0 ≤ v ∧ v ≤ 0xFFFFFF) →
    hostPerform (.writeWord addr v) s = (.failed .outOfRange, s))

/-- `writeByte` sets one byte, or fails and changes nothing (R84). -/
def Obligations.WriteByteSetsOneByte : Prop :=
  ∀ (s : State) (addr v : Int), s.held = none → s.mem.wf →
  (0 ≤ addr ∧ addr ≤ 0x100000 ∧ 0 ≤ v ∧ v ≤ 255 →
    ∃ m' : Memory, hostPerform (.writeByte addr v) s = (.ok, { s with mem := m' }) ∧
      (m'.read addr.toNat).toNat = v.toNat ∧
      (∀ a, a ≠ addr.toNat → m'.read a = s.mem.read a)) ∧
  (¬ (0 ≤ addr ∧ addr ≤ 0x100000 ∧ 0 ≤ v ∧ v ≤ 255) →
    hostPerform (.writeByte addr v) s = (.failed .outOfRange, s))

/-- An instruction changes no byte of memory but those a store stores to, at the address its operand
gives: three bytes, or one for STCH. -/
def Obligations.MemoryChangesOnlyAtStores : Prop :=
  ∀ (i : Instr) (s t : State), s.mem.wf → exec i s = .next t →
  (storeTarget i = none → t.mem = s.mem) ∧
  (∀ (m : MemOperand) (n : Nat) (ea : Word), storeTarget i = some (m, n) →
    effectiveAddress s m = .ok ea →
    ∀ a, a < ea.toNat ∨ ea.toNat + n ≤ a → t.mem.read a = s.mem.read a) ∧
  (∀ (m : MemOperand) (n : Nat) (k : Fault), storeTarget i = some (m, n) →
    effectiveAddress s m = .error k → t.mem = s.mem)

/-! Registers -/

/-- An instruction changes no register but those it may write: the table of spec/10_state.md R42,
the fetches' advance of PC apart, which is no part of `exec`. -/
def Obligations.RegistersChangeOnlyAsListed : Prop :=
  ∀ (i : Instr) (s t : State) (r : Reg), exec i s = .next t → r ∉ destinations i →
    t.get r = s.get r

/-- Only TD, RD and WD reach the device space (spec/20_memory.md R81): every other instruction leaves
the bound bits, a read in progress and the environment alone. -/
def Obligations.OnlyDeviceInstructionsReachDevices : Prop :=
  ∀ (i : Instr) (s t : State), usesDevice i = false → exec i s = .next t →
    t.bound = s.bound ∧ t.held = s.held ∧ t.env = s.env

/-- The host's `set` checks the id, then the value, then SW's codes, and writes one register
(R40). -/
def Obligations.SetChecksIdAndValue : Prop :=
  ∀ (s : State) (id v : Int), s.held = none →
  (∀ r : Reg, id = r.id.toNat →
    (0 ≤ v ∧ v ≤ 0xFFFFFF ∧ (r = .SW → v = 0 ∨ v = 0x40 ∨ v = 0x80) →
      ∃ t, hostPerform (.set id v) s = (.ok, t) ∧ (t.get r).toNat = v.toNat ∧
        hostPerform (.get id) t = (.word (t.get r), t) ∧
        (∀ q, q ≠ r → t.get q = s.get q) ∧ t.mem = s.mem ∧ t.bound = s.bound ∧
        t.halted = s.halted ∧ t.fault = s.fault ∧ t.held = s.held ∧ t.env = s.env) ∧
    (¬ (0 ≤ v ∧ v ≤ 0xFFFFFF ∧ (r = .SW → v = 0 ∨ v = 0x40 ∨ v = 0x80)) →
      hostPerform (.set id v) s = (.failed .outOfRange, s))) ∧
  ((∀ r : Reg, id ≠ r.id.toNat) →
    hostPerform (.set id v) s = (.failed .invalidRegister, s))

/-- A register field, or a host's id, that names no register raises `InvalidRegister`
(spec/60_exceptions.md R372). -/
def Obligations.InvalidRegisterIds : Prop :=
  (∀ (s : State) (id c : BitVec 4) (r : Reg) (f : RegField),
    ∀ i ∈ [Instr.addr (.invalid id) f, .subr (.invalid id) f, .mulr (.invalid id) f,
        .divr (.invalid id) f, .compr (.invalid id) f, .rmo (.invalid id) f,
        .addr (.reg r) (.invalid id), .subr (.reg r) (.invalid id), .mulr (.reg r) (.invalid id),
        .divr (.reg r) (.invalid id), .compr (.reg r) (.invalid id), .rmo (.reg r) (.invalid id),
        .shiftl (.invalid id) c, .shiftr (.invalid id) c, .clear (.invalid id) c,
        .tixr (.invalid id) c],
      exec i s = .next { s with halted := true, fault := some .invalidRegister }) ∧
  (∀ id : BitVec 4, (∃ k, RegField.ofBits id = .invalid k) ↔ id.toNat = 7 ∨ 10 ≤ id.toNat) ∧
  (∀ (s : State) (id v : Int), s.held = none →
    id ∉ ([0, 1, 2, 3, 4, 5, 6, 8, 9] : List Int) →
    hostPerform (.get id) s = (.failed .invalidRegister, s) ∧
    hostPerform (.set id v) s = (.failed .invalidRegister, s))

/-! Loads and stores -/

/-- The word loads move the word operand to their register and change nothing else; a fault of the
operand is raised (spec/43_load_store.md R253 to R259). -/
def Obligations.WordLoadsMoveTheOperand : Prop :=
  ∀ (m : MemOperand) (s : State),
  (∀ v, operandWord s m = .ok v →
    exec (.lda m) s = .next { s with A := v } ∧ exec (.ldx m) s = .next { s with X := v } ∧
    exec (.ldl m) s = .next { s with L := v } ∧ exec (.ldb m) s = .next { s with B := v } ∧
    exec (.lds m) s = .next { s with S := v } ∧ exec (.ldt m) s = .next { s with T := v } ∧
    exec (.ldf m) s = .next { s with F := v }) ∧
  (∀ k, operandWord s m = .error k →
    ∀ i ∈ [Instr.lda m, .ldx m, .ldl m, .ldb m, .lds m, .ldt m, .ldf m],
      exec i s = .next { s with halted := true, fault := some k })

/-- LDCH replaces A's low byte and keeps the others (R260). -/
def Obligations.LdchReplacesTheLowByte : Prop :=
  ∀ (m : MemOperand) (s : State),
  (∀ c, operandByte s m = .ok c → ∃ a : Word, exec (.ldch m) s = .next { s with A := a } ∧
    a.toNat = s.A.toNat / 256 * 256 + c.toNat) ∧
  (∀ k, operandByte s m = .error k →
    exec (.ldch m) s = .next { s with halted := true, fault := some k })

/-- The word stores write their register's word at the effective address and change nothing else
(R251, R261 to R268); a fault of the address, or an address whose word is not all in memory, is
raised and no byte is written. -/
def Obligations.WordStoresWriteTheRegister : Prop :=
  ∀ (m : MemOperand) (s : State), s.mem.wf →
    ∀ p ∈ [(Instr.sta m, s.A), (.stx m, s.X), (.stl m, s.L), (.stb m, s.B), (.sts m, s.S),
        (.stt m, s.T), (.stf m, s.F), (.stsw m, s.SW)],
    (∀ ea, effectiveAddress s m = .ok ea → ea.toNat ≤ 0x0FFFFE →
      ∃ m' : Memory, exec p.1 s = .next { s with mem := m' } ∧
        readWord m' ea.toNat = .ok p.2 ∧
        ∀ a, a < ea.toNat ∨ ea.toNat + 2 < a → m'.read a = s.mem.read a) ∧
    (∀ ea, effectiveAddress s m = .ok ea → 0x0FFFFE < ea.toNat →
      exec p.1 s = .next { s with halted := true, fault := some .outOfRange }) ∧
    (∀ k, effectiveAddress s m = .error k →
      exec p.1 s = .next { s with halted := true, fault := some k })

/-- STCH writes A's low byte at the effective address and changes nothing else (R269). -/
def Obligations.StchWritesOneByte : Prop :=
  ∀ (m : MemOperand) (s : State), s.mem.wf →
  (∀ ea, effectiveAddress s m = .ok ea → ea.toNat ≤ 0x100000 →
    ∃ m' : Memory, exec (.stch m) s = .next { s with mem := m' } ∧
      (m'.read ea.toNat).toNat = s.A.toNat % 256 ∧
      ∀ a, a ≠ ea.toNat → m'.read a = s.mem.read a) ∧
  (∀ ea, effectiveAddress s m = .ok ea → 0x100000 < ea.toNat →
    exec (.stch m) s = .next { s with halted := true, fault := some .outOfRange }) ∧
  (∀ k, effectiveAddress s m = .error k →
    exec (.stch m) s = .next { s with halted := true, fault := some k })

/-! Arithmetic, logic and compare -/

/-- ADD, SUB and MUL leave in A the exact result modulo 2^24 and change nothing else
(spec/41_arith_logic_compare.md R202, R203, R204). -/
def Obligations.AddSubMulWrap : Prop :=
  ∀ (m : MemOperand) (s : State),
  (∀ v, operandWord s m = .ok v →
    (∃ a : Word, exec (.add m) s = .next { s with A := a } ∧
      a.toNat = (s.A.toNat + v.toNat) % 2 ^ 24) ∧
    (∃ a : Word, exec (.sub m) s = .next { s with A := a } ∧
      (a.toNat : Int) = ((s.A.toNat : Int) - v.toNat) % 2 ^ 24) ∧
    (∃ a : Word, exec (.mul m) s = .next { s with A := a } ∧
      a.toNat = (s.A.toNat * v.toNat) % 2 ^ 24)) ∧
  (∀ k, operandWord s m = .error k → ∀ i ∈ [Instr.add m, .sub m, .mul m],
    exec i s = .next { s with halted := true, fault := some k })

/-- DIV divides the two's-complement readings, truncating toward zero; the one quotient that does not
fit wraps; a zero divisor raises `DivideByZero` with A unchanged (R205). -/
def Obligations.DivTruncatesTowardZero : Prop :=
  ∀ (m : MemOperand) (s : State),
  (∀ v, operandWord s m = .ok v →
    (v ≠ 0 → ∃ a : Word, exec (.div m) s = .next { s with A := a } ∧
      (s.A = 0x800000 ∧ v = 0xFFFFFF → a = 0x800000) ∧
      (¬ (s.A = 0x800000 ∧ v = 0xFFFFFF) → a.toInt = s.A.toInt.tdiv v.toInt)) ∧
    (v = 0 → exec (.div m) s = .next { s with halted := true, fault := some .divideByZero })) ∧
  (∀ k, operandWord s m = .error k →
    exec (.div m) s = .next { s with halted := true, fault := some k })

/-- AND and OR work bit by bit on A and change nothing else (R207, R208). -/
def Obligations.AndOrAreBitwise : Prop :=
  ∀ (m : MemOperand) (s : State),
  (∀ v, operandWord s m = .ok v →
    (∃ a : Word, exec (.and m) s = .next { s with A := a } ∧
      ∀ i, a.getLsbD i = (s.A.getLsbD i && v.getLsbD i)) ∧
    (∃ a : Word, exec (.or m) s = .next { s with A := a } ∧
      ∀ i, a.getLsbD i = (s.A.getLsbD i || v.getLsbD i))) ∧
  (∀ k, operandWord s m = .error k → ∀ i ∈ [Instr.and m, .or m],
    exec i s = .next { s with halted := true, fault := some k })

/-- COMP sets SW by the signed comparison of A with the operand; TIX increments X and compares the
new X; nothing else changes (R220, R222). -/
def Obligations.CompAndTixSetTheCode : Prop :=
  ∀ (m : MemOperand) (s : State),
  (∀ v, operandWord s m = .ok v →
    exec (.comp m) s = .next { s with
      SW := if s.A.toInt < v.toInt then 0x00 else if s.A.toInt = v.toInt then 0x40 else 0x80 } ∧
    exec (.tix m) s = .next { s with
      X := s.X + 1
      SW := if (s.X + 1).toInt < v.toInt then 0x00
        else if (s.X + 1).toInt = v.toInt then 0x40 else 0x80 }) ∧
  (∀ k, operandWord s m = .error k → ∀ i ∈ [Instr.comp m, .tix m],
    exec i s = .next { s with halted := true, fault := some k })

/-! Jumps -/

/-- J, JEQ, JGT and JLT set PC to the effective address when their condition holds and change nothing
else; a fault of the address is raised whether or not it holds (spec/42_jumps.md R231 to R235). -/
def Obligations.JumpsSetPC : Prop :=
  ∀ (m : MemOperand) (s : State),
  (∀ ea, effectiveAddress s m = .ok ea →
    exec (.j m) s = .next { s with PC := ea } ∧
    exec (.jeq m) s = .next { s with PC := if s.SW = 0x40 then ea else s.PC } ∧
    exec (.jgt m) s = .next { s with PC := if s.SW = 0x80 then ea else s.PC } ∧
    exec (.jlt m) s = .next { s with PC := if s.SW = 0x00 then ea else s.PC }) ∧
  (∀ k, effectiveAddress s m = .error k → ∀ i ∈ [Instr.j m, .jeq m, .jgt m, .jlt m],
    exec i s = .next { s with halted := true, fault := some k })

/-- JSUB saves the next instruction's address in L and jumps; RSUB jumps to L and only checks its
target address (R236, R237). -/
def Obligations.JsubAndRsubLink : Prop :=
  ∀ (m : MemOperand) (s : State),
  (∀ ea, effectiveAddress s m = .ok ea →
    exec (.jsub m) s = .next { s with L := s.PC, PC := ea }) ∧
  (∀ k, effectiveAddress s m = .error k →
    exec (.jsub m) s = .next { s with halted := true, fault := some k }) ∧
  (∀ ta, targetAddress s m = .ok ta → exec (.rsub m) s = .next { s with PC := s.L }) ∧
  (∀ k, targetAddress s m = .error k →
    exec (.rsub m) s = .next { s with halted := true, fault := some k })

/-! Register-register instructions -/

/-- ADDR, SUBR, MULR and RMO write their result to r2 and change nothing else, SW only with a legal
code; a field that names no register is rejected (spec/45_register_ops.md R313, R314, R315, R321). -/
def Obligations.RegisterArithmeticWritesR2 : Prop :=
  ∀ (s : State) (a d : Reg) (id : BitVec 4) (f : RegField),
  let write : Word → State := fun v =>
    if d = .SW ∧ v ≠ 0x00 ∧ v ≠ 0x40 ∧ v ≠ 0x80 then
      { s with halted := true, fault := some .outOfRange }
    else s.put d v
  exec (.addr (.reg a) (.reg d)) s =
    .next (write (BitVec.ofNat 24 ((s.get d).toNat + (s.get a).toNat))) ∧
  exec (.subr (.reg a) (.reg d)) s =
    .next (write (BitVec.ofInt 24 ((s.get d).toNat - (s.get a).toNat))) ∧
  exec (.mulr (.reg a) (.reg d)) s =
    .next (write (BitVec.ofNat 24 ((s.get d).toNat * (s.get a).toNat))) ∧
  exec (.rmo (.reg a) (.reg d)) s = .next (write (s.get a)) ∧
  (∀ i ∈ [Instr.addr (.invalid id) f, .subr (.invalid id) f, .mulr (.invalid id) f,
      .rmo (.invalid id) f, .addr (.reg a) (.invalid id), .subr (.reg a) (.invalid id),
      .mulr (.reg a) (.invalid id), .rmo (.reg a) (.invalid id)],
    exec i s = .next { s with halted := true, fault := some .invalidRegister })

/-- DIVR divides R[r2] by R[r1] as DIV does, writes r2 and changes nothing else; a zero divisor is
reported before the destination is written (R316). -/
def Obligations.DivrDividesR2ByR1 : Prop :=
  ∀ (s : State) (a d : Reg),
  (s.get a = 0 → exec (.divr (.reg a) (.reg d)) s =
    .next { s with halted := true, fault := some .divideByZero }) ∧
  (s.get a ≠ 0 → ∃ q : Word,
    (s.get d = 0x800000 ∧ s.get a = 0xFFFFFF → q = 0x800000) ∧
    (¬ (s.get d = 0x800000 ∧ s.get a = 0xFFFFFF) →
      q.toInt = (s.get d).toInt.tdiv (s.get a).toInt) ∧
    exec (.divr (.reg a) (.reg d)) s = .next
      (if d = .SW ∧ q ≠ 0x00 ∧ q ≠ 0x40 ∧ q ≠ 0x80 then
        { s with halted := true, fault := some .outOfRange }
      else s.put d q)) ∧
  (∀ (id : BitVec 4) (f : RegField), ∀ i ∈ [Instr.divr (.invalid id) f, .divr (.reg a) (.invalid id)],
    exec i s = .next { s with halted := true, fault := some .invalidRegister })

/-- SHIFTL rotates the word left by r2 + 1, SHIFTR divides its signed reading by 2^(r2 + 1), rounding
down; r1 alone is written (R319, R320). -/
def Obligations.ShiftsRotateLeftAndFillRight : Prop :=
  ∀ (s : State) (r : Reg) (count : BitVec 4),
  let n := count.toNat + 1
  let write : Word → State := fun v =>
    if r = .SW ∧ v ≠ 0x00 ∧ v ≠ 0x40 ∧ v ≠ 0x80 then
      { s with halted := true, fault := some .outOfRange }
    else s.put r v
  (∃ v : Word, (∀ i, i < 24 → v.getLsbD ((i + n) % 24) = (s.get r).getLsbD i) ∧
    exec (.shiftl (.reg r) count) s = .next (write v)) ∧
  (∃ v : Word, v.toInt = (s.get r).toInt / 2 ^ n ∧
    exec (.shiftr (.reg r) count) s = .next (write v)) ∧
  (∀ id : BitVec 4, ∀ i ∈ [Instr.shiftl (.invalid id) count, .shiftr (.invalid id) count],
    exec i s = .next { s with halted := true, fault := some .invalidRegister })

/-- CLEAR writes 0 to r1, whatever its r2 field is (R322). -/
def Obligations.ClearWritesZero : Prop :=
  ∀ (s : State) (r : Reg) (id r2 : BitVec 4),
  exec (.clear (.reg r) r2) s = .next (s.put r 0) ∧
  exec (.clear (.invalid id) r2) s =
    .next { s with halted := true, fault := some .invalidRegister }

/-- COMPR sets SW by the signed comparison of R[r1] with R[r2]; TIXR increments X and compares it with
R[r1], read after the increment (R318, R324). -/
def Obligations.ComprAndTixrSetTheCode : Prop :=
  ∀ (s : State) (a b : Reg) (id r2 : BitVec 4) (f : RegField),
  let code : Word → Word → Word := fun v w =>
    if v.toInt < w.toInt then 0x00 else if v.toInt = w.toInt then 0x40 else 0x80
  exec (.compr (.reg a) (.reg b)) s = .next { s with SW := code (s.get a) (s.get b) } ∧
  exec (.tixr (.reg a) r2) s = .next { s with
    X := s.X + 1
    SW := code (s.X + 1) (if a = .X then s.X + 1 else s.get a) } ∧
  (∀ i ∈ [Instr.compr (.invalid id) f, .compr (.reg a) (.invalid id), .tixr (.invalid id) r2],
    exec i s = .next { s with halted := true, fault := some .invalidRegister })

/-! Unimplemented instructions -/

/-- FLOAT, FIX, NORM, SIO, HIO and TIO raise `UnimplementedOpcode` after one fetch and change nothing
else (spec/46_unimplemented.md R340 to R345). -/
def Obligations.Format1IsUnimplemented : Prop :=
  ∀ s : State, ∀ p ∈ ([(0xC0, .float), (0xC4, .fix), (0xC8, .norm), (0xF0, .sio), (0xF4, .hio),
      (0xF8, .tio)] : List (Byte × Instr)),
  exec p.2 s = .next { s with halted := true, fault := some .unimplementedOpcode } ∧
  (s.halted = false → s.held = none → s.PC.toNat ≤ 0x100000 → s.mem.read s.PC.toNat = p.1 →
    step s = .next { s with PC := s.PC + 1, halted := true, fault := some .unimplementedOpcode })

/-- SVC, ADDF, SUBF, MULF, DIVF, COMPF, LPS, STI and SSK raise `UnimplementedOpcode` after all their
bytes are fetched, whatever their fields are, and change nothing else (R346 to R354). -/
def Obligations.ExcludedOpcodesAreUnimplemented : Prop :=
  ∀ (s : State) (m : MemOperand) (r1 r2 : BitVec 4),
    ∀ i ∈ [Instr.svc r1 r2, .addf m, .subf m, .mulf m, .divf m, .compf m, .lps m, .sti m, .ssk m],
  exec i s = .next { s with halted := true, fault := some .unimplementedOpcode } ∧
  (s.halted = false → s.held = none → s.PC.toNat + (encode i).length ≤ 0x100001 →
    bytesAt s.mem s.PC.toNat (encode i).length = encode i →
    step s = .next { s with
      PC := s.PC + BitVec.ofNat 24 (encode i).length
      halted := true
      fault := some .unimplementedOpcode })

/-! Devices -/

/-- TD on the device that the low byte of its operand names: LT where the device is bound or an open
succeeds, which binds it, EQ where the open fails; nothing else of the block changes
(spec/44_device_io.md R295, R296). For every answer of the environment. -/
def Obligations.TdReportsReadiness : Prop :=
  ∀ (m : MemOperand) (s : State),
  (∀ v, operandWord s m = .ok v →
    (s.isBound (BitVec.ofNat 8 v.toNat) = true → exec (.td m) s = .next { s with SW := 0x00 }) ∧
    (s.isBound (BitVec.ofNat 8 v.toNat) = false →
      ∃ (r : Ack) (e : DevEnv),
        e.log = .opened (BitVec.ofNat 8 v.toNat) r :: s.env.log ∧
        exec (.td m) s = .next { s with
          SW := if r = .ok then 0x00 else 0x40
          bound := if r = .ok then s.bound ||| BitVec.twoPow 256 (v.toNat % 256) else s.bound
          env := e })) ∧
  (∀ k, operandWord s m = .error k →
    exec (.td m) s = .next { s with halted := true, fault := some k })

/-- RD of a bound device whose environment has a byte laid down puts that byte into A's low byte,
consumes it and changes nothing else (R293, R297). -/
def Obligations.RdPutsTheByteIntoA : Prop :=
  ∀ (m : MemOperand) (s : State) (v : Word) (c : Byte) (rest : List (DeviceId × GetReply)),
    operandWord s m = .ok v → s.held = none → s.isBound (BitVec.ofNat 8 v.toNat) = true →
    s.env.gets = (BitVec.ofNat 8 v.toNat, .byte c) :: rest →
    ∃ a : Word, a.toNat = s.A.toNat / 256 * 256 + c.toNat ∧
      exec (.rd m) s = .next { s with
        A := a
        env := { s.env with
          gets := rest
          log := .got (BitVec.ofNat 8 v.toNat) (.byte c) :: s.env.log } }

/-- Everything RD can do, whatever the environment answers: the open fails, a byte comes, the stream
ends or fails, or no answer comes and the step is held (R291, R293, R297, R299, R377, R378). A device
that was not bound is opened first. That a held step is a field of the state is the model's form
(log 2). -/
def Obligations.RdByTheAnswer : Prop :=
  ∀ (m : MemOperand) (s : State),
  (∀ v, operandWord s m = .ok v →
    ∃ t, exec (.rd m) s = .next t ∧
      (∀ e, e ≠ BitVec.ofNat 8 v.toNat → t.isBound e = s.isBound e) ∧
      ((s.isBound (BitVec.ofNat 8 v.toNat) = false ∧
          t.env.log = .opened (BitVec.ofNat 8 v.toNat) .fail :: s.env.log ∧
          t = { s with halted := true, fault := some .deviceUnavailable, held := none,
                       env := t.env }) ∨
        (∃ r : GetReply,
          t.env.log = .got (BitVec.ofNat 8 v.toNat) r ::
            (if s.isBound (BitVec.ofNat 8 v.toNat) = true then s.env.log
              else .opened (BitVec.ofNat 8 v.toNat) .ok :: s.env.log) ∧
          t.isBound (BitVec.ofNat 8 v.toNat) = true ∧
          match r with
          | .byte c => ∃ a : Word, a.toNat = s.A.toNat / 256 * 256 + c.toNat ∧
              t = { s with A := a, held := none, bound := t.bound, env := t.env }
          | .eof => t = { s with halted := true, fault := some .ioError, held := none,
                                 bound := t.bound, env := t.env }
          | .error => t = { s with halted := true, fault := some .ioError, held := none,
                                   bound := t.bound, env := t.env }
          | .pending => t = { s with held := some (.step (BitVec.ofNat 8 v.toNat)),
                                     bound := t.bound, env := t.env }))) ∧
  (∀ k, operandWord s m = .error k →
    exec (.rd m) s = .next { s with halted := true, fault := some k })

/-- WD to a bound device whose environment accepts sends A's low byte and changes nothing else
(R294, R298). -/
def Obligations.WdSendsTheLowByte : Prop :=
  ∀ (m : MemOperand) (s : State) (v : Word) (rest : List (DeviceId × Ack)),
    operandWord s m = .ok v → s.isBound (BitVec.ofNat 8 v.toNat) = true →
    s.env.puts = (BitVec.ofNat 8 v.toNat, .ok) :: rest →
    ∃ e : DevEnv, exec (.wd m) s = .next { s with env := e } ∧
      e = { s.env with
        puts := rest
        log := .put (BitVec.ofNat 8 v.toNat) (BitVec.ofNat 8 s.A.toNat) .ok :: s.env.log } ∧
      sentTo (BitVec.ofNat 8 v.toNat) e.log =
        sentTo (BitVec.ofNat 8 v.toNat) s.env.log ++ [BitVec.ofNat 8 s.A.toNat]

/-- Everything WD can do, whatever the environment answers: the open fails, the byte is accepted, or
the stream rejects it and no device receives one (R291, R294, R298, R377, R378). A device that was
not bound is opened first. -/
def Obligations.WdByTheAnswer : Prop :=
  ∀ (m : MemOperand) (s : State),
  (∀ v, operandWord s m = .ok v →
    ∃ t, exec (.wd m) s = .next t ∧
      (∀ e, e ≠ BitVec.ofNat 8 v.toNat →
        t.isBound e = s.isBound e ∧ sentTo e t.env.log = sentTo e s.env.log) ∧
      ((s.isBound (BitVec.ofNat 8 v.toNat) = false ∧
          t.env.log = .opened (BitVec.ofNat 8 v.toNat) .fail :: s.env.log ∧
          t = { s with halted := true, fault := some .deviceUnavailable, env := t.env }) ∨
        (∃ r : Ack, t.isBound (BitVec.ofNat 8 v.toNat) = true ∧
          t.env.log = .put (BitVec.ofNat 8 v.toNat) (BitVec.ofNat 8 s.A.toNat) r ::
            (if s.isBound (BitVec.ofNat 8 v.toNat) = true then s.env.log
              else .opened (BitVec.ofNat 8 v.toNat) .ok :: s.env.log) ∧
          match r with
          | .ok => t = { s with bound := t.bound, env := t.env } ∧
              sentTo (BitVec.ofNat 8 v.toNat) t.env.log =
                sentTo (BitVec.ofNat 8 v.toNat) s.env.log ++ [BitVec.ofNat 8 s.A.toNat]
          | .fail => t = { s with halted := true, fault := some .ioError, bound := t.bound,
                                  env := t.env } ∧
              sentTo (BitVec.ofNat 8 v.toNat) t.env.log =
                sentTo (BitVec.ofNat 8 v.toNat) s.env.log))) ∧
  (∀ k, operandWord s m = .error k →
    exec (.wd m) s = .next { s with halted := true, fault := some k })

/-- While a device read is held nothing else runs (R299, R395). An RD: a step asks the device again and
ends as RD does, or goes on waiting with the block unchanged. A host read: a step waits, and the
host's read asks again and returns, or goes on waiting. Every other host operation waits. That one
held read spans several steps or requests is the model's form (log 2), and so is that a host read
binds its device only when it returns the byte (log 15, from R396). -/
def Obligations.HeldReadWaitsForTheDevice : Prop :=
  (∀ (s : State) (d : DeviceId), s.held = some (.step d) →
    (s.halted = false →
      ∃ (t : State) (r : GetReply), step s = .next t ∧ t.env.log = .got d r :: s.env.log ∧
        match r with
        | .byte c => ∃ a : Word, a.toNat = s.A.toNat / 256 * 256 + c.toNat ∧
            t = { s with A := a, held := none, env := t.env }
        | .eof => t = { s with halted := true, fault := some .ioError, held := none, env := t.env }
        | .error => t = { s with halted := true, fault := some .ioError, held := none,
                                 env := t.env }
        | .pending => t = { s with env := t.env }) ∧
    (∀ op : HostOp, op ≠ .step → hostPerform op s = (.pending, s))) ∧
  (∀ (s : State) (d : DeviceId), s.held = some (.host d) →
    step s = .next s ∧
    (∃ (t : State) (r : GetReply) (reply : HostReply),
      hostPerform (.read d.toNat) s = (reply, t) ∧ t.env.log = .got d r :: s.env.log ∧
        match r with
        | .byte c => reply = .byte c ∧
            t = { s with bound := s.bound ||| BitVec.twoPow 256 d.toNat, held := none, env := t.env }
        | .eof => reply = .failed .ioError ∧ t = { s with held := none, env := t.env }
        | .error => reply = .failed .ioError ∧ t = { s with held := none, env := t.env }
        | .pending => reply = .pending ∧ t = { s with env := t.env }) ∧
    (∀ op : HostOp, op ≠ .read d.toNat → hostPerform op s = (.pending, s)))

/-! The loader and the host port -/

/-- A successful load writes every byte of the T records, later records over earlier ones, sets PC
from the E record, clears `halted` and `fault` and changes nothing else
(spec/70_reset_and_hazards.md R447). -/
def Obligations.SuccessfulLoad : Prop :=
  ∀ (s : State) (text : List Byte) (image : Image), s.held = none → s.mem.wf →
    parseModule text = some image →
    ∃ m' : Memory, hostPerform (.load text) s = (.ok, { s with
        mem := m'
        PC := BitVec.ofNat 24 image.entry
        halted := false
        fault := none }) ∧
      (∀ a, (∀ p ∈ image.texts, a < p.1 ∨ p.1 + p.2.length ≤ a) → m'.read a = s.mem.read a) ∧
      (∀ before p later, image.texts = before ++ p :: later → ∀ (k : Nat) (b : Byte),
        p.2[k]? = some b → (∀ q ∈ later, p.1 + k < q.1 ∨ q.1 + q.2.length ≤ p.1 + k) →
        m'.read (p.1 + k) = b)

/-- A failed load changes no memory byte and no register, and halts the block with `LoadError`
(R448). -/
def Obligations.FailedLoad : Prop :=
  ∀ (s : State) (text : List Byte), s.held = none → parseModule text = none →
    hostPerform (.load text) s =
      (.failed .loadError, { s with halted := true, fault := some .loadError })

/-- The causes of a `LoadError` (R449): a first line that is not H; no E record; before the first E
record, a line that is no record; and of these, an unknown first character, short lines, a character
other than 0-9 and A-F in a hex field, and a T byte beyond the memory. -/
def Obligations.LoadErrorCauses : Prop :=
  (∀ (text line : List Byte) (rest : List (List Byte)), moduleLines text = line :: rest →
    line.head? ≠ some 0x48 → parseModule text = none) ∧
  (∀ text : List Byte, (∀ line ∈ moduleLines text, line.head? ≠ some 0x45) →
    parseModule text = none) ∧
  (∀ (text line : List Byte) (before later : List (List Byte)),
    moduleLines text = before ++ line :: later → (∀ l ∈ before, l.head? ≠ some 0x45) →
    parseRecord line = none → parseModule text = none) ∧
  (∀ (line : List Byte) (tag : Byte), line.head? = some tag →
    tag ∉ ([0x48, 0x54, 0x4D, 0x44, 0x52, 0x45] : List Byte) → parseRecord line = none) ∧
  (∀ line : List Byte,
    (line.head? = some 0x48 → line.length < 19 → parseRecord line = none) ∧
    (line.head? = some 0x54 → line.length < 9 → parseRecord line = none) ∧
    (line.head? = some 0x4D → line.length < 9 → parseRecord line = none) ∧
    (line.head? = some 0x45 → line.length < 7 → parseRecord line = none)) ∧
  (∀ (line : List Byte) (addr k : Nat), line.head? = some 0x54 →
    hexField line 2 6 = some addr → hexField line 8 2 = some k →
    line.length < 9 + 2 * k ∨ (0 < k ∧ 0x100000 < addr + k - 1) → parseRecord line = none) ∧
  (∀ (l : List Byte) (j : Nat) (c : Byte), l[j]? = some c → isHexChar c = false →
    (l.head? = some 0x48 → 7 ≤ j → j < 19 → parseRecord l = none) ∧
    (l.head? = some 0x54 → 1 ≤ j → j < 9 → parseRecord l = none) ∧
    (l.head? = some 0x4D → 1 ≤ j → j < 9 → parseRecord l = none) ∧
    (l.head? = some 0x45 → 1 ≤ j → j < 7 → parseRecord l = none) ∧
    (∀ k : Nat, l.head? = some 0x54 → hexField l 8 2 = some k → 9 ≤ j → j < 9 + 2 * k →
      parseRecord l = none))

/-- A failed host operation other than a step and a load changes nothing of the block, `halted`, `fault`
and every bound bit included (spec/60_exceptions.md R396, D45). A failed device read or write leaves
what it asked of the environment, which is not the block's, in the model's record (log 3), and ends a
host read in progress (log 2). That an open which succeeded in it sets no bound bit is the model's
reading of R396 beside R300 (log 15). -/
def Obligations.FailedHostOperationChangesNothing : Prop :=
  ∀ (op : HostOp) (s : State) (k : Fault), (hostPerform op s).1 = .failed k → op ≠ .step →
    (∀ text, op ≠ .load text) →
    (hostPerform op s).2 = { s with held := none, env := (hostPerform op s).2.env } ∧
    ((∀ id, op ≠ .read id) → (∀ id v, op ≠ .write id v) → (hostPerform op s).2 = s)

/-- `dump(low, high)` returns the bytes of the range, both ends included, and changes nothing; it
fails unless 0 ≤ low ≤ high ≤ 0x100000 (spec/20_memory.md R101, D46). -/
def Obligations.DumpReturnsTheRange : Prop :=
  ∀ (s : State) (low high : Int), s.held = none →
  (0 ≤ low ∧ low ≤ high ∧ high ≤ 0x100000 →
    ∃ vs : List Byte, hostPerform (.dump low high) s = (.bytes vs, s) ∧
      (vs.length : Int) = high - low + 1 ∧
      ∀ (k : Nat) (b : Byte), vs[k]? = some b → b = s.mem.read (low.toNat + k)) ∧
  (¬ (0 ≤ low ∧ low ≤ high ∧ high ≤ 0x100000) →
    hostPerform (.dump low high) s = (.failed .outOfRange, s))

/-- The host's device operations ask of the device what TD, RD and WD ask, for every answer of the
environment (spec/44_device_io.md R291 to R294, R300): an unbound device is opened first, and bound
where the operation succeeds; an id or a byte outside 0 to 255 fails `OutOfRange`. A read that gets no
answer holds the machine (R293, R395; the field that says so is the model's, log 2). That a read or
write failing after its open leaves the device unbound, and that a held read has not bound it yet, is
the model's reading of R396 and D45 beside R300 (log 15). -/
def Obligations.HostDeviceOperations : Prop :=
  ∀ s : State, s.held = none →
  (∀ id v : Int, ¬ (0 ≤ id ∧ id ≤ 255) →
    hostPerform (.test id) s = (.failed .outOfRange, s) ∧
    hostPerform (.read id) s = (.failed .outOfRange, s) ∧
    hostPerform (.write id v) s = (.failed .outOfRange, s)) ∧
  (∀ id v : Int, ¬ (0 ≤ v ∧ v ≤ 255) →
    hostPerform (.write id v) s = (.failed .outOfRange, s)) ∧
  (∀ d : DeviceId,
    (s.isBound d = true → hostPerform (.test d.toNat) s = (.flag true, s)) ∧
    (s.isBound d = false → ∃ (r : Ack) (e : DevEnv), e.log = .opened d r :: s.env.log ∧
      hostPerform (.test d.toNat) s = (.flag (decide (r = .ok)), { s with
        bound := if r = .ok then s.bound ||| BitVec.twoPow 256 d.toNat else s.bound
        env := e })) ∧
    (∃ (reply : HostReply) (t : State), hostPerform (.read d.toNat) s = (reply, t) ∧
      (∀ e, e ≠ d → t.isBound e = s.isBound e) ∧
      ((s.isBound d = false ∧ t.env.log = .opened d .fail :: s.env.log ∧
          reply = .failed .deviceUnavailable ∧ t = { s with env := t.env }) ∨
        (∃ r : GetReply,
          t.env.log = .got d r ::
            (if s.isBound d = true then s.env.log else .opened d .ok :: s.env.log) ∧
          match r with
          | .byte c => reply = .byte c ∧ t.isBound d = true ∧
              t = { s with bound := t.bound, env := t.env }
          | .eof => reply = .failed .ioError ∧ t = { s with env := t.env }
          | .error => reply = .failed .ioError ∧ t = { s with env := t.env }
          | .pending => reply = .pending ∧ t = { s with held := some (.host d), env := t.env }))) ∧
    (∀ c : Byte, ∃ (reply : HostReply) (t : State),
      hostPerform (.write d.toNat c.toNat) s = (reply, t) ∧
      t = { s with bound := t.bound, env := t.env } ∧ (∀ e, e ≠ d → t.isBound e = s.isBound e) ∧
      ((s.isBound d = false ∧ t.isBound d = false ∧ t.env.log = .opened d .fail :: s.env.log ∧
          reply = .failed .deviceUnavailable) ∨
        (∃ r : Ack,
          t.env.log = .put d c r ::
            (if s.isBound d = true then s.env.log else .opened d .ok :: s.env.log) ∧
          match r with
          | .ok => reply = .ok ∧ t.isBound d = true
          | .fail => reply = .failed .ioError ∧ t = { s with env := t.env }))) ∧
    (s.isBound d = true →
      (∀ (c : Byte) (rest : List (DeviceId × GetReply)), s.env.gets = (d, .byte c) :: rest →
        hostPerform (.read d.toNat) s = (.byte c, { s with env := { s.env with
          gets := rest
          log := .got d (.byte c) :: s.env.log } })) ∧
      (∀ (c : Byte) (rest : List (DeviceId × Ack)), s.env.puts = (d, .ok) :: rest →
        hostPerform (.write d.toNat c.toNat) s = (.ok, { s with env := { s.env with
          puts := rest
          log := .put d c .ok :: s.env.log } }))))

/-- What the host's step returns: the state is the step's; the fault kind where the step raised one
(spec/60_exceptions.md R380), no answer yet while an RD is held (R299), ok where it completed; while
halted, the stored fault (R153). `halted()` returns the latch (spec/10_state.md R55). -/
def Obligations.HostStepReportsItsOutcome : Prop :=
  ∀ s : State, s.held = none →
  hostPerform .halted s = (.flag s.halted, s) ∧
  (∀ k, s.halted = true → s.fault = some k → hostPerform .step s = (.failed k, s)) ∧
  (s.halted = false → s.fault = none → ∃ t, step s = .next t ∧ (hostPerform .step s).2 = t ∧
    (t.halted = true → ∃ k, t.fault = some k ∧ (hostPerform .step s).1 = .failed k) ∧
    (t.halted = false → (∃ d, t.held = some (.step d)) → (hostPerform .step s).1 = .pending) ∧
    (t.halted = false → t.held = none → (hostPerform .step s).1 = .ok) ∧
    (∀ d, t.held ≠ some (.host d)))

/-- The ten fault kinds and their numeric codes (R370); no two kinds share one. The last-fault register
holds the code of the stored kind (R56). -/
def Obligations.FaultKindsHaveTheirCodes : Prop :=
  (∀ k : Fault, 1 ≤ k.code ∧ k.code ≤ 10) ∧ (∀ n, 1 ≤ n → n ≤ 10 → ∃ k : Fault, k.code = n) ∧
  (∀ j k : Fault, j.code = k.code → j = k) ∧
  Fault.outOfRange.code = 1 ∧ Fault.invalidRegister.code = 2 ∧ Fault.badAddressingMode.code = 3 ∧
  Fault.invalidAddressing.code = 4 ∧ Fault.unimplementedOpcode.code = 5 ∧
  Fault.unknownOpcode.code = 6 ∧ Fault.deviceUnavailable.code = 7 ∧ Fault.ioError.code = 8 ∧
  Fault.divideByZero.code = 9 ∧ Fault.loadError.code = 10 ∧
  (∀ (s : State) (k : Fault), (s.raise k).faultCode = some k.code) ∧
  State.reset.faultCode = none

/-- A module written out in the columns of R441 to R445 is read as what it says: its T records in order
and the start address of its E record; M, D and R records, comments and what follows the E record have
no effect (R440 to R446). That an M record loads whatever follows its hex fields, and an empty T record
whatever its address, is the model's choice (log 16, DESIGN CHOICE). -/
def Obligations.WrittenModulesAreRead : Prop :=
  ∀ (name : List Byte) (start size entry : Nat) (items : List ModuleItem) (later : List Byte),
    name.length = 6 → name.contains 0x0A = false → start < 16 ^ 6 → size < 16 ^ 6 →
    entry < 16 ^ 6 → (∀ item ∈ items, item.fits = true) →
    parseModule (moduleText name start size items entry later) =
      some { texts := items.filterMap ModuleItem.loads, entry := entry }
end

