-- ==== Sys2Proof/Laws/State.lean ====
section
/-! SUPPORT. One lemma per field per named update of the state, so that no proof unfolds an update. -/

namespace Sys2Proof.Machine

/-! Taking a fault -/

@[simp] theorem State.raise_A (s : State) (k : Fault) : (s.raise k).A = s.A := rfl
@[simp] theorem State.raise_X (s : State) (k : Fault) : (s.raise k).X = s.X := rfl
@[simp] theorem State.raise_L (s : State) (k : Fault) : (s.raise k).L = s.L := rfl
@[simp] theorem State.raise_B (s : State) (k : Fault) : (s.raise k).B = s.B := rfl
@[simp] theorem State.raise_S (s : State) (k : Fault) : (s.raise k).S = s.S := rfl
@[simp] theorem State.raise_T (s : State) (k : Fault) : (s.raise k).T = s.T := rfl
@[simp] theorem State.raise_F (s : State) (k : Fault) : (s.raise k).F = s.F := rfl
@[simp] theorem State.raise_PC (s : State) (k : Fault) : (s.raise k).PC = s.PC := rfl
@[simp] theorem State.raise_SW (s : State) (k : Fault) : (s.raise k).SW = s.SW := rfl
@[simp] theorem State.raise_mem (s : State) (k : Fault) : (s.raise k).mem = s.mem := rfl
@[simp] theorem State.raise_bound (s : State) (k : Fault) : (s.raise k).bound = s.bound := rfl
@[simp] theorem State.raise_halted (s : State) (k : Fault) : (s.raise k).halted = true := rfl
@[simp] theorem State.raise_fault (s : State) (k : Fault) : (s.raise k).fault = some k := rfl
@[simp] theorem State.raise_held (s : State) (k : Fault) : (s.raise k).held = s.held := rfl
@[simp] theorem State.raise_env (s : State) (k : Fault) : (s.raise k).env = s.env := rfl

/-! Leaving the halted latch -/

@[simp] theorem State.resume_A (s : State) : (s.resume).A = s.A := rfl
@[simp] theorem State.resume_X (s : State) : (s.resume).X = s.X := rfl
@[simp] theorem State.resume_L (s : State) : (s.resume).L = s.L := rfl
@[simp] theorem State.resume_B (s : State) : (s.resume).B = s.B := rfl
@[simp] theorem State.resume_S (s : State) : (s.resume).S = s.S := rfl
@[simp] theorem State.resume_T (s : State) : (s.resume).T = s.T := rfl
@[simp] theorem State.resume_F (s : State) : (s.resume).F = s.F := rfl
@[simp] theorem State.resume_PC (s : State) : (s.resume).PC = s.PC := rfl
@[simp] theorem State.resume_SW (s : State) : (s.resume).SW = s.SW := rfl
@[simp] theorem State.resume_mem (s : State) : (s.resume).mem = s.mem := rfl
@[simp] theorem State.resume_bound (s : State) : (s.resume).bound = s.bound := rfl
@[simp] theorem State.resume_halted (s : State) : (s.resume).halted = false := rfl
@[simp] theorem State.resume_fault (s : State) : (s.resume).fault = none := rfl
@[simp] theorem State.resume_held (s : State) : (s.resume).held = s.held := rfl
@[simp] theorem State.resume_env (s : State) : (s.resume).env = s.env := rfl

/-! Binding a device -/

@[simp] theorem State.bind_A (s : State) (d : DeviceId) : (s.bind d).A = s.A := rfl
@[simp] theorem State.bind_X (s : State) (d : DeviceId) : (s.bind d).X = s.X := rfl
@[simp] theorem State.bind_L (s : State) (d : DeviceId) : (s.bind d).L = s.L := rfl
@[simp] theorem State.bind_B (s : State) (d : DeviceId) : (s.bind d).B = s.B := rfl
@[simp] theorem State.bind_S (s : State) (d : DeviceId) : (s.bind d).S = s.S := rfl
@[simp] theorem State.bind_T (s : State) (d : DeviceId) : (s.bind d).T = s.T := rfl
@[simp] theorem State.bind_F (s : State) (d : DeviceId) : (s.bind d).F = s.F := rfl
@[simp] theorem State.bind_PC (s : State) (d : DeviceId) : (s.bind d).PC = s.PC := rfl
@[simp] theorem State.bind_SW (s : State) (d : DeviceId) : (s.bind d).SW = s.SW := rfl
@[simp] theorem State.bind_mem (s : State) (d : DeviceId) : (s.bind d).mem = s.mem := rfl
@[simp] theorem State.bind_bound (s : State) (d : DeviceId) : (s.bind d).bound = s.bound ||| BitVec.twoPow 256 d.toNat := rfl
@[simp] theorem State.bind_halted (s : State) (d : DeviceId) : (s.bind d).halted = s.halted := rfl
@[simp] theorem State.bind_fault (s : State) (d : DeviceId) : (s.bind d).fault = s.fault := rfl
@[simp] theorem State.bind_held (s : State) (d : DeviceId) : (s.bind d).held = s.held := rfl
@[simp] theorem State.bind_env (s : State) (d : DeviceId) : (s.bind d).env = s.env := rfl

/-! Registers -/

@[simp] theorem State.put_mem (s : State) (r : Reg) (v : Word) : (s.put r v).mem = s.mem := by cases r <;> rfl
@[simp] theorem State.put_bound (s : State) (r : Reg) (v : Word) : (s.put r v).bound = s.bound := by cases r <;> rfl
@[simp] theorem State.put_halted (s : State) (r : Reg) (v : Word) : (s.put r v).halted = s.halted := by cases r <;> rfl
@[simp] theorem State.put_fault (s : State) (r : Reg) (v : Word) : (s.put r v).fault = s.fault := by cases r <;> rfl
@[simp] theorem State.put_held (s : State) (r : Reg) (v : Word) : (s.put r v).held = s.held := by cases r <;> rfl
@[simp] theorem State.put_env (s : State) (r : Reg) (v : Word) : (s.put r v).env = s.env := by cases r <;> rfl

@[simp] theorem State.put_get (s : State) (r : Reg) (v : Word) : (s.put r v).get r = v := by
  cases r <;> rfl

theorem State.put_get_of_ne (s : State) {r q : Reg} (v : Word) (h : q ≠ r) :
    (s.put r v).get q = s.get q := by
  cases r <;> cases q <;> first | rfl | exact absurd rfl h

@[simp] theorem State.raise_get (s : State) (k : Fault) (r : Reg) : (s.raise k).get r = s.get r := by
  cases r <;> rfl

@[simp] theorem State.bind_get (s : State) (d : DeviceId) (r : Reg) : (s.bind d).get r = s.get r := by
  cases r <;> rfl

@[simp] theorem State.get_A (s : State) : s.get .A = s.A := rfl
@[simp] theorem State.get_X (s : State) : s.get .X = s.X := rfl
@[simp] theorem State.get_L (s : State) : s.get .L = s.L := rfl
@[simp] theorem State.get_B (s : State) : s.get .B = s.B := rfl
@[simp] theorem State.get_S (s : State) : s.get .S = s.S := rfl
@[simp] theorem State.get_T (s : State) : s.get .T = s.T := rfl
@[simp] theorem State.get_F (s : State) : s.get .F = s.F := rfl
@[simp] theorem State.get_PC (s : State) : s.get .PC = s.PC := rfl
@[simp] theorem State.get_SW (s : State) : s.get .SW = s.SW := rfl

/-- Two states with the same registers and the same other fields are the same. -/
theorem State.ext_of_get {s t : State} (hr : ∀ r, s.get r = t.get r) (hm : s.mem = t.mem)
    (hb : s.bound = t.bound) (hh : s.halted = t.halted) (hf : s.fault = t.fault)
    (hd : s.held = t.held) (he : s.env = t.env) : s = t := by
  have hA := hr .A; have hX := hr .X; have hL := hr .L; have hB := hr .B; have hS := hr .S
  have hT := hr .T; have hF := hr .F; have hP := hr .PC; have hW := hr .SW
  cases s; cases t; simp_all

/-! The result of a meaning -/

@[simp] theorem State.commit_ok (s t : State) : s.commit (.ok t) = t := rfl
@[simp] theorem State.commit_error (s : State) (k : Fault) : s.commit (.error k) = s.raise k := rfl

/-- Everything a committed result can be. -/
theorem State.commit_cases {s t : State} {r : Except Fault State} (h : s.commit r = t) :
    r = .ok t ∨ ∃ k, r = .error k ∧ t = s.raise k := by
  cases r with
  | ok u => exact .inl (by rw [← h]; rfl)
  | error k => exact .inr ⟨k, rfl, h.symm⟩

/-- Everything a checked register write can be (spec/10_state.md R40). -/
theorem State.set_ok {s t : State} {r : Reg} {v : Word} (h : s.set r v = .ok t) :
    t = s.put r v ∧ (r = .SW → legalCode v = true) := by
  unfold State.set at h
  split at h
  · cases h
  · rename_i hn
    refine ⟨by cases h; rfl, fun hr => ?_⟩
    cases hl : legalCode v
    · exact absurd ⟨hr, hl⟩ hn
    · rfl

theorem State.set_error {s : State} {r : Reg} {v : Word} {k : Fault} (h : s.set r v = .error k) :
    k = .outOfRange ∧ r = .SW ∧ legalCode v = false := by
  unfold State.set at h
  split at h
  · rename_i hn; cases h; exact ⟨rfl, hn.1, hn.2⟩
  · cases h

@[simp] theorem State.set_of_ne_SW (s : State) {r : Reg} (v : Word) (h : r ≠ .SW) :
    s.set r v = .ok (s.put r v) := by
  simp [State.set, h]

/-! Sequencing of results that may be faults -/

@[simp] theorem except_bind_ok {α β : Type} (a : α) (f : α → Except Fault β) :
    (Except.ok a >>= f) = f a := rfl
@[simp] theorem except_bind_error {α β : Type} (k : Fault) (f : α → Except Fault β) :
    ((Except.error k : Except Fault α) >>= f) = .error k := rfl

/-- A sequence that succeeds is one whose first part succeeds. -/
theorem except_bind_eq_ok {α β : Type} {x : Except Fault α} {f : α → Except Fault β} {b : β}
    (h : (x >>= f) = .ok b) : ∃ a, x = .ok a ∧ f a = .ok b := by
  cases x with
  | ok a => exact ⟨a, rfl, h⟩
  | error k => cases h

end Sys2Proof.Machine
end

