-- ==== Sys2Proof/Laws/Devices.lean ====
section
/-! SUPPORT. The laws of the device port and the device table (spec/44_device_io.md R290 to R294):
a request touches nothing but the environment's field; `ensure` may set the device's own bound bit
and no other (R291). -/

namespace Sys2Proof.Machine

/-- An answer laid down first for the device is the one that is given. -/
@[simp] theorem takeReply_head {α : Type} (d : DeviceId) (free r : α)
    (rest : List (DeviceId × α)) : takeReply d free ((d, r) :: rest) = (r, rest) := by
  simp [takeReply]

/-- With nothing laid down the answer is free. -/
@[simp] theorem takeReply_nil {α : Type} (d : DeviceId) (free : α) :
    takeReply d free [] = (free, []) := rfl

/-! What a request does -/

theorem askOpen_state (d : DeviceId) (s : State) :
    (askOpen d s).2 = { s with env := (askOpen d s).2.env } := rfl

theorem askGet_state (d : DeviceId) (s : State) :
    (askGet d s).2 = { s with env := (askGet d s).2.env } := rfl

theorem askPut_state (d : DeviceId) (c : Byte) (s : State) :
    (askPut d c s).2 = { s with env := (askPut d c s).2.env } := rfl

theorem askOpen_log (d : DeviceId) (s : State) :
    (askOpen d s).2.env.log = .opened d (askOpen d s).1 :: s.env.log := rfl

theorem askGet_log (d : DeviceId) (s : State) :
    (askGet d s).2.env.log = .got d (askGet d s).1 :: s.env.log := rfl

theorem askPut_log (d : DeviceId) (c : Byte) (s : State) :
    (askPut d c s).2.env.log = .put d c (askPut d c s).1 :: s.env.log := rfl

/-! The device table -/

theorem State.isBound_bind (s : State) (d e : DeviceId) :
    (s.bind d).isBound e = (s.isBound e || decide (d = e)) := by
  have he : e.toNat < 256 := e.isLt
  have : (e.toNat = d.toNat) ↔ d = e := by rw [BitVec.toNat_inj]; exact eq_comm
  simp [State.isBound, he, this]

/-- Binding a bound device changes nothing. -/
theorem State.bind_of_isBound {s : State} {d : DeviceId} (h : s.isBound d = true) : s.bind d = s := by
  have hb : s.bound ||| BitVec.twoPow 256 d.toNat = s.bound := by
    ext i hi
    by_cases hd : i = d.toNat
    · subst hd
      simpa [State.isBound, BitVec.getLsbD_eq_getElem hi] using h
    · simp [BitVec.getElem_twoPow, hd]
  simp only [State.bind, hb]

theorem ensure_bound {d : DeviceId} {s : State} (h : s.isBound d = true) :
    ensure d s = (.ok, s) := by
  simp [ensure, h]

theorem ensure_unbound {d : DeviceId} {s : State} (h : s.isBound d = false) :
    ensure d s = match askOpen d s with
      | (.ok, t) => (.ok, t.bind d)
      | (.fail, t) => (.fail, t) := by
  rw [ensure, h]
  rfl

/-- Everything `ensure` can do. -/
theorem ensure_cases (d : DeviceId) (s : State) :
    (s.isBound d = true ∧ ensure d s = (.ok, s)) ∨
    (s.isBound d = false ∧ (askOpen d s).1 = .ok ∧ ensure d s = (.ok, (askOpen d s).2.bind d)) ∨
    (s.isBound d = false ∧ (askOpen d s).1 = .fail ∧ ensure d s = (.fail, (askOpen d s).2)) := by
  cases hb : s.isBound d with
  | true => exact .inl ⟨rfl, ensure_bound hb⟩
  | false =>
    rw [ensure_unbound hb]
    cases hr : askOpen d s with
    | mk r t => cases r <;> simp

/-- `ensure` changes nothing but the bound bits and the environment's field. -/
theorem ensure_state (d : DeviceId) (s : State) :
    (ensure d s).2 = { s with bound := (ensure d s).2.bound, env := (ensure d s).2.env } := by
  rcases ensure_cases d s with ⟨-, h⟩ | ⟨-, -, h⟩ | ⟨-, -, h⟩ <;> rw [h] <;> rfl

/-- After `ensure` the device is bound exactly where the answer is `ok`; every other device is bound
as before (R291). -/
theorem ensure_isBound (d e : DeviceId) (s : State) :
    (ensure d s).2.isBound e =
      (s.isBound e || (decide (d = e) && decide ((ensure d s).1 = .ok))) := by
  rcases ensure_cases d s with ⟨hb, h⟩ | ⟨hb, -, h⟩ | ⟨hb, -, h⟩ <;> rw [h]
  · by_cases hde : d = e
    · subst hde; simp [hb]
    · simp [hde]
  · rw [State.isBound_bind]
    show (s.isBound e || _) = _
    simp
  · show s.isBound e = _
    simp

/-- `ensure` sends at most an open: no device receives a byte. -/
theorem ensure_sentTo (d e : DeviceId) (s : State) :
    sentTo e (ensure d s).2.env.log = sentTo e s.env.log := by
  rcases ensure_cases d s with ⟨-, h⟩ | ⟨-, -, h⟩ | ⟨-, -, h⟩ <;> rw [h] <;> rfl

/-- A read of a bound device changes nothing but the environment's field. -/
theorem readBound_state (d : DeviceId) (s : State) :
    (readBound d s).2 = (askGet d s).2 := by
  unfold readBound
  cases h : askGet d s with
  | mk r t => cases r <;> rfl

/-- What a read of a bound device comes to, by the environment's answer (R293). -/
theorem readBound_result (d : DeviceId) (s : State) :
    (readBound d s).1 = match (askGet d s).1 with
      | .byte c => .byte c
      | .eof => .fault .ioError
      | .error => .fault .ioError
      | .pending => .pending := by
  unfold readBound
  cases h : askGet d s with
  | mk r t => cases r <;> rfl

/-- Everything the end of an RD step can be (R297, R299). -/
theorem finishRead_cases (d : DeviceId) (r : ReadResult) (t : State) :
    (∃ c, r = .byte c ∧ finishRead d (r, t) = { t with A := withLowByte t.A c, held := none }) ∨
    (∃ k, r = .fault k ∧ finishRead d (r, t) = { t with held := none }.raise k) ∨
    (r = .pending ∧ finishRead d (r, t) = { t with held := some (.step d) }) := by
  cases r with
  | byte c => exact .inl ⟨c, rfl, rfl⟩
  | fault k => exact .inr (.inl ⟨k, rfl, rfl⟩)
  | pending => exact .inr (.inr ⟨rfl, rfl⟩)

/-- Everything the end of a host read can be (R300). -/
theorem finishHostRead_cases (d : DeviceId) (b : BitVec 256) (r : ReadResult) (t : State) :
    (∃ c, r = .byte c ∧ finishHostRead d b (r, t) = (.byte c, { t.bind d with held := none })) ∨
    (∃ k, r = .fault k ∧
      finishHostRead d b (r, t) = (.failed k, { t with bound := b, held := none })) ∨
    (r = .pending ∧
      finishHostRead d b (r, t) = (.pending, { t with bound := b, held := some (.host d) })) := by
  cases r with
  | byte c => exact .inl ⟨c, rfl, rfl⟩
  | fault k => exact .inr (.inl ⟨k, rfl, rfl⟩)
  | pending => exact .inr (.inr ⟨rfl, rfl⟩)

/-! What the host is served, by the read in progress -/

theorem hostPerform_free {s : State} (h : s.held = none) (op : HostOp) :
    hostPerform op s = hostServe op s := by
  simp [hostPerform, h]

theorem hostPerform_step_held {s : State} {d : DeviceId} (h : s.held = some (.step d)) (op : HostOp) :
    hostPerform op s = if op = .step then hostStep s else (.pending, s) := by
  simp [hostPerform, h]

theorem hostPerform_host_held {s : State} {d : DeviceId} (h : s.held = some (.host d)) (op : HostOp) :
    hostPerform op s = if op = .read d.toNat then hostResumeRead d s else (.pending, s) := by
  simp [hostPerform, h]

end Sys2Proof.Machine
end

