-- ==== Sys2Proof/Laws/Fetch.lean ====
section
/-! SUPPORT. The laws of fetch (spec/40_execution_cycle.md R151, R152): what the fetches of one
instruction read and where they leave PC. -/

namespace Sys2Proof.Machine

/-- A fetch that finds a byte (R151). -/
theorem fetchByte_ok {s t : State} {b : Byte} (h : fetchByte s = .ok (b, t)) :
    s.PC.toNat ≤ maxAddress ∧ b = s.mem.read s.PC.toNat ∧ t = { s with PC := s.PC + 1 } := by
  unfold fetchByte readByte at h
  split at h
  · rename_i hb
    split at hb
    · cases hb; cases h; exact ⟨by assumption, rfl, rfl⟩
    · cases hb
  · cases h

/-- A fetch beyond the memory (R151). -/
theorem fetchByte_error {s : State} {k : Fault} (h : fetchByte s = .error k) :
    maxAddress < s.PC.toNat ∧ k = .outOfRange := by
  unfold fetchByte readByte at h
  split at h
  · cases h
  · rename_i hb
    split at hb
    · cases hb
    · cases hb; cases h; exact ⟨by omega, rfl⟩

theorem fetchByte_eq {s : State} (h : s.PC.toNat ≤ maxAddress) :
    fetchByte s = .ok (s.mem.read s.PC.toNat, { s with PC := s.PC + 1 }) := by
  simp [fetchByte, readByte, h]

theorem fetchByte_eq_error {s : State} (h : maxAddress < s.PC.toNat) :
    fetchByte s = .error .outOfRange := by
  have : ¬ s.PC.toNat ≤ maxAddress := by omega
  simp [fetchByte, readByte, this]

/-- PC does not wrap at a fetch (spec/10_state.md R48). -/
theorem pc_succ {p : Word} (h : p.toNat ≤ maxAddress) : (p + 1).toNat = p.toNat + 1 := by
  have : maxAddress = 0x100000 := rfl
  have h1 : (1 : Word).toNat = 1 := rfl
  rw [BitVec.toNat_add, h1]
  omega

/-- The state after `n` fetches. -/
def State.advance (s : State) (n : Nat) : State := { s with PC := s.PC + BitVec.ofNat 24 n }

@[simp] theorem State.advance_zero (s : State) : s.advance 0 = s := by
  simp [State.advance]

theorem State.advance_succ (s : State) (n : Nat) :
    (State.advance { s with PC := s.PC + 1 } n) = s.advance (n + 1) := by
  have : s.PC + 1 + BitVec.ofNat 24 n = s.PC + BitVec.ofNat 24 (n + 1) := by
    rw [BitVec.ofNat_add, ← BitVec.add_assoc, BitVec.add_assoc, BitVec.add_comm (1 : Word),
      ← BitVec.add_assoc]
    rfl
  simp only [State.advance, this]

theorem bytesAt_succ (m : Memory) (a n : Nat) :
    bytesAt m a (n + 1) = m.read a :: bytesAt m (a + 1) n := by
  simp [bytesAt, List.range_succ_eq_map, Function.comp_def, Nat.add_assoc, Nat.add_comm 1]

@[simp] theorem bytesAt_zero (m : Memory) (a : Nat) : bytesAt m a 0 = [] := rfl

@[simp] theorem bytesAt_length (m : Memory) (a n : Nat) : (bytesAt m a n).length = n := by
  simp [bytesAt]

/-- Further fetches that all find a byte. -/
theorem fetchMore_eq (n : Nat) (bs : List Byte) (s : State)
    (h : s.PC.toNat + n ≤ maxAddress + 1) :
    fetchMore n bs s = .bytes (bs ++ bytesAt s.mem s.PC.toNat n) (s.advance n) := by
  induction n generalizing bs s with
  | zero => simp [fetchMore]
  | succ n ih =>
    have h0 : s.PC.toNat ≤ maxAddress := by omega
    have h1 := pc_succ h0
    rw [fetchMore, fetchByte_eq h0]
    simp only
    rw [ih _ _ (by show (s.PC + 1).toNat + n ≤ _; omega), State.advance_succ, bytesAt_succ]
    simp only [h1, List.append_assoc, List.singleton_append]

/-- Everything further fetches can do. -/
theorem fetchMore_cases (n : Nat) (bs : List Byte) (s : State) :
    (s.PC.toNat + n ≤ maxAddress + 1 ∨ n = 0) ∧
        fetchMore n bs s = .bytes (bs ++ bytesAt s.mem s.PC.toNat n) (s.advance n) ∨
      ∃ j < n, fetchMore n bs s = .fault .outOfRange (s.advance j) ∧
        maxAddress < (s.advance j).PC.toNat ∧ (j = 0 ∨ s.PC.toNat + j = maxAddress + 1) := by
  induction n generalizing bs s with
  | zero => exact .inl ⟨.inr rfl, by simp [fetchMore]⟩
  | succ n ih =>
    by_cases h0 : s.PC.toNat ≤ maxAddress
    · have h1 := pc_succ h0
      rw [fetchMore, fetchByte_eq h0]
      rcases ih (bs ++ [s.mem.read s.PC.toNat]) { s with PC := s.PC + 1 } with ⟨hn, h⟩ | ⟨j, hj, h, hm, hp⟩
      · refine .inl ⟨.inl ?_, ?_⟩
        · rcases hn with hn | hn
          · have : (s.PC + 1).toNat + n ≤ maxAddress + 1 := hn
            omega
          · omega
        · simp only
          rw [h, State.advance_succ, bytesAt_succ]
          simp only [h1, List.append_assoc, List.singleton_append]
      · refine .inr ⟨j + 1, by omega, ?_, ?_, .inr ?_⟩
        · simp only
          rw [h, State.advance_succ]
        · rw [State.advance_succ] at hm; exact hm
        · rw [State.advance_succ] at hm
          rcases hp with rfl | hp
          · have : s.advance 1 = { s with PC := s.PC + 1 } := rfl
            rw [Nat.zero_add, this] at hm
            have : maxAddress < (s.PC + 1).toNat := hm
            omega
          · have : (s.PC + 1).toNat + j = maxAddress + 1 := hp
            omega
    · refine .inr ⟨0, by omega, ?_, ?_, .inl rfl⟩
      · rw [fetchMore, fetchByte_eq_error (by omega)]
        simp
      · simp; omega

/-- How many bytes an instruction's fetches read after `b0` and `b1`. -/
def tailLength (b0 b1 : Byte) : Nat := (instrLength b0 b1).getD 2 - 2

/-- Everything the fetches of an instruction can do: they read its bytes in order and advance PC past
each, or stop at the first byte beyond the memory (R151, R152, R154). -/
theorem fetchInstr_cases (s : State) :
    (∃ n, 1 ≤ n ∧ n ≤ 4 ∧ s.PC.toNat + n ≤ maxAddress + 1 ∧
        fetchInstr s = .bytes (bytesAt s.mem s.PC.toNat n) (s.advance n)) ∨
      ∃ j < 4, fetchInstr s = .fault .outOfRange (s.advance j) ∧
        (j = 0 ∧ maxAddress < s.PC.toNat ∨ s.PC.toNat + j = maxAddress + 1) := by
  by_cases h0 : s.PC.toNat ≤ maxAddress
  · have h1 := pc_succ h0
    unfold fetchInstr
    rw [fetchByte_eq h0]
    simp only
    split
    · exact .inl ⟨1, by omega, by omega, by omega, by rw [bytesAt_succ]; rfl⟩
    · by_cases h2 : s.PC.toNat + 1 ≤ maxAddress
      · have h2' : (State.PC { s with PC := s.PC + 1 }).toNat ≤ maxAddress := by
          show (s.PC + 1).toNat ≤ _; omega
        rw [fetchByte_eq h2']
        simp only
        have h3 := pc_succ h2'
        have hle : ∀ b0 b1, (instrLength b0 b1).getD 2 - 2 ≤ 2 := by
          intro b0 b1
          unfold instrLength
          repeat' split
          all_goals simp
        generalize hk : (instrLength (s.mem.read s.PC.toNat) (s.mem.read (s.PC + 1).toNat)).getD 2 - 2 = k
        have hk2 : k ≤ 2 := hk ▸ hle _ _
        rcases fetchMore_cases k [s.mem.read s.PC.toNat, s.mem.read (s.PC + 1).toNat]
          { s with PC := s.PC + 1 + 1 } with ⟨hn, h⟩ | ⟨j, hj, h, hm, hp⟩
        · refine .inl ⟨k + 2, by omega, by omega, ?_, ?_⟩
          · rcases hn with hn | hn
            · have : (s.PC + 1 + 1).toNat + k ≤ maxAddress + 1 := hn
              have h3 : (s.PC + 1 + 1).toNat = (s.PC + 1).toNat + 1 := h3
              omega
            · omega
          · have h3 : (s.PC + 1 + 1).toNat = (s.PC + 1).toNat + 1 := h3
            rw [h, bytesAt_succ, bytesAt_succ, h1]
            have ha := State.advance_succ { s with PC := s.PC + 1 } k
            have hb := State.advance_succ s (k + 1)
            simp only at ha
            rw [ha, hb]
            show Fetched.bytes (_ ++ bytesAt s.mem (s.PC + 1 + 1).toNat k) _ = _
            rw [h3, h1]
            rfl
        · refine .inr ⟨j + 2, by omega, ?_, .inr ?_⟩
          · rw [h]
            have ha := State.advance_succ { s with PC := s.PC + 1 } j
            have hb := State.advance_succ s (j + 1)
            simp only at ha
            rw [ha, hb]
          · have h3 : (s.PC + 1 + 1).toNat = (s.PC + 1).toNat + 1 := h3
            rcases hp with rfl | hp
            · have hm : maxAddress < (State.advance { s with PC := s.PC + 1 + 1 } 0).PC.toNat := hm
              rw [State.advance_zero] at hm
              have hm : maxAddress < (s.PC + 1 + 1).toNat := hm
              omega
            · have hp : (s.PC + 1 + 1).toNat + j = maxAddress + 1 := hp
              omega
      · have h2' : maxAddress < (State.PC { s with PC := s.PC + 1 }).toNat := by
          show _ < (s.PC + 1).toNat; omega
        rw [fetchByte_eq_error h2']
        exact .inr ⟨1, by omega, rfl, .inr (by omega)⟩
  · refine .inr ⟨0, by omega, ?_, .inl ⟨rfl, by omega⟩⟩
    unfold fetchInstr
    rw [fetchByte_eq_error (by omega)]
    simp

end Sys2Proof.Machine
end

