-- ==== Sys2Proof/Laws/Memory.lean ====
section
/-! SUPPORT. The laws of memory: every operation keeps the canonical form; a byte read after a store
is the byte stored, and every other byte is as before (spec/20_memory.md R82 to R88, R93). -/

namespace Sys2Proof.Machine

theorem Memory.wf_nil : Memory.wf [] := ⟨List.Pairwise.nil, by simp⟩

theorem Memory.wf_tail {c : Host.Cell} {m : Memory} (h : Memory.wf (c :: m)) : Memory.wf m :=
  ⟨h.1.tail, fun d hd => h.2 d (List.mem_cons_of_mem _ hd)⟩

theorem Memory.wf_lt {c : Host.Cell} {m : Memory} (h : Memory.wf (c :: m)) : ∀ d ∈ m, c.1 < d.1 :=
  (List.pairwise_cons.1 h.1).1

/-- An address below every entry is not listed. -/
theorem Memory.read_of_lt {m : Memory} {a : Nat} (h : ∀ c ∈ m, a < c.1) :
    m.read a = unlistedByte := by
  induction m with
  | nil => rfl
  | cons c m ih =>
    have hc := h c (by simp)
    have : c.1 ≠ a := by omega
    simp only [Memory.read, this, if_false]
    exact ih fun d hd => h d (List.mem_cons_of_mem _ hd)

/-- The entries of a memory after a store: the byte stored, or an entry of before. -/
theorem Memory.mem_write {m : Memory} {a : Nat} {v : Byte} {c : Host.Cell} (h : c ∈ m.write a v) :
    (c = (a, v) ∧ v ≠ unlistedByte) ∨ c ∈ m := by
  induction m with
  | nil =>
    simp only [Memory.write, Memory.entry] at h
    split at h <;> simp_all
  | cons d m ih =>
    simp only [Memory.write] at h
    split at h
    · simp only [Memory.entry] at h
      split at h <;> simp_all
    · split at h
      · simp only [Memory.entry] at h
        split at h
        · exact .inr (List.mem_cons_of_mem _ h)
        · rcases List.mem_cons.1 h with h | h
          · exact .inl ⟨h, by assumption⟩
          · exact .inr (List.mem_cons_of_mem _ h)
      · rcases List.mem_cons.1 h with h | h
        · exact .inr (by simp [h])
        · rcases ih h with h | h
          · exact .inl h
          · exact .inr (List.mem_cons_of_mem _ h)

/-- An entry put before a memory of higher addresses keeps the form. -/
theorem Memory.wf_entry {m : Memory} {a : Nat} {v : Byte} (hm : m.wf) (ha : a ≤ maxAddress)
    (hlt : ∀ c ∈ m, a < c.1) : (Memory.entry a v m).wf := by
  unfold Memory.entry
  split
  · exact hm
  · rename_i hv
    refine ⟨List.pairwise_cons.2 ⟨hlt, hm.1⟩, fun c hc => ?_⟩
    rcases List.mem_cons.1 hc with rfl | hc
    · exact ⟨ha, hv⟩
    · exact hm.2 c hc

/-- A store keeps the canonical form. -/
theorem Memory.wf_write {m : Memory} {a : Nat} (v : Byte) (hm : m.wf) (ha : a ≤ maxAddress) :
    (m.write a v).wf := by
  induction m with
  | nil => exact Memory.wf_entry Memory.wf_nil ha (by simp)
  | cons c m ih =>
    have hlt := Memory.wf_lt hm
    simp only [Memory.write]
    split
    · rename_i h
      refine Memory.wf_entry hm ha fun d hd => ?_
      rcases List.mem_cons.1 hd with rfl | hd
      · exact h
      · exact lt_trans h (hlt d hd)
    · split
      · rename_i h; subst h
        exact Memory.wf_entry (Memory.wf_tail hm) ha hlt
      · have ih := ih (Memory.wf_tail hm)
        refine ⟨List.pairwise_cons.2 ⟨fun d hd => ?_, ih.1⟩, fun d hd => ?_⟩
        · rcases Memory.mem_write hd with ⟨rfl, -⟩ | hd
          · show c.1 < a
            omega
          · exact hlt d hd
        · rcases List.mem_cons.1 hd with rfl | hd
          · exact hm.2 _ (by simp)
          · exact ih.2 d hd

/-- Reading back an entry put before a memory of higher addresses. -/
theorem Memory.read_entry {m : Memory} {a : Nat} {v : Byte} (hlt : ∀ c ∈ m, a < c.1) (b : Nat) :
    (Memory.entry a v m).read b = if a = b then v else m.read b := by
  unfold Memory.entry
  split
  · rename_i hv
    split
    · rename_i hab; subst hab
      rw [Memory.read_of_lt hlt, hv]
    · rfl
  · rfl

/-- What every byte reads as after a store. -/
theorem Memory.read_write {m : Memory} (hm : m.wf) (a : Nat) (v : Byte) (b : Nat) :
    (m.write a v).read b = if a = b then v else m.read b := by
  induction m with
  | nil => exact Memory.read_entry (by simp) b
  | cons c m ih =>
    have hlt := Memory.wf_lt hm
    obtain ⟨k, w⟩ := c
    simp only [Memory.write]
    split
    · rename_i h
      refine Memory.read_entry (fun d hd => ?_) b
      rcases List.mem_cons.1 hd with rfl | hd
      · exact h
      · exact lt_trans h (hlt d hd)
    · split
      · rename_i h; subst h
        rw [Memory.read_entry hlt b]
        simp only [Memory.read]
        split <;> rfl
      · simp only [Memory.read, ih (Memory.wf_tail hm)]
        by_cases hk : k = b
        · subst hk
          have : a ≠ k := by omega
          simp [this]
        · simp [hk]

theorem Memory.read_write_same {m : Memory} (hm : m.wf) (a : Nat) (v : Byte) :
    (m.write a v).read a = v := by rw [Memory.read_write hm, if_pos rfl]

theorem Memory.read_write_other {m : Memory} (hm : m.wf) {a b : Nat} (v : Byte) (h : a ≠ b) :
    (m.write a v).read b = m.read b := by rw [Memory.read_write hm, if_neg h]

/-! The accessors -/

/-- Everything a byte store can do (R84). -/
theorem writeByte_ok {m m' : Memory} {a : Nat} {v : Byte} (h : writeByte m a v = .ok m') :
    a ≤ maxAddress ∧ m' = m.write a v := by
  unfold writeByte at h
  split at h
  · cases h; exact ⟨by assumption, rfl⟩
  · cases h

theorem writeByte_error {m : Memory} {a : Nat} {v : Byte} {k : Fault}
    (h : writeByte m a v = .error k) : k = .outOfRange ∧ maxAddress < a := by
  unfold writeByte at h
  split at h
  · cases h
  · cases h; exact ⟨rfl, by omega⟩

/-- Everything a word store can do (R86). -/
theorem writeWord_ok {m m' : Memory} {a : Nat} {v : Word} (h : writeWord m a v = .ok m') :
    a + 2 ≤ maxAddress ∧
      m' = ((m.write a (v.extractLsb' 16 8)).write (a + 1) (v.extractLsb' 8 8)).write (a + 2)
        (v.extractLsb' 0 8) := by
  unfold writeWord wordBytes at h
  split at h
  · cases h; exact ⟨by assumption, rfl⟩
  · cases h

theorem writeWord_error {m : Memory} {a : Nat} {v : Word} {k : Fault}
    (h : writeWord m a v = .error k) : k = .outOfRange ∧ maxAddress < a + 2 := by
  unfold writeWord at h
  split at h
  · cases h
  · cases h; exact ⟨rfl, by omega⟩

theorem readByte_error {m : Memory} {a : Nat} {k : Fault} (h : readByte m a = .error k) :
    k = .outOfRange ∧ maxAddress < a := by
  unfold readByte at h
  split at h
  · cases h
  · cases h; exact ⟨rfl, by omega⟩

theorem readByte_ok {m : Memory} {a : Nat} {b : Byte} (h : readByte m a = .ok b) :
    a ≤ maxAddress ∧ b = m.read a := by
  unfold readByte at h
  split at h
  · cases h; exact ⟨by assumption, rfl⟩
  · cases h

theorem readWord_error {m : Memory} {a : Nat} {k : Fault} (h : readWord m a = .error k) :
    k = .outOfRange ∧ maxAddress < a + 2 := by
  unfold readWord at h
  split at h
  · cases h
  · cases h; exact ⟨rfl, by omega⟩

theorem writeByte_wf {m m' : Memory} {a : Nat} {v : Byte} (hm : m.wf)
    (h : writeByte m a v = .ok m') : m'.wf := by
  obtain ⟨ha, rfl⟩ := writeByte_ok h
  exact Memory.wf_write v hm ha

theorem writeWord_wf {m m' : Memory} {a : Nat} {v : Word} (hm : m.wf)
    (h : writeWord m a v = .ok m') : m'.wf := by
  obtain ⟨ha, rfl⟩ := writeWord_ok h
  exact Memory.wf_write _ (Memory.wf_write _ (Memory.wf_write _ hm (by omega)) (by omega)) ha

/-- What every byte reads as after a word store (R86, R88). -/
theorem writeWord_read {m m' : Memory} {a : Nat} {v : Word} (hm : m.wf)
    (h : writeWord m a v = .ok m') (b : Nat) :
    m'.read b = if b = a then v.extractLsb' 16 8 else if b = a + 1 then v.extractLsb' 8 8
      else if b = a + 2 then v.extractLsb' 0 8 else m.read b := by
  obtain ⟨ha, rfl⟩ := writeWord_ok h
  have h1 := Memory.wf_write (v.extractLsb' 16 8) hm (show a ≤ maxAddress by omega)
  have h2 := Memory.wf_write (v.extractLsb' 8 8) h1 (show a + 1 ≤ maxAddress by omega)
  rw [Memory.read_write h2, Memory.read_write h1, Memory.read_write hm]
  by_cases e0 : b = a
  · simp [e0]
  · by_cases e1 : b = a + 1
    · simp [e1]
    · by_cases e2 : b = a + 2
      · simp [e2]
      · simp [e0, e1, e2, Ne.symm e0, Ne.symm e1, Ne.symm e2]

/-- The bytes of a word, put together again, are the word. -/
theorem word_of_bytes (v : Word) :
    (v.extractLsb' 16 8 ++ v.extractLsb' 8 8 ++ v.extractLsb' 0 8 : Word) = v := by
  apply BitVec.eq_of_getLsbD_eq
  intro i hi
  simp only [BitVec.getLsbD_append, BitVec.getLsbD_extractLsb']
  by_cases h8 : i < 8
  · simp [h8]
  · by_cases h16 : i - 8 < 8
    · have h9 : 8 + (i - 8) = i := by omega
      simp [h8, h16, h9]
    · have h9 : 16 + (i - 8 - 8) = i := by omega
      have h10 : i - 8 - 8 < 8 := by omega
      simp [h8, h16, h9, h10]

theorem placeBytes_wf {m : Memory} (hm : m.wf) (a : Nat) (bs : List Byte) :
    (placeBytes m a bs).wf := by
  induction bs generalizing m a with
  | nil => exact hm
  | cons b bs ih =>
    simp only [placeBytes]
    split
    · exact ih (Memory.wf_write b hm (by assumption)) _
    · exact ih hm _

theorem writeTexts_wf {m : Memory} (hm : m.wf) (ts : List (Nat × List Byte)) :
    (writeTexts m ts).wf := by
  induction ts generalizing m with
  | nil => exact hm
  | cons t ts ih => exact ih (placeBytes_wf hm _ _)

theorem reset_mem_wf : State.reset.mem.wf := Memory.wf_nil

end Sys2Proof.Machine
end

