-- ==== Sys2Proof/Laws/Loader.lean ====
section
/-! SUPPORT. The laws of the loader (spec/70_reset_and_hazards.md R440 to R448): a number written in
hex is read back, what every byte reads as after a load, and that a module's T
records lie in the memory. -/

namespace Sys2Proof.Machine

/-! Hex fields and lines, written and read -/

theorem hexDigit_hexChar : ∀ d < 16, hexDigit (hexChar d) = some d := by decide

/-- A character that is no hex character is no digit (R440). -/
theorem hexDigit_of_not_isHexChar {c : Byte} (h : isHexChar c = false) : hexDigit c = none := by
  revert h
  revert c
  decide

theorem hexChar_ne_line_end : ∀ d < 16, hexChar d ≠ 0x0A ∧ hexChar d ≠ 0x0D := by decide

@[simp] theorem hexChars_length (width n : Nat) : (hexChars width n).length = width := by
  induction width generalizing n with
  | zero => rfl
  | succ width ih => simp [hexChars, ih]

theorem hexNumber_append (acc : Nat) (xs ys : List Byte) :
    hexNumber acc (xs ++ ys) = (hexNumber acc xs).bind (fun b => hexNumber b ys) := by
  induction xs generalizing acc with
  | nil => rfl
  | cons c xs ih =>
    simp only [List.cons_append, hexNumber]
    cases hexDigit c <;> simp [ih]

/-- A number written with enough digits is read back. -/
theorem hexNumber_hexChars {width n : Nat} (acc : Nat) (h : n < 16 ^ width) :
    hexNumber acc (hexChars width n) = some (acc * 16 ^ width + n) := by
  induction width generalizing n with
  | zero => simp at h; subst h; simp [hexChars, hexNumber]
  | succ width ih =>
    rw [hexChars, hexNumber_append, ih (by rw [pow_succ] at h; omega)]
    simp only [Option.bind_some, hexNumber, hexDigit_hexChar _ (Nat.mod_lt n (by norm_num))]
    congr 1
    rw [pow_succ]
    ring_nf
    omega

/-- The field of a line in the columns where a number is written. -/
theorem hexField_hexChars {before after : List Byte} {col width n : Nat}
    (hc : before.length = col - 1) (hn : n < 16 ^ width) :
    hexField (before ++ hexChars width n ++ after) col width = some n := by
  have h : ((before ++ hexChars width n ++ after).drop (col - 1)).take width =
      hexChars width n := by
    rw [← hc, List.append_assoc, List.drop_left, List.take_append_of_le_length,
      List.take_of_length_le]
    all_goals simp
  simp only [hexField, columns, h, hexChars_length, if_true, Option.bind_some,
    hexNumber_hexChars 0 hn]
  simp

/-- A newline ends a line. -/
theorem splitLines_newline {line : List Byte} (rest : List Byte) (h : (0x0A : Byte) ∉ line) :
    splitLines (line ++ 0x0A :: rest) = line :: splitLines rest := by
  induction line with
  | nil => simp [splitLines]
  | cons c line ih =>
    simp only [List.mem_cons, not_or] at h
    simp only [List.cons_append, splitLines]
    rw [if_neg (Ne.symm h.1), ih h.2]

/-! What a load writes -/

/-- What every byte reads as after some bytes are placed. -/
theorem placeBytes_read {m : Memory} (hm : m.wf) (a : Nat) (bs : List Byte) (b : Nat) :
    (placeBytes m a bs).read b =
      if a ≤ b ∧ b < a + bs.length ∧ b ≤ maxAddress then bs.getD (b - a) 0 else m.read b := by
  induction bs generalizing m a with
  | nil =>
    have : ¬ (a ≤ b ∧ b < a + 0 ∧ b ≤ maxAddress) := by omega
    simp only [placeBytes, List.length_nil, this, if_false]
  | cons c bs ih =>
    simp only [placeBytes, List.length_cons]
    have key : ∀ m' : Memory, m'.wf → (∀ b, m'.read b = if a = b ∧ b ≤ maxAddress then c
        else m.read b) → (placeBytes m' (a + 1) bs).read b = if a ≤ b ∧ b < a + (bs.length + 1) ∧
          b ≤ maxAddress then (c :: bs).getD (b - a) 0 else m.read b := by
      intro m' hm' hr
      rw [ih hm', hr]
      by_cases hb : a = b
      · subst hb
        have h1 : ¬ (a + 1 ≤ a ∧ a < a + 1 + bs.length ∧ a ≤ maxAddress) := by omega
        simp only [h1, if_false, true_and, Nat.le_refl, Nat.sub_self, List.getD_cons_zero]
        by_cases h2 : a ≤ maxAddress
        · have h3 : a < a + (bs.length + 1) := by omega
          simp [h2, h3]
        · simp [h2]
      · by_cases h1 : a + 1 ≤ b ∧ b < a + 1 + bs.length ∧ b ≤ maxAddress
        · have h2 : a ≤ b ∧ b < a + (bs.length + 1) ∧ b ≤ maxAddress := by omega
          have h3 : b - a = b - (a + 1) + 1 := by omega
          rw [if_pos h1, if_pos h2, h3, List.getD_cons_succ]
        · have h2 : ¬ (a ≤ b ∧ b < a + (bs.length + 1) ∧ b ≤ maxAddress) := by omega
          simp only [h1, h2, if_false, hb, false_and]
    split
    · rename_i ha
      refine key _ (Memory.wf_write c hm ha) (fun b => ?_)
      rw [Memory.read_write hm]
      by_cases hb : a = b
      · subst hb; simp [ha]
      · simp [hb]
    · rename_i ha
      refine key _ hm (fun b => ?_)
      have : ¬ (a = b ∧ b ≤ maxAddress) := by rintro ⟨rfl, h⟩; exact ha h
      simp [this]

/-- A byte that no T record names reads as before (R447). -/
theorem writeTexts_read_other {m : Memory} (hm : m.wf) {ts : List (Nat × List Byte)} {a : Nat}
    (h : ∀ p ∈ ts, a < p.1 ∨ p.1 + p.2.length ≤ a) : (writeTexts m ts).read a = m.read a := by
  induction ts generalizing m with
  | nil => rfl
  | cons p ts ih =>
    rw [writeTexts, ih (placeBytes_wf hm _ _) (fun q hq => h q (List.mem_cons_of_mem _ hq)),
      placeBytes_read hm]
    have := h p List.mem_cons_self
    rw [if_neg (by omega)]

/-- Every byte of a T record has an address of the memory (R442). -/
theorem textRecord_bound {line : List Byte} {addr : Nat} {bytes : List Byte}
    (h : textRecord line = some (.text addr bytes)) :
    bytes = [] ∨ addr + bytes.length ≤ maxAddress + 1 := by
  have hlen : ∀ (k col : Nat) (bs : List Byte), hexBytes line col k = some bs → bs.length = k := by
    intro k
    induction k with
    | zero => intro col bs h; cases h; rfl
    | succ k ih =>
      intro col bs h
      simp only [hexBytes, Option.bind_eq_bind, Option.bind_eq_some_iff] at h
      obtain ⟨v, -, rest, hr, h⟩ := h
      cases h
      simp [ih _ _ hr]
  simp only [textRecord, Option.bind_eq_bind, Option.bind_eq_some_iff] at h
  obtain ⟨a, -, k, -, bs, hb, h⟩ := h
  have hk := hlen _ _ _ hb
  split at h
  · cases h
    rcases (by assumption : k = 0 ∨ addr + k - 1 ≤ maxAddress) with h0 | h0
    · exact .inl (List.length_eq_zero_iff.1 (by omega))
    · rcases Nat.eq_zero_or_pos k with h1 | h1
      · exact .inl (List.length_eq_zero_iff.1 (by omega))
      · right; omega
  · cases h

/-- A line that is read as a T record is one. -/
theorem parseRecord_text {line : List Byte} {addr : Nat} {bytes : List Byte}
    (h : parseRecord line = some (.text addr bytes)) :
    textRecord line = some (.text addr bytes) := by
  unfold parseRecord at h
  split at h
  · cases h
  · repeat' split at h
    all_goals first
      | exact h
      | cases h
      | (simp [headerRecord, modificationRecord, endRecord, Option.bind_eq_some_iff] at h)

/-- The T records of a module lie in the memory. -/
theorem parseRecords_bound {lines : List (List Byte)} {image : Image}
    (h : parseRecords lines = some image) :
    ∀ p ∈ image.texts, p.2 = [] ∨ p.1 + p.2.length ≤ maxAddress + 1 := by
  induction lines generalizing image with
  | nil => cases h
  | cons line lines ih =>
    unfold parseRecords at h
    split at h
    · cases h
    · cases h; simp
    · exact ih h
    · rename_i addr bytes hr
      split at h
      · rename_i image' hi
        cases h
        intro p hp
        rcases List.mem_cons.1 hp with rfl | hp
        · exact textRecord_bound (parseRecord_text hr)
        · exact ih hi p hp
      · cases h

theorem parseModule_bound {text : List Byte} {image : Image} (h : parseModule text = some image) :
    ∀ p ∈ image.texts, p.2 = [] ∨ p.1 + p.2.length ≤ maxAddress + 1 := by
  unfold parseModule at h
  split at h
  · cases h
  · split at h
    · exact parseRecords_bound h
    · cases h

end Sys2Proof.Machine
end

