-- ==== Sys2Proof/Laws/Meanings.lean ====
section
/-! SUPPORT. For each shared shape of a meaning, everything its next state can be; the proofs about
instructions cite these instead of unfolding the shape. -/

namespace Sys2Proof.Machine

theorem next_inj {s t : State} (h : (Host.Outcome.next s : Answer) = .next t) : s = t := by
  cases h; rfl

/-- An instruction that replaces A (spec/41_arith_logic_compare.md). -/
theorem accumulate_next {f : Word → Word → Except Fault Word} {m : MemOperand} {s t : State}
    (h : accumulate f m s = .next t) :
    (∃ v a, operandWord s m = .ok v ∧ f s.A v = .ok a ∧ t = { s with A := a }) ∨
      ∃ k, t = s.raise k ∧ (operandWord s m = .error k ∨
        ∃ v, operandWord s m = .ok v ∧ f s.A v = .error k) := by
  have h := next_inj h
  cases ho : operandWord s m with
  | error k => rw [ho] at h; exact .inr ⟨k, h.symm, .inl rfl⟩
  | ok v =>
    rw [ho] at h
    cases hf : f s.A v with
    | error k =>
      simp only [except_bind_ok, hf, except_bind_error, State.commit_error] at h
      exact .inr ⟨k, h.symm, .inr ⟨v, rfl, hf⟩⟩
    | ok a =>
      simp only [except_bind_ok, hf, State.commit_ok] at h
      exact .inl ⟨v, a, rfl, hf, h.symm⟩

/-- A word load (spec/43_load_store.md R250). -/
theorem loadWord_next {r : Reg} {m : MemOperand} {s t : State} (hr : r ≠ .SW)
    (h : loadWord r m s = .next t) :
    (∃ v, operandWord s m = .ok v ∧ t = s.put r v) ∨
      ∃ k, operandWord s m = .error k ∧ t = s.raise k := by
  have h := next_inj h
  cases ho : operandWord s m with
  | error k => rw [ho] at h; exact .inr ⟨k, rfl, h.symm⟩
  | ok v =>
    rw [ho] at h
    simp only [except_bind_ok, State.set_of_ne_SW s v hr, State.commit_ok] at h
    exact .inl ⟨v, rfl, h.symm⟩

/-- A word store (R251). -/
theorem storeWord_next {v : Word} {m : MemOperand} {s t : State} (h : storeWord v m s = .next t) :
    (∃ ea m', effectiveAddress s m = .ok ea ∧ writeWord s.mem ea.toNat v = .ok m' ∧
        t = { s with mem := m' }) ∨
      ∃ k, t = s.raise k ∧ (effectiveAddress s m = .error k ∨
        ∃ ea, effectiveAddress s m = .ok ea ∧ writeWord s.mem ea.toNat v = .error k) := by
  have h := next_inj h
  cases ho : effectiveAddress s m with
  | error k => rw [ho] at h; exact .inr ⟨k, h.symm, .inl rfl⟩
  | ok ea =>
    rw [ho] at h
    cases hw : writeWord s.mem ea.toNat v with
    | error k =>
      simp only [except_bind_ok, hw, except_bind_error, State.commit_error] at h
      exact .inr ⟨k, h.symm, .inr ⟨ea, rfl, hw⟩⟩
    | ok m' =>
      simp only [except_bind_ok, hw, State.commit_ok] at h
      exact .inl ⟨ea, m', rfl, hw, h.symm⟩

/-- STCH (R269). -/
theorem execStch_next {m : MemOperand} {s t : State} (h : execStch m s = .next t) :
    (∃ ea m', effectiveAddress s m = .ok ea ∧ writeByte s.mem ea.toNat (lowByte s.A) = .ok m' ∧
        t = { s with mem := m' }) ∨
      ∃ k, t = s.raise k ∧ (effectiveAddress s m = .error k ∨
        ∃ ea, effectiveAddress s m = .ok ea ∧ writeByte s.mem ea.toNat (lowByte s.A) = .error k) := by
  have h := next_inj h
  cases ho : effectiveAddress s m with
  | error k => rw [ho] at h; exact .inr ⟨k, h.symm, .inl rfl⟩
  | ok ea =>
    rw [ho] at h
    cases hw : writeByte s.mem ea.toNat (lowByte s.A) with
    | error k =>
      simp only [except_bind_ok, hw, except_bind_error, State.commit_error] at h
      exact .inr ⟨k, h.symm, .inr ⟨ea, rfl, hw⟩⟩
    | ok m' =>
      simp only [except_bind_ok, hw, State.commit_ok] at h
      exact .inl ⟨ea, m', rfl, hw, h.symm⟩

/-- LDCH (R260). -/
theorem execLdch_next {m : MemOperand} {s t : State} (h : execLdch m s = .next t) :
    (∃ c, operandByte s m = .ok c ∧ t = { s with A := withLowByte s.A c }) ∨
      ∃ k, operandByte s m = .error k ∧ t = s.raise k := by
  have h := next_inj h
  cases ho : operandByte s m with
  | error k => rw [ho] at h; exact .inr ⟨k, rfl, h.symm⟩
  | ok c => rw [ho] at h; exact .inl ⟨c, rfl, h.symm⟩

/-- COMP (spec/41_arith_logic_compare.md R220). -/
theorem execComp_next {m : MemOperand} {s t : State} (h : execComp m s = .next t) :
    (∃ v, operandWord s m = .ok v ∧ t = { s with SW := compareWords s.A v }) ∨
      ∃ k, operandWord s m = .error k ∧ t = s.raise k := by
  have h := next_inj h
  cases ho : operandWord s m with
  | error k => rw [ho] at h; exact .inr ⟨k, rfl, h.symm⟩
  | ok v => rw [ho] at h; exact .inl ⟨v, rfl, h.symm⟩

/-- TIX (R222). -/
theorem execTix_next {m : MemOperand} {s t : State} (h : execTix m s = .next t) :
    (∃ v, operandWord s m = .ok v ∧
        t = { s with X := s.X + 1, SW := compareWords (s.X + 1) v }) ∨
      ∃ k, operandWord s m = .error k ∧ t = s.raise k := by
  have h := next_inj h
  cases ho : operandWord s m with
  | error k => rw [ho] at h; exact .inr ⟨k, rfl, h.symm⟩
  | ok v => rw [ho] at h; exact .inl ⟨v, rfl, h.symm⟩

/-- J, JEQ, JGT, JLT (spec/42_jumps.md R231). -/
theorem jumpIf_next {taken : Word → Bool} {m : MemOperand} {s t : State}
    (h : jumpIf taken m s = .next t) :
    (∃ ea, effectiveAddress s m = .ok ea ∧ t = if taken s.SW then { s with PC := ea } else s) ∨
      ∃ k, effectiveAddress s m = .error k ∧ t = s.raise k := by
  have h := next_inj h
  cases ho : effectiveAddress s m with
  | error k => rw [ho] at h; exact .inr ⟨k, rfl, h.symm⟩
  | ok ea => rw [ho] at h; exact .inl ⟨ea, rfl, h.symm⟩

/-- JSUB (R236). -/
theorem execJsub_next {m : MemOperand} {s t : State} (h : execJsub m s = .next t) :
    (∃ ea, effectiveAddress s m = .ok ea ∧ t = { s with L := s.PC, PC := ea }) ∨
      ∃ k, effectiveAddress s m = .error k ∧ t = s.raise k := by
  have h := next_inj h
  cases ho : effectiveAddress s m with
  | error k => rw [ho] at h; exact .inr ⟨k, rfl, h.symm⟩
  | ok ea => rw [ho] at h; exact .inl ⟨ea, rfl, h.symm⟩

/-- RSUB (R237). -/
theorem execRsub_next {m : MemOperand} {s t : State} (h : execRsub m s = .next t) :
    (∃ ta, targetAddress s m = .ok ta ∧ t = { s with PC := s.L }) ∨
      ∃ k, targetAddress s m = .error k ∧ t = s.raise k := by
  have h := next_inj h
  cases ho : targetAddress s m with
  | error k => rw [ho] at h; exact .inr ⟨k, rfl, h.symm⟩
  | ok ta => rw [ho] at h; exact .inl ⟨ta, rfl, h.symm⟩

/-- A Format-2 instruction on two registers (spec/45_register_ops.md R311). -/
theorem combine_next {f : Word → Word → Except Fault Word} {r1 r2 : RegField} {s t : State}
    (h : combine f r1 r2 s = .next t) :
    (∃ a d v, r1 = .reg a ∧ r2 = .reg d ∧ f (s.get d) (s.get a) = .ok v ∧
        (d = .SW → legalCode v = true) ∧ t = s.put d v) ∨ ∃ k, t = s.raise k := by
  have h := next_inj h
  rcases State.commit_cases h with hok | ⟨k, -, hk⟩
  · obtain ⟨a, ha, hok⟩ := except_bind_eq_ok hok
    obtain ⟨d, hd, hok⟩ := except_bind_eq_ok hok
    obtain ⟨v, hv, hok⟩ := except_bind_eq_ok hok
    obtain ⟨ht, hl⟩ := State.set_ok hok
    cases r1 with
    | invalid _ => cases ha
    | reg a' =>
      cases r2 with
      | invalid _ => cases hd
      | reg d' => cases ha; cases hd; exact .inl ⟨a, d, v, rfl, rfl, hv, hl, ht⟩
  · exact .inr ⟨k, hk⟩

/-- A Format-2 instruction on one register (R311). -/
theorem update_next {f : Word → Word} {r1 : RegField} {s t : State}
    (h : update f r1 s = .next t) :
    (∃ r, r1 = .reg r ∧ (r = .SW → legalCode (f (s.get r)) = true) ∧ t = s.put r (f (s.get r))) ∨
      ∃ k, t = s.raise k := by
  have h := next_inj h
  rcases State.commit_cases h with hok | ⟨k, -, hk⟩
  · obtain ⟨r, hr, hok⟩ := except_bind_eq_ok hok
    obtain ⟨ht, hl⟩ := State.set_ok hok
    cases r1 with
    | invalid _ => cases hr
    | reg r' => cases hr; exact .inl ⟨r, rfl, hl, ht⟩
  · exact .inr ⟨k, hk⟩

/-- COMPR (R318). -/
theorem execCompr_next {r1 r2 : RegField} {s t : State} (h : execCompr r1 r2 s = .next t) :
    (∃ a b, r1 = .reg a ∧ r2 = .reg b ∧
        t = { s with SW := compareWords (s.get a) (s.get b) }) ∨ t = s.raise .invalidRegister := by
  have h := next_inj h
  cases r1 with
  | invalid _ => exact .inr h.symm
  | reg a =>
    cases r2 with
    | invalid _ => exact .inr h.symm
    | reg b => exact .inl ⟨a, b, rfl, rfl, h.symm⟩

/-- TIXR (R324). -/
theorem execTixr_next {r1 : RegField} {s t : State} (h : execTixr r1 s = .next t) :
    (∃ r, r1 = .reg r ∧
        t = { s with X := s.X + 1,
                     SW := compareWords (s.X + 1) (State.get { s with X := s.X + 1 } r) }) ∨
      t = s.raise .invalidRegister := by
  have h := next_inj h
  cases r1 with
  | invalid _ => exact .inr h.symm
  | reg r => exact .inl ⟨r, rfl, h.symm⟩

/-- The unimplemented instructions (spec/46_unimplemented.md). -/
theorem unimplemented_next {s t : State} (h : unimplemented s = .next t) :
    t = s.raise .unimplementedOpcode := (next_inj h).symm

/-- An instruction on a device (spec/44_device_io.md R295). -/
theorem withDevice_cases (f : DeviceId → State → State) (m : MemOperand) (s : State) :
    (∃ d, operandDevice s m = .ok d ∧ withDevice f m s = f d s) ∨
      ∃ k, operandDevice s m = .error k ∧ withDevice f m s = s.raise k := by
  unfold withDevice
  cases h : operandDevice s m with
  | ok d => exact .inl ⟨d, rfl, rfl⟩
  | error k => exact .inr ⟨k, rfl, rfl⟩

/-- The results of a comparison are legal codes (spec/10_state.md R50). -/
theorem legalCode_cmp (a b : Int) : legalCode (cmp a b) = true := by
  unfold cmp
  split
  · rfl
  · split <;> rfl

theorem legalCode_compareWords (a b : Word) : legalCode (compareWords a b) = true :=
  legalCode_cmp _ _

end Sys2Proof.Machine
end

