-- ==== Sys2Proof/Laws/Operands.lean ====
section
/-! SUPPORT. What the shared operand operations can answer (spec/40_execution_cycle.md R160 to R174):
which faults they raise, and their value by addressing mode. -/

namespace Sys2Proof.Machine

/-- The faults of address formation (spec/60_exceptions.md R371, R373, R374). -/
abbrev Fault.ofAddress (k : Fault) : Prop :=
  k = .outOfRange ∨ k = .badAddressingMode ∨ k = .invalidAddressing

/-- The faults of a target address (R160). -/
theorem targetAddress_error {s : State} {m : MemOperand} {k : Fault}
    (h : targetAddress s m = .error k) : k.ofAddress := by
  unfold targetAddress at h
  cases hb : baseAddress s m with
  | error k' =>
    rw [hb] at h
    cases h
    cases m <;> simp only [baseAddress] at hb <;> (repeat' split at hb) <;> cases hb
    all_goals exact .inr (.inl rfl)
  | ok b =>
    rw [hb] at h
    simp only [except_bind_ok] at h
    by_cases hx : indexed m
    · by_cases hi : indexable m
      · simp only [hx, hi, if_true] at h
        split at h <;> cases h
        exact .inl rfl
      · rw [if_pos hx, if_neg hi] at h
        cases h
        exact .inr (.inr rfl)
    · rw [if_neg hx] at h
      split at h <;> cases h
      exact .inl rfl

/-- The word operand, given the target address, by mode (R170, R174). -/
theorem operandWord_ok_target {s : State} {m : MemOperand} {ta : Word}
    (h : targetAddress s m = .ok ta) :
    operandWord s m = match modeOfOperand m with
      | some .immediate => .ok ta
      | some .indirect => do
        let pointer ← readWord s.mem ta.toNat
        readWord s.mem pointer.toNat
      | some .simple => readWord s.mem ta.toNat
      | none => readWord s.mem ta.toNat := by
  rw [operandWord, h]
  rfl

/-- The effective address, given the target address, by mode (R171). -/
theorem effectiveAddress_ok_target {s : State} {m : MemOperand} {ta : Word}
    (h : targetAddress s m = .ok ta) :
    effectiveAddress s m =
      if modeOfOperand m = some .indirect then readWord s.mem ta.toNat else .ok ta := by
  rw [effectiveAddress, h]
  cases hm : modeOfOperand m with
  | none => rfl
  | some mode => cases mode <;> rfl

/-- The byte operand, given the target address, by mode (R172). -/
theorem operandByte_ok_target {s : State} {m : MemOperand} {ta : Word}
    (h : targetAddress s m = .ok ta) :
    operandByte s m = match modeOfOperand m with
      | some .immediate => .ok (lowByte ta)
      | some .indirect => do
        let pointer ← readWord s.mem ta.toNat
        readByte s.mem pointer.toNat
      | some .simple => readByte s.mem ta.toNat
      | none => readByte s.mem ta.toNat := by
  rw [operandByte, h]
  rfl

/-- A fault of the target address is the operand's. -/
theorem operands_error_target {s : State} {m : MemOperand} {k : Fault}
    (h : targetAddress s m = .error k) :
    operandWord s m = .error k ∧ effectiveAddress s m = .error k ∧ operandByte s m = .error k := by
  rw [operandWord, effectiveAddress, operandByte, h]
  exact ⟨rfl, rfl, rfl⟩

/-- The faults of a word operand are those of address formation. -/
theorem operandWord_error {s : State} {m : MemOperand} {k : Fault}
    (h : operandWord s m = .error k) : k.ofAddress := by
  cases ht : targetAddress s m with
  | error k' => rw [(operands_error_target ht).1] at h; cases h; exact targetAddress_error ht
  | ok ta =>
    rw [operandWord_ok_target ht] at h
    split at h
    · cases h
    · cases hp : readWord s.mem ta.toNat with
      | error k' => rw [hp] at h; cases h; exact .inl (readWord_error hp).1
      | ok p => rw [hp] at h; exact .inl (readWord_error h).1
    · exact .inl (readWord_error h).1
    · exact .inl (readWord_error h).1

/-- The faults of an effective address are those of address formation. -/
theorem effectiveAddress_error {s : State} {m : MemOperand} {k : Fault}
    (h : effectiveAddress s m = .error k) : k.ofAddress := by
  cases ht : targetAddress s m with
  | error k' => rw [(operands_error_target ht).2.1] at h; cases h; exact targetAddress_error ht
  | ok ta =>
    rw [effectiveAddress_ok_target ht] at h
    split at h
    · exact .inl (readWord_error h).1
    · cases h

/-- The faults of a byte operand are those of address formation. -/
theorem operandByte_error {s : State} {m : MemOperand} {k : Fault}
    (h : operandByte s m = .error k) : k.ofAddress := by
  cases ht : targetAddress s m with
  | error k' => rw [(operands_error_target ht).2.2] at h; cases h; exact targetAddress_error ht
  | ok ta =>
    rw [operandByte_ok_target ht] at h
    split at h
    · cases h
    · cases hp : readWord s.mem ta.toNat with
      | error k' => rw [hp] at h; cases h; exact .inl (readWord_error hp).1
      | ok p => rw [hp] at h; exact .inl (readByte_error h).1
    · exact .inl (readByte_error h).1
    · exact .inl (readByte_error h).1

/-- The device id of TD, RD and WD is the operand's low byte, and its faults are the operand's
(spec/44_device_io.md R295). -/
theorem operandDevice_eq (s : State) (m : MemOperand) :
    operandDevice s m = match operandWord s m with
      | .ok v => .ok (BitVec.ofNat 8 v.toNat)
      | .error k => .error k := by
  unfold operandDevice
  cases operandWord s m with
  | error k => rfl
  | ok v =>
    have : lowByte v = BitVec.ofNat 8 v.toNat := by
      apply BitVec.eq_of_toNat_eq
      simp [lowByte]
    simp only [except_bind_ok, this]

/-- The one fault of a division (spec/41_arith_logic_compare.md R205). -/
theorem divideWords_error {a v : Word} {k : Fault} (h : divideWords a v = .error k) :
    v = 0 ∧ k = .divideByZero := by
  unfold divideWords at h
  split at h
  · cases h; exact ⟨by assumption, rfl⟩
  · cases h

/-- The number a word with its low byte replaced stands for (spec/10_state.md R41). -/
theorem withLowByte_toNat (w : Word) (c : Byte) :
    (withLowByte w c).toNat = w.toNat / 256 * 256 + c.toNat := by
  have h : withLowByte w c = (w.extractLsb' 8 16 ++ c : BitVec 24) := by
    unfold withLowByte
    apply BitVec.eq_of_getLsbD_eq
    intro i hi
    simp only [BitVec.getLsbD_or, BitVec.getLsbD_and, BitVec.getLsbD_append,
      BitVec.getLsbD_setWidth, BitVec.getLsbD_extractLsb']
    have key : ∀ j < 24, (0xFFFF00 : Word).getLsbD j = decide (8 ≤ j) := by decide
    rw [key i hi]
    by_cases h8 : i < 8
    · have h9 : ¬ 8 ≤ i := by omega
      simp only [h8, h9, hi]; simp
    · have h2 : i - 8 < 16 := by omega
      have h3 : 8 + (i - 8) = i := by omega
      have h4 : c.getLsbD i = false := BitVec.getLsbD_of_ge c i (by omega)
      have h9 : 8 ≤ i := by omega
      simp only [h8, h2, h3, h4, h9]; simp
  rw [h, BitVec.toNat_append, BitVec.extractLsb'_toNat, ← Nat.shiftLeft_add_eq_or_of_lt c.isLt,
    Nat.shiftLeft_eq, Nat.shiftRight_eq_div_pow]
  have := w.isLt
  omega

end Sys2Proof.Machine
end

