-- ==== Sys2Proof/Laws/PerInstr.lean ====
section
/-! SUPPORT. A family of facts about each instruction as syntax: the row of the opcode map under its
opcode is its own, whatever its n and i bits are (spec/30_encoding.md R111, R120). -/

namespace Sys2Proof.Laws

/-- Reading back a register field that some encoding stands for. -/
theorem ofBits_toBits {f : RegField} (h : f.wellFormed = true) : RegField.ofBits f.toBits = f := by
  cases f with
  | reg r => cases r <;> rfl
  | invalid id =>
    revert h
    revert id
    decide

/-- A register field that was read is well formed. -/
theorem ofBits_wellFormed (id : BitVec 4) : (RegField.ofBits id).wellFormed = true := by
  revert id
  decide

/-- Writing back a register field that was read. -/
theorem toBits_ofBits (id : BitVec 4) : (RegField.ofBits id).toBits = id := by
  revert id
  decide

/-- No Format-1 and no Format-2 row has the opcode under any n and i, and the row of the shared
opcode space is `mk`. -/
def Row34 (op : Byte) (mk : MemOperand → Instr) : Prop :=
  ∀ ni ∈ ([0, 1, 2, 3] : List Byte), lookup (op ||| ni) format1Table = none ∧
    lookup (op ||| ni) format2Table = none ∧
    lookup (trueOpcode (op ||| ni)) format34Table = some mk

/-- No Format-1 row has the opcode, and its Format-2 row reads the fields as `i`. -/
def Row2 (op : Byte) (r1 r2 : BitVec 4) (i : Instr) : Prop :=
  lookup op format1Table = none ∧ ∃ mk, lookup op format2Table = some mk ∧ mk r1 r2 = i

namespace OpcodeRow

/-- The opcode of a well-formed instruction has a row of its own format, and that row makes the
instruction from its fields. -/
def Statement (i : Instr) : Prop :=
  i.wellFormed = true →
    match i.fields with
    | .format1 => lookup i.opcode format1Table = some i
    | .format2 r1 r2 => Row2 i.opcode r1 r2 i
    | .format34 m => ∃ mk, Row34 i.opcode mk ∧ mk m = i

/-- An opcode of the shared opcode space, checked on its four opcode bytes. -/
def shared (op : Byte) : Bool :=
  ([0, 1, 2, 3] : List Byte).all fun ni =>
    !isFormat1 (op ||| ni) && !isFormat2 (op ||| ni) && trueOpcode (op ||| ni) == op

theorem row34 {op : Byte} {mk : MemOperand → Instr} (h : shared op = true)
    (hl : lookup op format34Table = some mk) : Row34 op mk := by
  intro ni hni
  have h := List.all_eq_true.1 h ni hni
  simp only [Bool.and_eq_true, Bool.not_eq_true', beq_iff_eq, isFormat1, isFormat2,
    Option.isSome_eq_false_iff, Option.isNone_iff_eq_none] at h
  exact ⟨h.1.1, h.1.2, by rw [h.2]; exact hl⟩

theorem float : Statement .float := fun _ => rfl

theorem fix : Statement .fix := fun _ => rfl

theorem norm : Statement .norm := fun _ => rfl

theorem sio : Statement .sio := fun _ => rfl

theorem hio : Statement .hio := fun _ => rfl

theorem tio : Statement .tio := fun _ => rfl

theorem addr (r1 r2 : RegField) : Statement (.addr r1 r2) := by
  intro h
  have h12 : r1.wellFormed = true ∧ r2.wellFormed = true := by
    simpa [Instr.wellFormed, Instr.regFields] using h
  refine ⟨rfl, _, rfl, ?_⟩
  simp only [ofBits_toBits h12.1, ofBits_toBits h12.2]

theorem subr (r1 r2 : RegField) : Statement (.subr r1 r2) := by
  intro h
  have h12 : r1.wellFormed = true ∧ r2.wellFormed = true := by
    simpa [Instr.wellFormed, Instr.regFields] using h
  refine ⟨rfl, _, rfl, ?_⟩
  simp only [ofBits_toBits h12.1, ofBits_toBits h12.2]

theorem mulr (r1 r2 : RegField) : Statement (.mulr r1 r2) := by
  intro h
  have h12 : r1.wellFormed = true ∧ r2.wellFormed = true := by
    simpa [Instr.wellFormed, Instr.regFields] using h
  refine ⟨rfl, _, rfl, ?_⟩
  simp only [ofBits_toBits h12.1, ofBits_toBits h12.2]

theorem divr (r1 r2 : RegField) : Statement (.divr r1 r2) := by
  intro h
  have h12 : r1.wellFormed = true ∧ r2.wellFormed = true := by
    simpa [Instr.wellFormed, Instr.regFields] using h
  refine ⟨rfl, _, rfl, ?_⟩
  simp only [ofBits_toBits h12.1, ofBits_toBits h12.2]

theorem compr (r1 r2 : RegField) : Statement (.compr r1 r2) := by
  intro h
  have h12 : r1.wellFormed = true ∧ r2.wellFormed = true := by
    simpa [Instr.wellFormed, Instr.regFields] using h
  refine ⟨rfl, _, rfl, ?_⟩
  simp only [ofBits_toBits h12.1, ofBits_toBits h12.2]

theorem shiftl (r1 : RegField) (count : BitVec 4) : Statement (.shiftl r1 count) := by
  intro h
  have h1 : r1.wellFormed = true := by simpa [Instr.wellFormed, Instr.regFields] using h
  refine ⟨rfl, _, rfl, ?_⟩
  simp only [ofBits_toBits h1]

theorem shiftr (r1 : RegField) (count : BitVec 4) : Statement (.shiftr r1 count) := by
  intro h
  have h1 : r1.wellFormed = true := by simpa [Instr.wellFormed, Instr.regFields] using h
  refine ⟨rfl, _, rfl, ?_⟩
  simp only [ofBits_toBits h1]

theorem rmo (r1 r2 : RegField) : Statement (.rmo r1 r2) := by
  intro h
  have h12 : r1.wellFormed = true ∧ r2.wellFormed = true := by
    simpa [Instr.wellFormed, Instr.regFields] using h
  refine ⟨rfl, _, rfl, ?_⟩
  simp only [ofBits_toBits h12.1, ofBits_toBits h12.2]

theorem svc (r1 r2 : BitVec 4) : Statement (.svc r1 r2) := fun _ => ⟨rfl, _, rfl, rfl⟩

theorem clear (r1 : RegField) (r2 : BitVec 4) : Statement (.clear r1 r2) := by
  intro h
  have h1 : r1.wellFormed = true := by simpa [Instr.wellFormed, Instr.regFields] using h
  refine ⟨rfl, _, rfl, ?_⟩
  simp only [ofBits_toBits h1]

theorem tixr (r1 : RegField) (r2 : BitVec 4) : Statement (.tixr r1 r2) := by
  intro h
  have h1 : r1.wellFormed = true := by simpa [Instr.wellFormed, Instr.regFields] using h
  refine ⟨rfl, _, rfl, ?_⟩
  simp only [ofBits_toBits h1]

theorem lda (m : MemOperand) : Statement (.lda m) := fun _ =>
  ⟨.lda, row34 (op := 0x00) (by decide) rfl, rfl⟩

theorem ldx (m : MemOperand) : Statement (.ldx m) := fun _ =>
  ⟨.ldx, row34 (op := 0x04) (by decide) rfl, rfl⟩

theorem ldl (m : MemOperand) : Statement (.ldl m) := fun _ =>
  ⟨.ldl, row34 (op := 0x08) (by decide) rfl, rfl⟩

theorem sta (m : MemOperand) : Statement (.sta m) := fun _ =>
  ⟨.sta, row34 (op := 0x0C) (by decide) rfl, rfl⟩

theorem stx (m : MemOperand) : Statement (.stx m) := fun _ =>
  ⟨.stx, row34 (op := 0x10) (by decide) rfl, rfl⟩

theorem stl (m : MemOperand) : Statement (.stl m) := fun _ =>
  ⟨.stl, row34 (op := 0x14) (by decide) rfl, rfl⟩

theorem add (m : MemOperand) : Statement (.add m) := fun _ =>
  ⟨.add, row34 (op := 0x18) (by decide) rfl, rfl⟩

theorem sub (m : MemOperand) : Statement (.sub m) := fun _ =>
  ⟨.sub, row34 (op := 0x1C) (by decide) rfl, rfl⟩

theorem mul (m : MemOperand) : Statement (.mul m) := fun _ =>
  ⟨.mul, row34 (op := 0x20) (by decide) rfl, rfl⟩

theorem div (m : MemOperand) : Statement (.div m) := fun _ =>
  ⟨.div, row34 (op := 0x24) (by decide) rfl, rfl⟩

theorem comp (m : MemOperand) : Statement (.comp m) := fun _ =>
  ⟨.comp, row34 (op := 0x28) (by decide) rfl, rfl⟩

theorem tix (m : MemOperand) : Statement (.tix m) := fun _ =>
  ⟨.tix, row34 (op := 0x2C) (by decide) rfl, rfl⟩

theorem jeq (m : MemOperand) : Statement (.jeq m) := fun _ =>
  ⟨.jeq, row34 (op := 0x30) (by decide) rfl, rfl⟩

theorem jgt (m : MemOperand) : Statement (.jgt m) := fun _ =>
  ⟨.jgt, row34 (op := 0x34) (by decide) rfl, rfl⟩

theorem jlt (m : MemOperand) : Statement (.jlt m) := fun _ =>
  ⟨.jlt, row34 (op := 0x38) (by decide) rfl, rfl⟩

theorem j (m : MemOperand) : Statement (.j m) := fun _ =>
  ⟨.j, row34 (op := 0x3C) (by decide) rfl, rfl⟩

theorem and (m : MemOperand) : Statement (.and m) := fun _ =>
  ⟨.and, row34 (op := 0x40) (by decide) rfl, rfl⟩

theorem or (m : MemOperand) : Statement (.or m) := fun _ =>
  ⟨.or, row34 (op := 0x44) (by decide) rfl, rfl⟩

theorem jsub (m : MemOperand) : Statement (.jsub m) := fun _ =>
  ⟨.jsub, row34 (op := 0x48) (by decide) rfl, rfl⟩

theorem rsub (m : MemOperand) : Statement (.rsub m) := fun _ =>
  ⟨.rsub, row34 (op := 0x4C) (by decide) rfl, rfl⟩

theorem ldch (m : MemOperand) : Statement (.ldch m) := fun _ =>
  ⟨.ldch, row34 (op := 0x50) (by decide) rfl, rfl⟩

theorem stch (m : MemOperand) : Statement (.stch m) := fun _ =>
  ⟨.stch, row34 (op := 0x54) (by decide) rfl, rfl⟩

theorem addf (m : MemOperand) : Statement (.addf m) := fun _ =>
  ⟨.addf, row34 (op := 0x58) (by decide) rfl, rfl⟩

theorem subf (m : MemOperand) : Statement (.subf m) := fun _ =>
  ⟨.subf, row34 (op := 0x5C) (by decide) rfl, rfl⟩

theorem mulf (m : MemOperand) : Statement (.mulf m) := fun _ =>
  ⟨.mulf, row34 (op := 0x60) (by decide) rfl, rfl⟩

theorem divf (m : MemOperand) : Statement (.divf m) := fun _ =>
  ⟨.divf, row34 (op := 0x64) (by decide) rfl, rfl⟩

theorem ldb (m : MemOperand) : Statement (.ldb m) := fun _ =>
  ⟨.ldb, row34 (op := 0x68) (by decide) rfl, rfl⟩

theorem lds (m : MemOperand) : Statement (.lds m) := fun _ =>
  ⟨.lds, row34 (op := 0x6C) (by decide) rfl, rfl⟩

theorem ldf (m : MemOperand) : Statement (.ldf m) := fun _ =>
  ⟨.ldf, row34 (op := 0x70) (by decide) rfl, rfl⟩

theorem ldt (m : MemOperand) : Statement (.ldt m) := fun _ =>
  ⟨.ldt, row34 (op := 0x74) (by decide) rfl, rfl⟩

theorem stb (m : MemOperand) : Statement (.stb m) := fun _ =>
  ⟨.stb, row34 (op := 0x78) (by decide) rfl, rfl⟩

theorem sts (m : MemOperand) : Statement (.sts m) := fun _ =>
  ⟨.sts, row34 (op := 0x7C) (by decide) rfl, rfl⟩

theorem stf (m : MemOperand) : Statement (.stf m) := fun _ =>
  ⟨.stf, row34 (op := 0x80) (by decide) rfl, rfl⟩

theorem stt (m : MemOperand) : Statement (.stt m) := fun _ =>
  ⟨.stt, row34 (op := 0x84) (by decide) rfl, rfl⟩

theorem compf (m : MemOperand) : Statement (.compf m) := fun _ =>
  ⟨.compf, row34 (op := 0x88) (by decide) rfl, rfl⟩

theorem lps (m : MemOperand) : Statement (.lps m) := fun _ =>
  ⟨.lps, row34 (op := 0xD0) (by decide) rfl, rfl⟩

theorem sti (m : MemOperand) : Statement (.sti m) := fun _ =>
  ⟨.sti, row34 (op := 0xD4) (by decide) rfl, rfl⟩

theorem rd (m : MemOperand) : Statement (.rd m) := fun _ =>
  ⟨.rd, row34 (op := 0xD8) (by decide) rfl, rfl⟩

theorem wd (m : MemOperand) : Statement (.wd m) := fun _ =>
  ⟨.wd, row34 (op := 0xDC) (by decide) rfl, rfl⟩

theorem td (m : MemOperand) : Statement (.td m) := fun _ =>
  ⟨.td, row34 (op := 0xE0) (by decide) rfl, rfl⟩

theorem stsw (m : MemOperand) : Statement (.stsw m) := fun _ =>
  ⟨.stsw, row34 (op := 0xE8) (by decide) rfl, rfl⟩

theorem ssk (m : MemOperand) : Statement (.ssk m) := fun _ =>
  ⟨.ssk, row34 (op := 0xEC) (by decide) rfl, rfl⟩

end OpcodeRow

end Sys2Proof.Laws
end

