-- ==== Sys2Proof/Laws/Step.lean ====
section
/-! SUPPORT. Everything a step can do (spec/40_execution_cycle.md R150 to R154). -/

namespace Sys2Proof.Machine

theorem step_halted {s : State} (h : s.halted = true) : step s = .next s := by
  simp [step, cycle, h]

theorem step_held {s : State} {d : DeviceId} (h : s.halted = false)
    (hd : s.held = some (.step d)) :
    step s = .next (resumeRead d s) := by
  simp [step, cycle, h, hd]

theorem step_held_host {s : State} {d : DeviceId} (hd : s.held = some (.host d)) :
    step s = .next s := by
  cases h : s.halted <;> simp [step, cycle, h, hd]

theorem step_running {s : State} (h : s.halted = false) (hd : s.held = none) :
    step s = runFetched (fetchInstr s) := by
  simp [step, cycle, h, hd]

/-- A step of a machine neither halted nor held: a fetch beyond the memory, bytes that are no
instruction, or one instruction run with PC moved past it. -/
theorem step_cases {s : State} (h : s.halted = false) (hd : s.held = none) :
    (∃ j < 4, fetchInstr s = .fault .outOfRange (s.advance j) ∧
        step s = .next ((s.advance j).raise .outOfRange)) ∨
      ∃ n, 1 ≤ n ∧ n ≤ 4 ∧ s.PC.toNat + n ≤ maxAddress + 1 ∧
        fetchInstr s = .bytes (bytesAt s.mem s.PC.toNat n) (s.advance n) ∧
        ((∃ e, decode (bytesAt s.mem s.PC.toNat n) = .error e ∧
            step s = .next ((s.advance n).raise (decodeFault e))) ∨
          ∃ i rest, decode (bytesAt s.mem s.PC.toNat n) = .ok (i, rest) ∧
            step s = exec i (s.advance n)) := by
  rw [step_running h hd]
  rcases fetchInstr_cases s with ⟨n, hn1, hn, hp, hf⟩ | ⟨j, hj, hf, -⟩
  · refine .inr ⟨n, hn1, hn, hp, hf, ?_⟩
    rw [hf]
    cases hdec : decode (bytesAt s.mem s.PC.toNat n) with
    | error e => exact .inl ⟨e, rfl, by simp only [runFetched, hdec]⟩
    | ok p => exact .inr ⟨p.1, p.2, rfl, by simp only [runFetched, hdec]⟩
  · exact .inl ⟨j, hj, hf, by rw [hf]; rfl⟩

end Sys2Proof.Machine
end

