-- ==== Sys2Proof/Tests/Slice0.lean ====
section
/-! SUPPORT. Tests: ill-formed terms refused, each constructor's decoding, one step on the vectors of
spec/95_test_vectors.md, and for each statement with hypotheses a state that meets them. Expected
results are the spec's own (the section of spec/95_test_vectors.md is named), never the model's. -/

open Sys2Proof Sys2Proof.Machine

namespace Sys2Proof.Tests

/-! Helpers -/

/-- The reset state with some bytes at PC. -/
def code (bs : List Byte) : State := { State.reset with mem := placeBytes [] 0 bs }

/-- The reset state with some bytes at an address and PC there. -/
def codeAt (pc : Nat) (bs : List Byte) : State :=
  { State.reset with mem := placeBytes [] pc bs, PC := BitVec.ofNat 24 pc }

/-- More bytes in a state's memory. -/
def withBytes (a : Nat) (bs : List Byte) (s : State) : State :=
  { s with mem := placeBytes s.mem a bs }

/-- What a function sees of the next state, none where there is no next state. -/
def sees {α : Type} (f : State → α) : Answer → Option α
  | .next t => some (f t)
  | .fault _ => none
  | .refused _ => none

/-- What a step leaves in PC and in the fault register. -/
def ends (s : State) : Option (Word × Option Fault) := sees (fun t => (t.PC, t.fault)) (step s)

/-- Some bytes, all of them, decode to an instruction. -/
def reads (bs : List Byte) (i : Instr) : Bool := decide (decode bs = .ok (i, []))

/-- The bytes of an ASCII text. -/
def ascii (t : String) : List Byte := t.toList.map (fun c => BitVec.ofNat 8 c.toNat)

/-! Well-formedness: the one check, on every instruction that has a register field -/

theorem test_ill_formed_first_field : (List.range 16).all (fun k =>
    let f := RegField.invalid (BitVec.ofNat 4 k)
    let named := !([7, 10, 11, 12, 13, 14, 15].contains k)
    [Instr.addr f (.reg .A), .subr f (.reg .A), .mulr f (.reg .A), .divr f (.reg .A),
      .compr f (.reg .A), .shiftl f 0, .shiftr f 0, .rmo f (.reg .A), .clear f 0,
      .tixr f 0].all (fun i => i.wellFormed == !named)) = true := by decide

theorem test_ill_formed_second_field : (List.range 16).all (fun k =>
    let f := RegField.invalid (BitVec.ofNat 4 k)
    let named := !([7, 10, 11, 12, 13, 14, 15].contains k)
    [Instr.addr (.reg .X) f, .subr (.reg .X) f, .mulr (.reg .X) f, .divr (.reg .X) f,
      .compr (.reg .X) f, .rmo (.reg .X) f].all (fun i => i.wellFormed == !named)) = true := by
  decide

/-! Decoding: every constructor's opcode byte from spec/30_encoding.md R120, every field of every
layout from R112 to R116 -/

theorem test_decode_format1 : (reads [0b11000000] .float && reads [0xC4] .fix &&
    reads [0xC8] .norm && reads [0xF0] .sio && reads [0xF4] .hio && reads [0xF8] .tio) = true := by
  decide

/-- r1 is the high half of the second byte, r2 the low half (R113). -/
theorem test_decode_format2 : (reads [0b10010000, 0b0001_1001] (.addr (.reg .X) (.reg .SW)) &&
    reads [0x94, 0x28] (.subr (.reg .L) (.reg .PC)) &&
    reads [0x98, 0x36] (.mulr (.reg .B) (.reg .F)) &&
    reads [0x9C, 0x45] (.divr (.reg .S) (.reg .T)) &&
    reads [0xA0, 0x07] (.compr (.reg .A) (.invalid 7)) &&
    reads [0xA4, 0x1F] (.shiftl (.reg .X) 15) &&
    reads [0xA8, 0xA3] (.shiftr (.invalid 10) 3) &&
    reads [0xAC, 0x5F] (.rmo (.reg .T) (.invalid 15)) &&
    reads [0xB0, 0x9A] (.svc 9 10) &&
    reads [0xB4, 0x12] (.clear (.reg .X) 2) &&
    reads [0xB8, 0x4F] (.tixr (.reg .S) 15)) = true := by decide

/-- LDA through every layout: SIC (R114), Format 3 (R115), Format 4 (R116), each flag alone. -/
theorem test_decode_layouts :
    (reads [0b00000000, 0b1_1111111, 0b11111110] (.lda (.sic true 0x7FFE)) &&
    reads [0b00000000, 0b0_1010010, 0x34] (.lda (.sic false 0x5234)) &&
    reads [0b000000_01, 0b1000_0001, 0x02] (.lda (.f3 .immediate true false false 0x102)) &&
    reads [0b000000_10, 0b0100_1111, 0x02] (.lda (.f3 .indirect false true false 0xF02)) &&
    reads [0b000000_11, 0b0010_0000, 0xFF] (.lda (.f3 .simple false false true 0x0FF)) &&
    reads [0b000000_01, 0b1001_0001, 0x02, 0x03]
      (.lda (.f4 .immediate true false false 0x10203)) &&
    reads [0b000000_10, 0b0101_1111, 0x02, 0x03]
      (.lda (.f4 .indirect false true false 0xF0203)) &&
    reads [0b000000_11, 0b0011_0000, 0xFE, 0xDC]
      (.lda (.f4 .simple false false true 0x0FEDC))) = true := by decide

/-- One word of each family of the shared opcode space, bit by bit: ADD, J, STCH, RD, STI. -/
theorem test_decode_families :
    (reads [0b000110_01, 0b0000_0000, 0b00000011] (.add (.f3 .immediate false false false 3)) &&
    reads [0b001111_11, 0b0010_1111, 0b11111101] (.j (.f3 .simple false false true 0xFFD)) &&
    reads [0b010101_11, 0b1010_1111, 0b11110010] (.stch (.f3 .simple true false true 0xFF2)) &&
    reads [0b110110_01, 0b0000_0000, 0b00000001] (.rd (.f3 .immediate false false false 1)) &&
    reads [0b110101_10, 0b0001_0000, 0, 1] (.sti (.f4 .indirect false false false 1))) = true := by
  decide

/-- Every opcode of the shared space, in the SIC layout and in simple mode (R111, R120). -/
theorem test_decode_format34 :
    ([(0x00, .lda), (0x04, .ldx), (0x08, .ldl), (0x0C, .sta), (0x10, .stx), (0x14, .stl),
      (0x18, .add), (0x1C, .sub), (0x20, .mul), (0x24, .div), (0x28, .comp), (0x2C, .tix),
      (0x30, .jeq), (0x34, .jgt), (0x38, .jlt), (0x3C, .j), (0x40, .and), (0x44, .or),
      (0x48, .jsub), (0x4C, .rsub), (0x50, .ldch), (0x54, .stch), (0x58, .addf), (0x5C, .subf),
      (0x60, .mulf), (0x64, .divf), (0x68, .ldb), (0x6C, .lds), (0x70, .ldf), (0x74, .ldt),
      (0x78, .stb), (0x7C, .sts), (0x80, .stf), (0x84, .stt), (0x88, .compf), (0xD0, .lps),
      (0xD4, .sti), (0xD8, .rd), (0xDC, .wd), (0xE0, .td), (0xE8, .stsw),
      (0xEC, .ssk)] : List (Byte × (MemOperand → Instr))).all (fun p =>
        reads [p.1, 0x00, 0x01] (p.2 (.sic false 1)) &&
        reads [p.1 + 3, 0x00, 0x01] (p.2 (.f3 .simple false false false 1))) = true := by
  decide

/-- The table's numbers, bit 0 the least significant bit of the first byte: ADD #3 and FIX. -/
theorem test_table_word :
    decodeTableWord 24 0x030019 = some (.add (.f3 .immediate false false false 3)) ∧
    decodeTableWord 8 0xC4 = some .fix ∧ decodeTableWord 8 0xFF = none := by decide

/-- A placed instruction is the one the next step runs. -/
theorem test_placed_word :
    sees (fun t => (t.A, t.PC)) (step (State.reset.withFetchWord 24 0x050001)) = some (5, 3) := by
  decide

/-! One step: spec/95_test_vectors.md 2.1, fetch and decode -/

theorem test_unknown : ends (code [0xFF, 0x00]) = some (2, some .unknownOpcode) ∧
    ends (code [0x91, 0x40]) = some (2, some .unknownOpcode) ∧
    ends (codeAt 0x100000 []) = some (0x100001, some .outOfRange) ∧
    ends (codeAt 0xFFFFFF []) = some (0xFFFFFF, some .outOfRange) := by decide

theorem test_unimplemented :
    ends (codeAt 0x100000 [0xC4]) = some (0x100001, some .unimplementedOpcode) ∧
    ends (code [0xB0, 0x00]) = some (2, some .unimplementedOpcode) ∧
    ends (code [0x5B, 0x70, 0x00, 0x00]) = some (4, some .unimplementedOpcode) := by decide

/-! 2.2, target address and operands -/

theorem test_pc_relative : -- W4
    targetAddress { State.reset with PC := 0x1003 } (.f3 .simple false false true 0x7FF) =
      .ok 0x1802 ∧
    targetAddress { State.reset with PC := 0x1003 } (.f3 .simple false false true 0x800) =
      .ok 0x803 ∧
    targetAddress { State.reset with PC := 3 } (.f3 .simple false false true 0x800) =
      .error .outOfRange := by decide

theorem test_base_relative :
    targetAddress { State.reset with B := 0x2000 } (.f3 .simple false true false 0xFFF) =
      .ok 0x2FFF ∧
    targetAddress { State.reset with B := 0xFFFFFF } (.f3 .simple false true false 1) =
      .error .outOfRange ∧
    targetAddress { State.reset with B := 0xFFF000 } (.f3 .immediate false true false 0xFFF) =
      .ok 0xFFFFFF := by decide

theorem test_mode_faults : ends (code [0x03, 0x60, 0x00]) = some (3, some .badAddressingMode) ∧
    ends (code [0x03, 0x70, 0x00, 0x00]) = some (4, some .badAddressingMode) ∧
    ends (code [0x01, 0x80, 0x10]) = some (3, some .invalidAddressing) ∧
    ends (code [0x02, 0xE0, 0x10]) = some (3, some .badAddressingMode) := by decide

theorem test_indirect :
    sees (·.A) (step (withBytes 0x100 [0, 2, 0] (withBytes 0x200 [0, 0, 0x2A]
      (code [0x02, 0x01, 0x00])))) = some 0x2A ∧
    ends (withBytes 0x100 [0x0F, 0xFF, 0xFF] (code [0x02, 0x01, 0x00])) =
      some (3, some .outOfRange) := by decide

/-! 2.3 and 2.4, arithmetic, logic and compare: immediate operands through B -/

/-- An operand of any value: immediate, base-relative, displacement 0. -/
def viaB : MemOperand := .f3 .immediate false true false 0

/-- What A and SW become, the operand being B. -/
def aAfter (i : MemOperand → Instr) (a v : Word) : Option (Word × Word) :=
  sees (fun t => (t.A, t.SW)) (exec (i viaB) { State.reset with A := a, B := v, SW := 0x40 })

theorem test_add : aAfter .add 0xFFFFFF 1 = some (0, 0x40) ∧
    aAfter .add 0x7FFFFF 1 = some (0x800000, 0x40) := by decide

theorem test_sub : aAfter .sub 2 5 = some (0xFFFFFD, 0x40) ∧
    aAfter .sub 0x800000 1 = some (0x7FFFFF, 0x40) := by decide

theorem test_mul : aAfter .mul 0xFFFFFF 3 = some (0xFFFFFD, 0x40) ∧
    aAfter .mul 0x1000 0x1000 = some (0, 0x40) := by decide

theorem test_div : aAfter .div 0xFFFFF9 2 = some (0xFFFFFD, 0x40) ∧
    aAfter .div 7 0xFFFFFE = some (0xFFFFFD, 0x40) ∧
    aAfter .div 0x800000 0xFFFFFF = some (0x800000, 0x40) := by decide

theorem test_div_zero : sees (fun t => (t.A, t.fault))
    (exec (.div viaB) { State.reset with A := 5 }) = some (5, some .divideByZero) := by decide

theorem test_and_or : aAfter .and 0x0F0F0F 0xFF = some (0x0F, 0x40) ∧
    aAfter .or 0x100000 0xFF = some (0x1000FF, 0x40) := by decide

theorem test_comp : aAfter .comp 5 5 = some (5, 0x40) ∧
    aAfter .comp 0xFFFFFF 1 = some (0xFFFFFF, 0x00) ∧
    aAfter .comp 0x7FFFFF 0x800000 = some (0x7FFFFF, 0x80) := by decide

theorem test_tix : sees (fun t => (t.X, t.SW))
      (exec (.tix viaB) { State.reset with X := 0x7FFFFF }) = some (0x800000, 0x00) ∧
    sees (fun t => (t.X, t.SW)) (exec (.tix viaB) { State.reset with X := 9, B := 5 }) =
      some (10, 0x80) := by decide

/-! 2.5, jumps -/

theorem test_jumps : ends (code [0x3E, 0x01, 0x00]) = some (0, none) ∧
    ends (code [0x3D, 0x01, 0x00]) = some (0x100, none) ∧
    ends (code [0x3B, 0x01, 0x00]) = some (0x100, none) ∧
    ends { code [0x33, 0x01, 0x00] with SW := 0x40 } = some (0x100, none) ∧
    ends { code [0x37, 0x01, 0x00] with SW := 0x40 } = some (3, none) := by decide

theorem test_jump_not_taken_faults : ends (code [0x32, 0x1F, 0xFF, 0xFF]) =
    some (4, some .outOfRange) := by decide

theorem test_jsub : sees (fun t => (t.L, t.PC)) (step (code [0x4B, 0x10, 0x00, 0x10])) =
    some (4, 0x10) := by decide

theorem test_rsub : ends { code [0x4F, 0x00, 0x00] with L := 4 } = some (4, none) ∧
    ends { code [0x4F, 0x60, 0x00] with L := 4 } = some (3, some .badAddressingMode) := by decide

/-! 2.6, loads and stores -/

/-- What a function sees after a word load of AB CD EF from 0x100. -/
def loaded (op : Byte) (f : State → Word) : Option Word :=
  sees f (step (withBytes 0x100 [0xAB, 0xCD, 0xEF] (code [op, 0x01, 0x00])))

theorem test_word_loads : loaded 0x03 (·.A) = some 0xABCDEF ∧ loaded 0x07 (·.X) = some 0xABCDEF ∧
    loaded 0x0B (·.L) = some 0xABCDEF ∧ loaded 0x6B (·.B) = some 0xABCDEF ∧
    loaded 0x6F (·.S) = some 0xABCDEF ∧ loaded 0x77 (·.T) = some 0xABCDEF ∧
    loaded 0x73 (·.F) = some 0xABCDEF := by decide

theorem test_ldch : sees (·.A) (step { withBytes 0x100 [0x41] (code [0x53, 0x01, 0x00]) with
      A := 0x123456 }) = some 0x123441 ∧
    sees (·.A) (step { code [0x51, 0x01, 0x41] with A := 0x123456 }) = some 0x123441 := by decide

/-- The registers hold 1 to 8 in the order of their ids, SW the code EQ. -/
def filled (bs : List Byte) : State :=
  { code bs with A := 1, X := 2, L := 3, B := 4, S := 5, T := 6, F := 0xABCDEF, SW := 0x40 }

/-- The word at 0x100 after a step on a store to it. -/
def stored (op : Byte) : Option (List Byte) :=
  sees (fun t => bytesAt t.mem 0x100 3) (step (filled [op, 0x01, 0x00]))

theorem test_word_stores : stored 0x0F = some [0, 0, 1] ∧ stored 0x13 = some [0, 0, 2] ∧
    stored 0x17 = some [0, 0, 3] ∧ stored 0x7B = some [0, 0, 4] ∧ stored 0x7F = some [0, 0, 5] ∧
    stored 0x87 = some [0, 0, 6] ∧ stored 0x83 = some [0xAB, 0xCD, 0xEF] ∧
    stored 0xEB = some [0, 0, 0x40] := by decide

theorem test_store_modes : stored 0x0D = some [0, 0, 1] ∧
    sees (fun t => bytesAt t.mem 0x200 3)
      (step (withBytes 0x100 [0, 2, 0] (filled [0x0E, 0x01, 0x00]))) = some [0, 0, 1] ∧
    sees (fun t => bytesAt t.mem 0xFFFFE 3) (step { code [0x0F, 0x1F, 0xFF, 0xFE] with
      A := 0x123456 }) = some [0x12, 0x34, 0x56] ∧
    sees (fun t => (t.PC, t.fault, t.mem.length)) (step { code [0x0F, 0x1F, 0xFF, 0xFF] with
      A := 0x123456 }) = some (4, some .outOfRange, 4) := by decide

theorem test_stch : sees (fun t => bytesAt t.mem 0x100 3)
    (step { withBytes 0x100 [0xAA, 0xBB, 0xCC] (code [0x57, 0x01, 0x00]) with A := 0x123456 }) =
      some [0x56, 0xBB, 0xCC] := by decide

/-! 2.7, devices: the environment's answers are laid down, so none is free -/

/-- TD #5, RD #7, WD #7 or the like, with answers laid down. -/
def withEnv (s : State) (opens : List (DeviceId × Ack)) (gets : List (DeviceId × GetReply))
    (puts : List (DeviceId × Ack)) : State :=
  { s with A := 0x123456, env := { opens := opens, gets := gets, puts := puts, log := [] } }

theorem test_td : sees (fun t => (t.SW, t.isBound 5))
      (step (withEnv (code [0xE1, 0x00, 0x05]) [(5, .fail)] [] [])) = some (0x40, false) ∧
    sees (fun t => (t.SW, t.isBound 5))
      (step { withEnv (code [0xE1, 0x00, 0x05]) [(5, .ok)] [] [] with SW := 0x80 }) =
        some (0x00, true) := by decide

theorem test_rd : sees (fun t => (t.A, t.fault, t.env.gets))
      (step (withEnv (code [0xD9, 0x00, 0x01]) [] [(1, .byte 0x41), (1, .byte 0x42)] [])) =
        some (0x123441, none, [(1, .byte 0x42)]) ∧
    sees (fun t => (t.A, t.fault)) (step (withEnv (code [0xD9, 0x00, 0x00]) [] [(0, .eof)] [])) =
      some (0x123456, some .ioError) := by decide

theorem test_rd_unavailable_and_held :
    sees (fun t => (t.A, t.fault)) (step (withEnv (code [0xD9, 0x00, 0x07]) [(7, .fail)] [] [])) =
      some (0x123456, some .deviceUnavailable) ∧
    sees (fun t => (t.A, t.PC, t.halted, t.held))
      (step (withEnv (code [0xD9, 0x00, 0x00]) [] [(0, .pending)] [])) =
        some (0x123456, 3, false, some (.step 0)) := by decide

theorem test_wd : sees (fun t => sentTo 1 t.env.log)
      (step (withEnv (code [0xDD, 0x00, 0x01]) [] [] [(1, .ok)])) = some [0x56] ∧
    sees (fun t => (t.PC, t.fault, t.isBound 7))
      (step (withEnv (code [0xDD, 0x00, 0x07]) [(7, .ok)] [] [(7, .fail)])) =
        some (3, some .ioError, true) := by decide

/-! 2.8, register-register -/

/-- What a function sees after one step on a Format-2 instruction. -/
def regStep (s : State) (b0 b1 : Byte) (f : State → Word) : Option (Word × Option Fault) :=
  sees (fun t => (f t, t.fault)) (step { s with mem := placeBytes [] 0 [b0, b1] })

theorem test_addr_subr :
    regStep { State.reset with A := 0x800000 } 0x90 0x00 (·.A) = some (0, none) ∧
    regStep { State.reset with A := 0x10 } 0x90 0x08 (·.PC) = some (0x12, none) ∧
    regStep { State.reset with A := 1, S := 2 } 0x94 0x40 (·.A) = some (0xFFFFFF, none) := by decide

theorem test_mulr_divr :
    regStep { State.reset with S := 6, T := 7 } 0x98 0x45 (·.T) = some (0x2A, none) ∧
    regStep { State.reset with S := 2, A := 0xFFFFF9 } 0x9C 0x40 (·.A) = some (0xFFFFFD, none) ∧
    regStep { State.reset with A := 9 } 0x9C 0x40 (·.A) = some (9, some .divideByZero) := by decide

theorem test_shiftl :
    regStep { State.reset with A := 0x123456 } 0xA4 0x03 (·.A) = some (0x234561, none) ∧
    regStep { State.reset with A := 0x123456 } 0xA4 0x0F (·.A) = some (0x561234, none) ∧
    regStep { State.reset with SW := 0x80 } 0xA4 0x90 (·.SW) = some (0x80, some .outOfRange) := by
  decide

theorem test_shiftr :
    regStep { State.reset with A := 0x823456 } 0xA8 0x03 (·.A) = some (0xF82345, none) ∧
    regStep { State.reset with A := 0x7FFFFF } 0xA8 0x0F (·.A) = some (0x7F, none) := by decide

theorem test_rmo_clear :
    regStep { State.reset with A := 0x40 } 0xAC 0x09 (·.SW) = some (0x40, none) ∧
    regStep { State.reset with A := 0x41 } 0xAC 0x09 (·.SW) = some (0, some .outOfRange) ∧
    regStep { State.reset with L := 0x50 } 0xAC 0x28 (·.PC) = some (0x50, none) ∧
    regStep { State.reset with X := 9 } 0xB4 0x1F (·.X) = some (0, none) := by decide

theorem test_compr_tixr :
    regStep { State.reset with A := 0xFFFFFF } 0xA0 0x01 (·.SW) = some (0, none) ∧
    regStep { State.reset with S := 5 } 0xB8 0x40 (·.SW) = some (0, none) ∧
    regStep { State.reset with X := 7 } 0xB8 0x10 (·.SW) = some (0x40, none) ∧
    regStep { State.reset with X := 7 } 0xB8 0xA0 (·.X) = some (7, some .invalidRegister) := by
  decide

/-! 2.9, the loader, and the host port -/

/-- The module of W3. -/
def w3 : List Byte := ascii "HADD8  000000000006\nT00000006010005190003\nE000000\n"

theorem test_load : parseModule w3 =
    some { texts := [(0, [0x01, 0x00, 0x05, 0x19, 0x00, 0x03])], entry := 0 } := by decide

theorem test_load_inert_records : parseModule (ascii
    "HP     000000000001\r\nM00000105+SYMBOL\nDNAME  000000\nRNAME2 \nT00000001AA\nE000000") =
      some { texts := [(0, [0xAA])], entry := 0 } := by decide

theorem test_load_errors :
    parseModule (ascii "HP     000000000001\nT0000000201\nE000000") = none ∧
    parseModule (ascii "HP     000000000001\nT00000001ab\nE000000") = none ∧
    parseModule (ascii "HP     000000000001\nX000000\nE000000") = none ∧
    parseModule (ascii "HP     000000000001\nT00000001AA") = none ∧
    parseModule (ascii "HP     100000000002\nT10000002AABB\nE100000") = none := by decide

theorem test_load_then_run : -- W6
    sees (fun t => (t.A, t.PC)) (core.run 2 (hostPerform (.load w3) State.reset).2) =
      some (8, 6) := by decide

theorem test_host_set : -- W1
    (hostPerform (.set 9 0x40) State.reset).1 = .ok ∧
    (hostPerform (.set 9 0x41) State.reset).1 = .failed .outOfRange ∧
    (hostPerform (.set 7 0) State.reset).1 = .failed .invalidRegister ∧
    (hostPerform (.get 10) State.reset).1 = .failed .invalidRegister ∧
    (hostPerform (.set 0 0x1000000) State.reset).1 = .failed .outOfRange := by decide

theorem test_host_words : -- W2
    (hostPerform (.readWord 0x0FFFFE)
      (hostPerform (.writeWord 0x0FFFFE 0xABCDEF) State.reset).2).1 = .word 0xABCDEF ∧
    (hostPerform (.readByte 0x100000)
      (hostPerform (.writeWord 0x0FFFFE 0xABCDEF) State.reset).2).1 = .byte 0xEF ∧
    (hostPerform (.writeWord 0x100001 1) State.reset).1 = .failed .outOfRange ∧
    (hostPerform (.writeWord 0x0FFFFF 1) State.reset).1 = .failed .outOfRange := by decide

/-! Witnesses: for each statement with hypotheses, a state and operands that meet them, one for each
clause at a boundary of its range -/

theorem witness_DecodeReadsEncodedInstruction :
    (Instr.addr (.reg .X) (.invalid 7)).wellFormed = true ∧
    (Instr.clear (.invalid 15) 15).wellFormed = true ∧
    (Instr.jsub (.f4 .simple true true true 0xFFFFF)).wellFormed = true := by decide

theorem witness_DecodedBytesAreTheEncoding :
    decode [0xB4, 0xFF, 0x00] = .ok (.clear (.invalid 15) 15, [0x00]) := by decide

theorem witness_UnknownOpcodeBytes : unknownOpcodeByte 0x8C = true ∧ unknownOpcodeByte 0xFF = true ∧
    unknownOpcodeByte 0x8B = false ∧ unknownOpcodeByte 0xF8 = false := by decide

theorem witness_FirstTwoBytesDecideTheLength :
    decode (0xC0 :: 0x01 :: []) = .ok (.float, [0x01]) ∧
    decode (0xB4 :: 0x10 :: []) = .ok (.clear (.reg .X) 0, []) ∧
    decode (0x00 :: 0x10 :: [0x00]) = .ok (.lda (.sic false 0x1000), []) ∧
    decode (0x03 :: 0x10 :: [0x00, 0x00]) = .ok (.lda (.f4 .simple false false false 0), []) := by
  decide

/-- The last byte of memory is the last byte of the instruction. -/
theorem witness_StepRunsTheDecodedInstruction :
    let s := codeAt 0xFFFFE [0x19, 0x00, 0x03]
    s.halted = false ∧ s.held = none ∧ s.PC.toNat + 3 ≤ 0x100001 ∧
      decode (bytesAt s.mem s.PC.toNat 3) =
        .ok (.add (.f3 .immediate false false false 3), []) := by decide

/-- The reset state, faulted. -/
def dead : State := State.reset.raise .unknownOpcode

theorem witness_HaltedMachineStaysHalted :
    dead.halted = true ∧ dead.fault = some .unknownOpcode ∧ dead.held = none ∧
    (hostPerform .reset dead).2.halted = false ∧
    (hostPerform (.load w3) dead).2.halted = false := by decide

theorem witness_FetchedPCNeverWraps :
    fetchInstr (codeAt 0x100000 [0xC4]) =
      .bytes [0xC4] { codeAt 0x100000 [0xC4] with PC := 0x100001 } ∧
    fetchInstr (codeAt 0x100000 []) =
      .fault .outOfRange { codeAt 0x100000 [] with PC := 0x100001 } ∧
    fetchInstr (codeAt 0xFFFFFF []) = .fault .outOfRange (codeAt 0xFFFFFF []) ∧
    (codeAt 0x100001 []).halted = false ∧ (codeAt 0x100001 []).held = none ∧
    0x100000 < (codeAt 0x100001 []).PC.toNat := by decide

theorem witness_UnknownOpcodeConsumesTwoBytes : ∀ a ∈ ([0xFFFFF, 0x100000] : List Nat),
    let s := codeAt a [0xFF]
    s.halted = false ∧ s.held = none ∧ unknownOpcodeByte (s.mem.read s.PC.toNat) = true ∧
      s.PC.toNat = a := by decide

/-- A fault of a fetch, one of decoding. -/
theorem witness_FaultsArePrecise_fetch :
    let s := codeAt 0x100000 []
    s.halted = false ∧ s.held = none ∧ (∃ t, step s = .next t ∧ t.halted = true) ∧
      (∃ k u, fetchInstr s = .fault k u) ∧ ∃ bs u, fetchInstr (code [0xFF]) = .bytes bs u :=
  ⟨rfl, rfl, ⟨_, rfl, by decide⟩, ⟨_, _, rfl⟩, _, _, rfl⟩

/-- A fault after an open that bound its device. -/
theorem witness_FaultsArePrecise :
    let s := withEnv (code [0xDD, 0x00, 0x07]) [(7, .ok)] [] [(7, .fail)]
    s.halted = false ∧ ∃ t, step s = .next t ∧ t.halted = true ∧ t.isBound 7 = true :=
  ⟨rfl, _, rfl, by decide, by decide⟩

/-- A fault of a read in progress. -/
theorem witness_FaultsArePrecise_held :
    let s := { withEnv State.reset [] [(0, .eof)] [] with held := some (.step 0) }
    s.halted = false ∧ s.held ≠ none ∧ ∃ t, step s = .next t ∧ t.halted = true :=
  ⟨rfl, by decide, _, rfl, by decide⟩

theorem witness_StepKeepsTheInvariant :
    (filled [0x0F, 0x01, 0x00]).inv ∧ ∃ t, step (filled [0x0F, 0x01, 0x00]) = .next t :=
  ⟨by decide, _, rfl⟩

/-- A read in progress meets the invariant too. -/
theorem witness_StepKeepsTheInvariant_held :
    let s := { withEnv State.reset [] [(0, .pending)] [] with held := some (.step 0) }
    s.inv ∧ ∃ t, step s = .next t :=
  ⟨by decide, _, rfl⟩

theorem witness_HostOperationsKeepTheInvariant :
    (filled [0x0F, 0x01, 0x00]).inv ∧ dead.inv := by decide

theorem witness_ResetValues : dead.held = none := rfl

theorem witness_BoundBitsNeverClear :
    let s := withEnv (code [0xE1, 0x00, 0x05]) [(5, .ok)] [] []
    (∃ t, step s = .next t) ∧ s.isBound 0 = true ∧ HostOp.test 255 ≠ .reset :=
  ⟨⟨_, rfl⟩, by decide, by decide⟩

theorem witness_ZeroMemoryRunsToTheTop : (0 : Nat) ≤ 349525 ∧ (349525 : Nat) ≤ 349525 := by decide

/-- J * at 0x012 (2.5), and JEQ * under EQ. -/
theorem witness_IdleSelfJumpChangesNothing :
    (codeAt 0x12 [0x3F, 0x2F, 0xFD]).idle = true ∧
    State.idle { codeAt 0x12 [0x33, 0x2F, 0xFD] with SW := 0x40 } = true := by decide

theorem witness_TargetAddressByFlags :
    Mode.indirect ≠ .simple ∧ (true && false) = false := by decide

theorem witness_OperandByMode :
    let s := withBytes 0x100 [0, 2, 0] State.reset
    targetAddress s (.f3 .immediate false true true 0) = .error .badAddressingMode ∧
    targetAddress s (.f3 .immediate false false false 0x100) = .ok 0x100 ∧
    targetAddress s (.f3 .indirect false false false 0x100) = .ok 0x100 ∧
    readWord s.mem (0x100 : Word).toNat = .ok 0x200 ∧
    targetAddress s (.f4 .indirect false false false 0xFFFFF) = .ok 0xFFFFF ∧
    readWord s.mem (0xFFFFF : Word).toNat = .error .outOfRange ∧
    targetAddress s (.sic false 0x100) = .ok 0x100 := by decide

theorem witness_ReadWordIsBigEndian :
    0xFFFFE + 2 ≤ 0x100000 ∧ 0x100000 < 0xFFFFF + 2 ∧ 0x100000 ≤ 0x100000 ∧ 0x100000 < 0x100001 ∧
    State.reset.held = none ∧
    ((0 : Int) ≤ 0x100000 ∧ (0x100000 : Int) ≤ 0x100000) ∧
    ¬ ((0 : Int) ≤ -1 ∧ (-1 : Int) ≤ 0x100000) ∧
    ((0 : Int) ≤ 0xFFFFE ∧ (0xFFFFE : Int) + 2 ≤ 0x100000) ∧
    ¬ ((0 : Int) ≤ 0xFFFFF ∧ (0xFFFFF : Int) + 2 ≤ 0x100000) := by decide

theorem witness_WriteWordValidatesThenWrites : State.reset.held = none ∧ State.reset.mem.wf ∧
    ((0 : Int) ≤ 0xFFFFE ∧ (0xFFFFE : Int) + 2 ≤ 0x100000 ∧ (0 : Int) ≤ 0xFFFFFF ∧
      (0xFFFFFF : Int) ≤ 0xFFFFFF) ∧
    ¬ ((0 : Int) ≤ 0xFFFFF ∧ (0xFFFFF : Int) + 2 ≤ 0x100000 ∧ (0 : Int) ≤ 0 ∧
      (0 : Int) ≤ 0xFFFFFF) := by decide

theorem witness_WriteByteSetsOneByte : State.reset.held = none ∧ State.reset.mem.wf ∧
    ((0 : Int) ≤ 0x100000 ∧ (0x100000 : Int) ≤ 0x100000 ∧ (0 : Int) ≤ 255 ∧ (255 : Int) ≤ 255) ∧
    ¬ ((0 : Int) ≤ 0x100000 ∧ (0x100000 : Int) ≤ 0x100000 ∧ (0 : Int) ≤ 256 ∧
      (256 : Int) ≤ 255) := by decide

/-- A store (STA at the top of memory), an instruction that stores nothing, a store whose address
faults. -/
theorem witness_MemoryChangesOnlyAtStores :
    let s := filled []
    s.mem.wf ∧ (∃ t, exec (.sta (.f4 .simple false false false 0xFFFFE)) s = .next t) ∧
      storeTarget (.sta (.f4 .simple false false false 0xFFFFE)) =
        some (.f4 .simple false false false 0xFFFFE, 3) ∧
      effectiveAddress s (.f4 .simple false false false 0xFFFFE) = .ok 0xFFFFE ∧
      (∃ t, exec (.rsub (.sic false 0)) s = .next t) ∧ storeTarget (.rsub (.sic false 0)) = none ∧
      (∃ t, exec (.stch (.f3 .simple false true true 0)) s = .next t) ∧
      storeTarget (.stch (.f3 .simple false true true 0)) =
        some (.f3 .simple false true true 0, 1) ∧
      effectiveAddress s (.f3 .simple false true true 0) = .error .badAddressingMode :=
  ⟨by decide, ⟨_, rfl⟩, by decide, by decide, ⟨_, rfl⟩, by decide, ⟨_, rfl⟩, by decide, by decide⟩

theorem witness_RegistersChangeOnlyAsListed :
    (∃ t, exec (.addr (.reg .S) (.reg .A)) (filled []) = .next t) ∧
    Reg.S ∉ destinations (.addr (.reg .S) (.reg .A)) :=
  ⟨⟨_, rfl⟩, by decide⟩

theorem witness_OnlyDeviceInstructionsReachDevices :
    usesDevice (.sta viaB) = false ∧ ∃ t, exec (.sta viaB) (filled []) = .next t :=
  ⟨rfl, _, rfl⟩

theorem witness_SetChecksIdAndValue : State.reset.held = none ∧
    (9 : Int) = Reg.SW.id.toNat ∧
    ((0 : Int) ≤ 0x80 ∧ (0x80 : Int) ≤ 0xFFFFFF ∧
      (Reg.SW = .SW → (0x80 : Int) = 0 ∨ (0x80 : Int) = 0x40 ∨ (0x80 : Int) = 0x80)) ∧
    ¬ ((0 : Int) ≤ 0x81 ∧ (0x81 : Int) ≤ 0xFFFFFF ∧
      (Reg.SW = .SW → (0x81 : Int) = 0 ∨ (0x81 : Int) = 0x40 ∨ (0x81 : Int) = 0x80)) ∧
    (∀ r ∈ [Reg.A, .X, .L, .B, .S, .T, .F, .PC, .SW], (7 : Int) ≠ r.id.toNat) := by decide

theorem witness_InvalidRegisterIds : State.reset.held = none ∧
    (7 : Int) ∉ ([0, 1, 2, 3, 4, 5, 6, 8, 9] : List Int) ∧
    (-1 : Int) ∉ ([0, 1, 2, 3, 4, 5, 6, 8, 9] : List Int) ∧
    (10 : Int) ∉ ([0, 1, 2, 3, 4, 5, 6, 8, 9] : List Int) := by decide

/-- Operands that are given and operands that fault, for WordLoadsMoveTheOperand, AddSubMulWrap,
AndOrAreBitwise, CompAndTixSetTheCode, RdByTheAnswer and WdByTheAnswer. -/
theorem witness_operand_word :
    operandWord (withBytes 0xFFFFE [1, 2, 3] State.reset) (.f4 .simple false false false 0xFFFFE) =
      .ok 0x010203 ∧
    operandWord State.reset (.f4 .simple false false false 0xFFFFF) = .error .outOfRange ∧
    operandWord State.reset viaB = .ok 0 ∧
    operandWord { State.reset with B := 0xFFFFFF } viaB = .ok 0xFFFFFF := by decide

theorem witness_LdchReplacesTheLowByte :
    operandByte (withBytes 0x100000 [0x7E] { State.reset with B := 0x100000 })
      (.f3 .simple false true false 0) = .ok 0x7E ∧
    operandByte { State.reset with B := 0x100001 } (.f3 .simple false true false 0) =
      .error .outOfRange := by decide

/-- Stores to the last word and the last byte, to the addresses after them, and to no address, for
WordStoresWriteTheRegister and StchWritesOneByte. -/
theorem witness_stores : (filled []).mem.wf ∧
    effectiveAddress (filled []) (.f4 .simple false false false 0xFFFFE) = .ok 0xFFFFE ∧
    (0xFFFFE : Word).toNat ≤ 0x0FFFFE ∧
    effectiveAddress (filled []) (.f4 .simple false false false 0xFFFFF) = .ok 0xFFFFF ∧
    0x0FFFFE < (0xFFFFF : Word).toNat ∧
    effectiveAddress { filled [] with B := 0x100000 } viaB = .ok 0x100000 ∧
    (0x100000 : Word).toNat ≤ 0x100000 ∧
    effectiveAddress { filled [] with B := 0x100001 } viaB = .ok 0x100001 ∧
    0x100000 < (0x100001 : Word).toNat ∧
    effectiveAddress (filled []) (.f3 .immediate true false false 0) =
      .error .invalidAddressing := by decide

/-- Addresses that are given and addresses that fault, for JumpsSetPC and JsubAndRsubLink. -/
theorem witness_jumps : effectiveAddress State.reset (.f3 .indirect false false false 0) = .ok 0 ∧
    effectiveAddress State.reset (.f4 .indirect false false false 0xFFFFF) = .error .outOfRange ∧
    targetAddress State.reset (.sic true 0x7FFF) = .ok 0x7FFF ∧
    targetAddress State.reset (.f3 .simple false true true 0) = .error .badAddressingMode := by
  decide

theorem witness_DivrDividesR2ByR1 : State.reset.get .A = 0 ∧ (filled []).get .A ≠ 0 ∧
    (State.get { State.reset with A := 0xFFFFFF, S := 0x800000 } .S = 0x800000 ∧
      State.get { State.reset with A := 0xFFFFFF, S := 0x800000 } .A = 0xFFFFFF) ∧
    ¬ ((filled []).get .S = 0x800000 ∧ (filled []).get .A = 0xFFFFFF) := by decide

/-- DIV by a divisor other than zero, by zero, and the one quotient that wraps. -/
theorem witness_DivTruncatesTowardZero :
    operandWord (filled []) viaB = .ok 4 ∧ (4 : Word) ≠ 0 ∧ operandWord State.reset viaB = .ok 0 ∧
    operandWord { State.reset with A := 0x800000, B := 0xFFFFFF } viaB = .ok 0xFFFFFF := by decide

theorem witness_Format1IsUnimplemented : let s := codeAt 0x100000 [0xC4]
    s.halted = false ∧ s.held = none ∧ s.PC.toNat ≤ 0x100000 ∧ s.mem.read s.PC.toNat = 0xC4 := by
  decide

theorem witness_ExcludedOpcodesAreUnimplemented : let s := codeAt 0xFFFFD [0x5B, 0x70, 0x00, 0x01]
    let i := Instr.addf (.f4 .simple false true true 1)
    s.halted = false ∧ s.held = none ∧ s.PC.toNat + (encode i).length ≤ 0x100001 ∧
      bytesAt s.mem s.PC.toNat (encode i).length = encode i := by decide

theorem witness_TdReportsReadiness : operandWord State.reset viaB = .ok 0 ∧
    State.reset.isBound 0 = true ∧ operandWord { State.reset with B := 0xF100FF } viaB =
      .ok 0xF100FF ∧ State.isBound State.reset (BitVec.ofNat 8 0xF100FF) = false ∧
    operandWord State.reset (.f3 .indirect true false false 0) = .error .invalidAddressing := by
  decide

theorem witness_RdPutsTheByteIntoA :
    let s := { withEnv State.reset [] [(1, .byte 0x41), (1, .eof)] [] with B := 1 }
    operandWord s viaB = .ok 1 ∧ s.held = none ∧ s.isBound (BitVec.ofNat 8 1) = true ∧
      s.env.gets = (BitVec.ofNat 8 1, .byte 0x41) :: [(1, .eof)] := by decide

theorem witness_WdSendsTheLowByte :
    let s := { withEnv State.reset [] [] [(1, .ok)] with B := 1 }
    operandWord s viaB = .ok 1 ∧ s.isBound (BitVec.ofNat 8 1) = true ∧
      s.env.puts = (BitVec.ofNat 8 1, .ok) :: [] := by decide

theorem witness_HeldReadWaitsForTheDevice :
    State.held { State.reset with held := some (.step 0) } = some (.step 0) ∧
    State.halted { State.reset with held := some (.step 0) } = false ∧ HostOp.halted ≠ .step ∧
    State.held { dead with held := some (.host 255) } = some (.host 255) ∧
    HostOp.step ≠ .read (255 : DeviceId).toNat := by decide

/-- A module with two T records, the later over the last byte of the earlier, the last byte of
memory among them. -/
def overlap : List Byte := ascii
  "HP     0FFFFE000003\nT0FFFFE03010203\nT10000001FF\nE0FFFFE\n"

theorem witness_SuccessfulLoad : State.reset.held = none ∧ State.reset.mem.wf ∧
    parseModule overlap =
      some { texts := [(0xFFFFE, [1, 2, 3]), (0x100000, [0xFF])], entry := 0xFFFFE } ∧
    ([1, 2, 3] : List Byte)[1]? = some 2 ∧
    (∀ q ∈ ([(0x100000, [0xFF])] : List (Nat × List Byte)),
      0xFFFFE + 1 < q.1 ∨ q.1 + q.2.length ≤ 0xFFFFE + 1) ∧
    (∀ q ∈ ([(0xFFFFE, [1, 2, 3]), (0x100000, [0xFF])] : List (Nat × List Byte)),
      0xFFFFD < q.1 ∨ q.1 + q.2.length ≤ 0xFFFFD) := by decide

theorem witness_FailedLoad : State.reset.held = none ∧
    parseModule (ascii "T00000001AA\nE000000") = none := by decide

theorem witness_LoadErrorCauses_lines :
    moduleLines (ascii "\nT00000001AA\n") = [ascii "T00000001AA"] ∧
    (ascii "T00000001AA").head? ≠ some 0x48 ∧
    (∀ line ∈ moduleLines (ascii "\nT00000001AA\n"), line.head? ≠ some 0x45) ∧
    moduleLines (ascii "HP     000000000001\nX\nE000000") =
      [ascii "HP     000000000001"] ++ ascii "X" :: [ascii "E000000"] ∧
    (∀ l ∈ [ascii "HP     000000000001"], l.head? ≠ some 0x45) ∧
    parseRecord (ascii "X") = none := by decide

theorem witness_LoadErrorCauses_records :
    (ascii "X").head? = some 0x58 ∧ (0x58 : Byte) ∉ ([0x48, 0x54, 0x4D, 0x44, 0x52, 0x45] : List Byte) ∧
    (ascii "HP     00000000000").head? = some 0x48 ∧ (ascii "HP     00000000000").length < 19 ∧
    (ascii "T0000000").head? = some 0x54 ∧ (ascii "T0000000").length < 9 ∧
    (ascii "M0000000").head? = some 0x4D ∧ (ascii "M0000000").length < 9 ∧
    (ascii "E00000").head? = some 0x45 ∧ (ascii "E00000").length < 7 := by decide

/-- A lowercase digit in the first and last hex column of each record. -/
theorem witness_LoadErrorCauses_hex : isHexChar 0x61 = false ∧
    (ascii "HP     a00000000001")[7]? = some 0x61 ∧ (ascii "HP     00000000000a")[18]? = some 0x61 ∧
    (ascii "Ta0000001AA")[1]? = some 0x61 ∧ (ascii "T0000000aAA")[8]? = some 0x61 ∧
    (ascii "M0000000a")[8]? = some 0x61 ∧ (ascii "E00000a")[6]? = some 0x61 ∧
    (ascii "T00000001Aa")[10]? = some 0x61 ∧ hexField (ascii "T00000001Aa") 8 2 = some 1 := by
  decide

theorem witness_LoadErrorCauses_text :
    (ascii "T10000002AABB").head? = some 0x54 ∧
    hexField (ascii "T10000002AABB") 2 6 = some 0x100000 ∧
    hexField (ascii "T10000002AABB") 8 2 = some 2 ∧ 0x100000 < 0x100000 + 2 - 1 ∧
    hexField (ascii "T0000000201") 2 6 = some 0 ∧ hexField (ascii "T0000000201") 8 2 = some 2 ∧
    (ascii "T0000000201").length < 9 + 2 * 2 := by decide

theorem witness_FailedHostOperationChangesNothing :
    (hostPerform (.set 7 0) State.reset).1 = .failed .invalidRegister ∧ HostOp.set 7 0 ≠ .step ∧
    (∀ text, HostOp.set 7 0 ≠ .load text) ∧ (∀ id, HostOp.set 7 0 ≠ .read id) ∧
    (∀ id v, HostOp.set 7 0 ≠ .write id v) ∧
    (hostPerform (.write 7 0) (withEnv State.reset [(7, .ok)] [] [(7, .fail)])).1 =
      .failed .ioError ∧
    HostOp.write 7 0 ≠ .step ∧ (∀ text, HostOp.write 7 0 ≠ .load text) ∧
    (withEnv State.reset [(7, .ok)] [] [(7, .fail)]).isBound 7 = false :=
  ⟨by decide, nofun, fun _ => nofun, fun _ => nofun, fun _ _ => nofun, by decide, nofun,
    fun _ => nofun, by decide⟩

/-- A host write that opens its device and fails changes no bound bit; one that is accepted binds the
device (R300, R396, D45). -/
theorem test_failed_host_write :
    (let s := withEnv State.reset [(7, .ok)] [] [(7, .fail)]
     (hostPerform (.write 7 0) s).2.bound = s.bound) ∧
    (hostPerform (.write 7 0) (withEnv State.reset [(7, .ok)] [] [(7, .ok)])).2.isBound 7 = true := by
  decide

theorem witness_DumpReturnsTheRange : State.reset.held = none ∧
    ((0 : Int) ≤ 0x100000 ∧ (0x100000 : Int) ≤ 0x100000 ∧ (0x100000 : Int) ≤ 0x100000) ∧
    ¬ ((0 : Int) ≤ 1 ∧ (1 : Int) ≤ 0 ∧ (0 : Int) ≤ 0x100000) := by decide

theorem witness_HostDeviceOperations : State.reset.held = none ∧
    ¬ ((0 : Int) ≤ 256 ∧ (256 : Int) ≤ 255) ∧ ¬ ((0 : Int) ≤ -1 ∧ (-1 : Int) ≤ 255) ∧
    State.reset.isBound 2 = true ∧ State.reset.isBound 3 = false ∧
    (withEnv State.reset [] [(2, .byte 0x41)] []).env.gets = (2, .byte 0x41) :: [] ∧
    (withEnv State.reset [] [] [(2, .ok)]).env.puts = (2, .ok) :: [] := by decide

/-- A step that completes, one that faults, one that is held. -/
theorem witness_HostStepReportsItsOutcome :
    (State.reset.held = none ∧ State.reset.halted = false ∧ State.reset.fault = none ∧
      sees (fun t => (t.halted, t.held)) (step State.reset) = some (false, none)) ∧
    sees (fun t => t.halted) (step (code [0xFF, 0x00])) = some true ∧
    sees (fun t => (t.halted, t.held))
      (step (withEnv (code [0xD9, 0x00, 0x00]) [] [(0, .pending)] [])) =
        some (false, some (.step 0)) ∧
    dead.held = none ∧ dead.halted = true ∧ dead.fault = some .unknownOpcode := by decide

/-- What the host's step returns in the three cases (R380, R299). -/
theorem test_host_step : (hostPerform .step State.reset).1 = .ok ∧
    (hostPerform .step (code [0xFF, 0x00])).1 = .failed .unknownOpcode ∧
    (hostPerform .step (withEnv (code [0xD9, 0x00, 0x00]) [] [(0, .pending)] [])).1 = .pending ∧
    (hostPerform .halted dead).1 = .flag true := by decide

/-- A host read without an answer holds the machine until its device answers (R293, R395). -/
theorem test_host_read_holds :
    (let s := (hostPerform (.read 0) (withEnv State.reset [] [(0, .pending), (0, .byte 0x41)] [])).2
     (s.held = some (.host 0) ∧ (hostPerform .step s).1 = .pending ∧
      (hostPerform (.get 0) s).1 = .pending ∧ (hostPerform (.read 0) s).1 = .byte 0x41 ∧
      (hostPerform (.read 0) s).2.held = none)) := by decide

/-- A held host read that opened its device binds it when the byte comes, and not when the stream ends
(R300, R396). -/
theorem test_held_host_read_binds :
    (let s := (hostPerform (.read 7) (withEnv State.reset [(7, .ok)] [(7, .pending), (7, .eof)] [])).2
     (s.held = some (.host 7) ∧ (hostPerform (.read 7) s).1 = .failed .ioError ∧
      (hostPerform (.read 7) s).2.bound = State.reset.bound)) ∧
    (let s := (hostPerform (.read 7)
        (withEnv State.reset [(7, .ok)] [(7, .pending), (7, .byte 1)] [])).2
     (hostPerform (.read 7) s).2.isBound 7 = true) := by decide

theorem witness_FaultKindsHaveTheirCodes : (1 : Nat) ≤ 10 ∧ (10 : Nat) ≤ 10 ∧
    Fault.code .loadError = Fault.code .loadError := by decide

/-- The writing of a module gives the text of W3. -/
theorem test_module_text : moduleText (ascii "ADD8  ") 0 6
    [.text 0 [0x01, 0x00, 0x05, 0x19, 0x00, 0x03] []] 0 [] = w3 := by decide

/-- Every kind of line, the last byte of memory, the largest numbers, an empty T record. -/
theorem witness_WrittenModulesAreRead :
    (ascii "P     ").length = 6 ∧ (ascii "P     ").contains 0x0A = false ∧ 0xFFFFFF < 16 ^ 6 ∧
    (∀ item ∈ [ModuleItem.text 0xFFFFF [0xAA, 0xBB] (ascii "x\r"), .text 0xFFFFFF [] [],
      .modification 0xFFFFFF 0xFF (ascii "+SYMBOL"), .define (ascii "NAME"), .refer []],
        item.fits = true) := by decide

end Sys2Proof.Tests
end

section
/-! PROOFS. The state's own statements (spec/10_state.md). Everything an instruction can do to the state
is said once (`exec_effect`), then everything a step can do (`step_effect`) and everything a host
operation can do (`hostPerform_effect`); the invariant, the bound bits and the frames of registers and
devices are read off these. -/

namespace Sys2Proof.Machine

/-! Register writes -/

/-- The state is reached from `s` by writes to some registers, each of a value its register may hold
(R40). -/
inductive Writes (rs : List Reg) (s : State) : State → Prop where
  | none : Writes rs s s
  | put {t : State} {r : Reg} {v : Word} : Writes rs s t → r ∈ rs → (r = .SW → legalCode v = true) →
      Writes rs s (t.put r v)

/-- One write to a register that is not SW. -/
theorem Writes.single {rs : List Reg} {s : State} {r : Reg} (v : Word) (hr : r ∈ rs) (hw : r ≠ .SW) :
    Writes rs s (s.put r v) :=
  .put .none hr (fun h => absurd h hw)

theorem Writes.get {rs : List Reg} {s t : State} {q : Reg} (h : Writes rs s t) (hq : q ∉ rs) :
    t.get q = s.get q := by
  induction h with
  | none => rfl
  | @put t r v _ hr _ ih =>
    have hne : q ≠ r := fun he => hq (he ▸ hr)
    rw [State.put_get_of_ne t v hne, ih]

/-- Register writes change no other piece of state. -/
theorem Writes.frame {rs : List Reg} {s t : State} (h : Writes rs s t) :
    t.mem = s.mem ∧ t.bound = s.bound ∧ t.halted = s.halted ∧ t.fault = s.fault ∧
      t.held = s.held ∧ t.env = s.env := by
  induction h with
  | none => exact ⟨rfl, rfl, rfl, rfl, rfl, rfl⟩
  | put _ _ _ ih => simpa using ih

theorem Writes.legalCode {rs : List Reg} {s t : State} (h : Writes rs s t)
    (hs : legalCode s.SW = true) : legalCode t.SW = true := by
  induction h with
  | none => exact hs
  | @put t r v _ _ hv ih =>
    by_cases hr : r = .SW
    · subst hr; exact hv rfl
    · have h := State.put_get_of_ne t v (Ne.symm hr)
      rw [State.get_SW, State.get_SW] at h
      rwa [h]

/-! Device requests -/

/-- `u` is `s` after requests to the device table: only the bound bits, the read in progress and the
environment may differ, a bound device stays bound (R291), and no read has begun. Where no device may
be reached (`dev = false`) nothing differs at all. -/
structure Requested (dev : Bool) (s u : State) : Prop where
  frame : u = { s with bound := u.bound, held := u.held, env := u.env }
  bound : ∀ d, s.isBound d = true → u.isBound d = true
  held : s.held = none → u.held = none
  alone : dev = false → u = s

theorem Requested.refl (dev : Bool) (s : State) : Requested dev s s :=
  ⟨rfl, fun _ h => h, fun h => h, fun _ => rfl⟩

theorem Requested.trans {dev : Bool} {s u w : State} (h : Requested dev s u)
    (h' : Requested dev u w) : Requested dev s w where
  frame := by rw [h'.frame, h.frame]
  bound d hd := h'.bound d (h.bound d hd)
  held hs := h'.held (h.held hs)
  alone hd := (h'.alone hd).trans (h.alone hd)

theorem Requested.get {dev : Bool} {s u : State} (h : Requested dev s u) (r : Reg) :
    u.get r = s.get r := by
  rw [h.frame]; cases r <;> rfl

/-- A request to the environment alone. -/
theorem Requested.of_env (s : State) (e : DevEnv) : Requested true s { s with env := e } :=
  ⟨rfl, fun _ h => h, fun h => h, nofun⟩

/-- The read in progress ends. -/
theorem Requested.endRead {s u : State} (h : Requested true s u) :
    Requested true s { u with held := none } :=
  h.trans ⟨rfl, fun _ h => h, fun _ => rfl, nofun⟩

theorem Requested.bind {s u : State} (h : Requested true s u) (d : DeviceId) :
    Requested true s (u.bind d) :=
  h.trans ⟨rfl, fun e he => by simp [State.isBound_bind, he], fun h => h, nofun⟩

/-- The bound bits put back as they were before the requests (R396). -/
theorem Requested.restoreBound {s u : State} (h : Requested true s u) :
    Requested true s { u with bound := s.bound } where
  frame := by rw [h.frame]
  bound _ hd := hd
  held hs := h.held hs
  alone := nofun

theorem ensure_requested (d : DeviceId) (s : State) : Requested true s (ensure d s).2 where
  frame := by
    have h : (ensure d s).2.held = s.held := by rw [ensure_state]
    rw [h]; exact ensure_state d s
  bound e he := by simp [ensure_isBound, he]
  held h := by rw [ensure_state]; exact h
  alone := nofun

theorem readBound_requested (d : DeviceId) (s : State) : Requested true s (readBound d s).2 := by
  rw [readBound_state, askGet_state]
  exact .of_env s _

/-- Everything `devRead` can do: the device cannot be opened, or it is bound and read. -/
theorem devRead_cases (d : DeviceId) (s : State) :
    devRead d s = (.fault .deviceUnavailable, (ensure d s).2) ∨
      (ensure d s).2.isBound d = true ∧ devRead d s = readBound d (ensure d s).2 := by
  unfold devRead
  have hb := ensure_isBound d d s
  cases h : ensure d s with
  | mk r t =>
    rw [h] at hb
    cases r with
    | fail => exact .inl rfl
    | ok => exact .inr ⟨by simpa using hb, rfl⟩

theorem devRead_requested (d : DeviceId) (s : State) : Requested true s (devRead d s).2 := by
  rcases devRead_cases d s with h | ⟨-, h⟩ <;> rw [h]
  · exact ensure_requested d s
  · exact (ensure_requested d s).trans (readBound_requested d _)

/-- A device read that waits is of a bound device (R293). -/
theorem devRead_pending {d : DeviceId} {s : State} (h : (devRead d s).1 = .pending) :
    (devRead d s).2.isBound d = true := by
  rcases devRead_cases d s with he | ⟨hb, he⟩
  · rw [he] at h; cases h
  · rw [he]; exact (readBound_requested d _).bound d hb

theorem devWrite_requested (d : DeviceId) (c : Byte) (s : State) :
    Requested true s (devWrite d c s).2 := by
  have he := ensure_requested d s
  unfold devWrite
  cases h : ensure d s with
  | mk r t =>
    rw [h] at he
    cases r with
    | fail => exact he
    | ok =>
      have hp : Requested true s (askPut d c t).2 := by
        rw [askPut_state]; exact he.trans (.of_env t _)
      simp only
      cases ha : askPut d c t with
      | mk r u => rw [ha] at hp; cases r <;> exact hp

/-! What an instruction can do -/

/-- Everything the meaning of an instruction can do to a state, where it may write the registers `rs`
and may reach the devices if `dev`. -/
inductive Effect (dev : Bool) (rs : List Reg) (s : State) : State → Prop where
  /-- It completes with writes to those registers. -/
  | completed {u t : State} : Requested dev s u → Writes rs u t → Effect dev rs s t
  /-- It raises a fault, which no register write precedes (R382). -/
  | failed {u : State} (k : Fault) : Requested dev s u → Effect dev rs s (u.raise k)
  /-- It stores to memory. -/
  | stored (m : Memory) : (s.mem.wf → m.wf) → Effect dev rs s { s with mem := m }
  /-- It waits for a bound device's answer to a read (R299). -/
  | waiting {u : State} (d : DeviceId) : dev = true → Requested dev s u → u.isBound d = true →
      Effect dev rs s { u with held := some (.step d) }

theorem Effect.wrote {dev : Bool} {rs : List Reg} {s t : State} (h : Writes rs s t) :
    Effect dev rs s t :=
  .completed (.refl dev s) h

theorem Effect.raised {dev : Bool} {rs : List Reg} {s : State} (k : Fault) :
    Effect dev rs s (s.raise k) :=
  .failed k (.refl dev s)

section
variable {dev : Bool} {rs : List Reg} {s t : State}

theorem accumulate_effect {f : Word → Word → Except Fault Word} {m : MemOperand}
    (h : accumulate f m s = .next t) : Effect dev [.A] s t := by
  rcases accumulate_next h with ⟨_, a, -, -, rfl⟩ | ⟨k, rfl, -⟩
  · exact .wrote (.single (r := .A) a (by simp) nofun)
  · exact .raised k

theorem loadWord_effect {r : Reg} {m : MemOperand} (hr : r ≠ .SW) (h : loadWord r m s = .next t) :
    Effect dev [r] s t := by
  rcases loadWord_next hr h with ⟨v, -, rfl⟩ | ⟨k, -, rfl⟩
  · exact .wrote (.single v (by simp) hr)
  · exact .raised k

theorem execLdch_effect {m : MemOperand} (h : execLdch m s = .next t) : Effect dev [.A] s t := by
  rcases execLdch_next h with ⟨c, -, rfl⟩ | ⟨k, -, rfl⟩
  · exact .wrote (.single (r := .A) _ (by simp) nofun)
  · exact .raised k

theorem storeWord_effect {v : Word} {m : MemOperand} (h : storeWord v m s = .next t) :
    Effect dev rs s t := by
  rcases storeWord_next h with ⟨_, m', -, hw, rfl⟩ | ⟨k, rfl, -⟩
  · exact .stored m' (fun hm => writeWord_wf hm hw)
  · exact .raised k

theorem execStch_effect {m : MemOperand} (h : execStch m s = .next t) : Effect dev rs s t := by
  rcases execStch_next h with ⟨_, m', -, hw, rfl⟩ | ⟨k, rfl, -⟩
  · exact .stored m' (fun hm => writeByte_wf hm hw)
  · exact .raised k

/-- A comparison's write of SW. -/
theorem Writes.compared (h : Writes rs s t) (hr : .SW ∈ rs) (a b : Word) :
    Writes rs s (t.put .SW (compareWords a b)) :=
  .put h hr (fun _ => legalCode_compareWords a b)

theorem execComp_effect {m : MemOperand} (h : execComp m s = .next t) : Effect dev [.SW] s t := by
  rcases execComp_next h with ⟨v, -, rfl⟩ | ⟨k, -, rfl⟩
  · exact .wrote (.compared .none (by simp) _ _)
  · exact .raised k

theorem execTix_effect {m : MemOperand} (h : execTix m s = .next t) :
    Effect dev [.X, .SW] s t := by
  rcases execTix_next h with ⟨v, -, rfl⟩ | ⟨k, -, rfl⟩
  · have hx : Writes [.X, .SW] s (s.put .X (s.X + 1)) := .single _ (by simp) nofun
    exact .wrote (hx.compared (by simp) _ _)
  · exact .raised k

theorem jumpIf_effect {taken : Word → Bool} {m : MemOperand} (h : jumpIf taken m s = .next t) :
    Effect dev [.PC] s t := by
  rcases jumpIf_next h with ⟨ea, -, rfl⟩ | ⟨k, -, rfl⟩
  · split
    · exact .wrote (.single (r := .PC) ea (by simp) nofun)
    · exact .wrote .none
  · exact .raised k

theorem execJsub_effect {m : MemOperand} (h : execJsub m s = .next t) :
    Effect dev [.L, .PC] s t := by
  rcases execJsub_next h with ⟨ea, -, rfl⟩ | ⟨k, -, rfl⟩
  · exact .wrote (.put (r := .PC) (v := ea) (.single (r := .L) s.PC (by simp) nofun) (by simp) nofun)
  · exact .raised k

theorem execRsub_effect {m : MemOperand} (h : execRsub m s = .next t) : Effect dev [.PC] s t := by
  rcases execRsub_next h with ⟨_, -, rfl⟩ | ⟨k, -, rfl⟩
  · exact .wrote (.single (r := .PC) s.L (by simp) nofun)
  · exact .raised k

theorem combine_effect {f : Word → Word → Except Fault Word} {r1 r2 : RegField}
    (h : combine f r1 r2 s = .next t) : Effect dev (fieldRegs r2) s t := by
  rcases combine_next h with ⟨_, d, v, -, rfl, -, hv, rfl⟩ | ⟨k, rfl⟩
  · exact .wrote (.put .none (by simp [fieldRegs]) hv)
  · exact .raised k

theorem update_effect {f : Word → Word} {r1 : RegField} (h : update f r1 s = .next t) :
    Effect dev (fieldRegs r1) s t := by
  rcases update_next h with ⟨r, rfl, hv, rfl⟩ | ⟨k, rfl⟩
  · exact .wrote (.put .none (by simp [fieldRegs]) hv)
  · exact .raised k

theorem execCompr_effect {r1 r2 : RegField} (h : execCompr r1 r2 s = .next t) :
    Effect dev [.SW] s t := by
  rcases execCompr_next h with ⟨_, _, -, -, rfl⟩ | rfl
  · exact .wrote (.compared .none (by simp) _ _)
  · exact .raised _

theorem execTixr_effect {r1 : RegField} (h : execTixr r1 s = .next t) :
    Effect dev [.X, .SW] s t := by
  rcases execTixr_next h with ⟨_, -, rfl⟩ | rfl
  · have hx : Writes [.X, .SW] s (s.put .X (s.X + 1)) := .single _ (by simp) nofun
    exact .wrote (hx.compared (by simp) _ _)
  · exact .raised _

theorem unimplemented_effect (h : unimplemented s = .next t) : Effect dev rs s t := by
  rw [unimplemented_next h]
  exact .raised _

/-- The end of a device read, begun in state `s`, that came to `p`. -/
theorem finishRead_effect (d : DeviceId) {p : ReadResult × State} (hu : Requested true s p.2)
    (hp : p.1 = .pending → p.2.isBound d = true) : Effect true [.A] s (finishRead d p) := by
  obtain ⟨r, u⟩ := p
  rcases finishRead_cases d r u with ⟨c, -, h⟩ | ⟨k, -, h⟩ | ⟨hr, h⟩ <;> rw [h]
  · exact .completed hu.endRead (.single (r := .A) _ (by simp) nofun)
  · exact .failed k hu.endRead
  · exact .waiting d rfl hu (hp hr)

theorem testDevice_effect (d : DeviceId) (s : State) : Effect true [.SW] s (testDevice d s) := by
  have he := ensure_requested d s
  unfold testDevice
  cases h : ensure d s with
  | mk r u =>
    rw [h] at he
    cases r with
    | ok => exact .completed he (.put (r := .SW) (v := ccLT) .none (by simp) (fun _ => rfl))
    | fail => exact .completed he (.put (r := .SW) (v := ccEQ) .none (by simp) (fun _ => rfl))

theorem readDevice_effect (d : DeviceId) (s : State) : Effect true [.A] s (readDevice d s) :=
  finishRead_effect d (devRead_requested d s) devRead_pending

theorem writeDevice_effect (d : DeviceId) (s : State) : Effect true [] s (writeDevice d s) := by
  have hw := devWrite_requested d (lowByte s.A) s
  unfold writeDevice
  cases h : devWrite d (lowByte s.A) s with
  | mk r u =>
    rw [h] at hw
    cases r with
    | none => exact .completed hw .none
    | some k => exact .failed k hw

/-- An instruction on a device does what it does on the device its operand names, or raises the
operand's fault. -/
theorem withDevice_effect {f : DeviceId → State → State} {m : MemOperand}
    (hf : ∀ d s, Effect true rs s (f d s))
    (h : (.next (withDevice f m s) : Answer) = .next t) : Effect true rs s t := by
  rw [← next_inj h]
  rcases withDevice_cases f m s with ⟨d, -, he⟩ | ⟨k, -, he⟩ <;> rw [he]
  · exact hf d s
  · exact .raised k

end

/-- Everything an instruction can do: it writes only the registers listed for it (R42), and only TD, RD
and WD reach the devices (R81). -/
theorem exec_effect {i : Instr} {s t : State} (h : exec i s = .next t) :
    Effect (usesDevice i) (destinations i) s t := by
  unfold exec at h
  cases i with
  | float | fix | norm | sio | hio | tio => exact unimplemented_effect h
  | svc _ _ => exact unimplemented_effect h
  | addf _ | subf _ | mulf _ | divf _ | compf _ | lps _ | sti _ | ssk _ =>
    exact unimplemented_effect h
  | addr _ _ | subr _ _ | mulr _ _ | divr _ _ | rmo _ _ => exact combine_effect h
  | compr _ _ => exact execCompr_effect h
  | shiftl _ _ | shiftr _ _ | clear _ _ => exact update_effect h
  | tixr _ _ => exact execTixr_effect h
  | lda _ | ldx _ | ldl _ | ldb _ | lds _ | ldf _ | ldt _ => exact loadWord_effect nofun h
  | sta _ | stx _ | stl _ | stb _ | sts _ | stf _ | stt _ | stsw _ => exact storeWord_effect h
  | add _ | sub _ | mul _ | div _ | and _ | or _ => exact accumulate_effect h
  | comp _ => exact execComp_effect h
  | tix _ => exact execTix_effect h
  | jeq _ | jgt _ | jlt _ | j _ => exact jumpIf_effect h
  | jsub _ => exact execJsub_effect h
  | rsub _ => exact execRsub_effect h
  | ldch _ => exact execLdch_effect h
  | stch _ => exact execStch_effect h
  | rd _ => exact withDevice_effect readDevice_effect h
  | wd _ => exact withDevice_effect writeDevice_effect h
  | td _ => exact withDevice_effect testDevice_effect h

theorem Effect.get {dev : Bool} {rs : List Reg} {s t : State} {r : Reg} (h : Effect dev rs s t)
    (hr : r ∉ rs) : t.get r = s.get r := by
  cases h with
  | completed hu hw => rw [hw.get hr, hu.get]
  | failed k hu => rw [State.raise_get, hu.get]
  | stored m _ => cases r <;> rfl
  | @waiting u d _ hu _ =>
    rw [← hu.get r]
    cases r <;> rfl

/-- Without devices no effect touches the device table, a read in progress or the environment. -/
theorem Effect.devices_unchanged {rs : List Reg} {s t : State} (h : Effect false rs s t) :
    t.bound = s.bound ∧ t.held = s.held ∧ t.env = s.env := by
  cases h with
  | completed hu hw =>
    obtain rfl := hu.alone rfl
    obtain ⟨-, hbound, -, -, hheld, henv⟩ := hw.frame
    exact ⟨hbound, hheld, henv⟩
  | failed k hu => rw [hu.alone rfl]; exact ⟨rfl, rfl, rfl⟩
  | stored m _ => exact ⟨rfl, rfl, rfl⟩
  | waiting d hdev _ _ => cases hdev

/-- Settles O25: the registers written are those of the effect. -/
theorem registersChangeOnlyAsListed : Obligations.RegistersChangeOnlyAsListed := by
  intro i s t r h hr
  exact (exec_effect h).get hr

/-- Settles O26. -/
theorem onlyDeviceInstructionsReachDevices : Obligations.OnlyDeviceInstructionsReachDevices := by
  intro i s t hi h
  have he := exec_effect h
  rw [hi] at he
  exact he.devices_unchanged

end Sys2Proof.Machine
end

section
/-! PROOFS. What a step and a host operation can do to the state, and the invariant they keep. -/

namespace Sys2Proof.Machine

/-! The invariant under the changes an effect is made of -/

section
variable {dev : Bool} {rs : List Reg} {s t u : State}

theorem Writes.inv (h : Writes rs s t) (hs : s.inv) : t.inv := by
  obtain ⟨hmem, hbound, hhalted, hfault, hheld, -⟩ := h.frame
  obtain ⟨hwf, hcode, hlatch, hread, hdev⟩ := hs
  refine ⟨hmem ▸ hwf, h.legalCode hcode, by rw [hhalted, hfault, hlatch], ?_, ?_⟩
  · simpa only [State.isBound, hbound, hhalted, hheld] using hread
  · simpa only [State.isBound, hbound] using hdev

/-- Requests with no read in progress keep the invariant. -/
theorem Requested.inv (h : Requested dev s u) (hs : s.inv) (hfree : s.held = none) : u.inv := by
  obtain ⟨hwf, hcode, hlatch, -, h0, h1, h2⟩ := hs
  have hbound := h.bound
  have hheld := h.held hfree
  rw [h.frame] at hbound ⊢
  rw [hheld]
  exact ⟨hwf, hcode, hlatch, nofun, hbound 0 h0, hbound 1 h1, hbound 2 h2⟩

theorem Requested.halted (h : Requested dev s u) : u.halted = s.halted := by rw [h.frame]

theorem State.inv_raise (k : Fault) (hs : s.inv) (hfree : s.held = none) : (s.raise k).inv := by
  obtain ⟨hwf, hcode, -, -, hdev⟩ := hs
  refine ⟨hwf, hcode, rfl, ?_, hdev⟩
  rw [State.raise_held, hfree]
  nofun

theorem State.inv_mem {m : Memory} (hs : s.inv) (hm : m.wf) : State.inv { s with mem := m } := by
  obtain ⟨-, hrest⟩ := hs
  exact ⟨hm, hrest⟩

/-- An effect on a running machine with no read in progress keeps the invariant. -/
theorem Effect.inv (h : Effect dev rs s t) (hs : s.inv) (hrun : s.halted = false)
    (hfree : s.held = none) : t.inv := by
  cases h with
  | completed hu hw => exact hw.inv (hu.inv hs hfree)
  | failed k hu => exact State.inv_raise k (hu.inv hs hfree) (hu.held hfree)
  | stored m hm => exact State.inv_mem hs (hm hs.1)
  | @waiting u d _ hu hd =>
    obtain ⟨hwf, hcode, hlatch, -, hdev⟩ := hu.inv hs hfree
    refine ⟨hwf, hcode, hlatch, ?_, hdev⟩
    rintro w ⟨rfl⟩
    exact .inr ⟨hd, hu.halted.trans hrun⟩

theorem Effect.isBound {d : DeviceId} (h : Effect dev rs s t) (hd : s.isBound d = true) :
    t.isBound d = true := by
  cases h with
  | @completed u _ hu hw =>
    obtain ⟨-, hbound, -⟩ := hw.frame
    have := hu.bound d hd
    rwa [State.isBound, hbound]
  | failed k hu => exact hu.bound d hd
  | stored m _ => exact hd
  | waiting e _ hu _ => exact hu.bound d hd

end

/-! What a step can do -/

/-- The state with no read in progress. -/
def State.freed (s : State) : State := { s with held := none }

theorem State.freed_of_free {s : State} (h : s.held = none) : s.freed = s := by
  cases s; cases h; rfl

theorem State.inv_freed {s : State} (h : s.inv) : s.freed.inv := by
  obtain ⟨hwf, hcode, hlatch, -, hdev⟩ := h
  exact ⟨hwf, hcode, hlatch, nofun, hdev⟩

/-- The fetches keep the invariant. -/
theorem State.inv_advance {s : State} (h : s.inv) (n : Nat) : (s.advance n).inv := h

/-- The environment is no part of the invariant. -/
theorem State.inv_env {s : State} (h : s.inv) (e : DevEnv) : State.inv { s with env := e } := h

/-- What a machine's read in progress can be. -/
theorem State.held_cases (s : State) :
    s.held = none ∨ (∃ d, s.held = some (.step d)) ∨ ∃ d, s.held = some (.host d) := by
  match s.held with
  | none => exact .inl rfl
  | some (.step d) => exact .inr (.inl ⟨d, rfl⟩)
  | some (.host d) => exact .inr (.inr ⟨d, rfl⟩)

/-- A held read that asks its device again, and ends, has only asked the environment. -/
theorem readBound_requested_freed (d : DeviceId) (s : State) :
    Requested true s.freed { (readBound d s).2 with held := none } := by
  rw [readBound_state, askGet_state]
  exact .of_env s.freed _

/-- A held RD goes on waiting, or ends as an RD that the step began (R299). -/
theorem resumeRead_effect {d : DeviceId} {s : State} (h : s.held = some (.step d)) :
    (∃ e, resumeRead d s = { s with env := e }) ∨ Effect true [.A] s.freed (resumeRead d s) := by
  have hu := readBound_requested_freed d s
  unfold resumeRead
  rcases finishRead_cases d (readBound d s).1 (readBound d s).2 with
    ⟨c, -, hf⟩ | ⟨k, -, hf⟩ | ⟨-, hf⟩
  · exact .inr (by rw [hf]; exact .completed hu (.single (r := .A) _ (by simp) nofun))
  · exact .inr (by rw [hf]; exact .failed k hu)
  · refine .inl ⟨(askGet d s).2.env, ?_⟩
    rw [hf, readBound_state, askGet_state, ← h]

/-- Everything a step can do: it changes at most the environment, or it is the effect of an instruction
on the running machine, with some fetches behind it and no read in progress. -/
theorem step_effect {s t : State} (h : step s = .next t) :
    (∃ e, t = { s with env := e }) ∨
      s.halted = false ∧ ∃ n dev rs, Effect dev rs (s.freed.advance n) t := by
  by_cases hrun : s.halted = false
  case neg =>
    rw [step_halted (Bool.eq_true_of_not_eq_false hrun)] at h
    exact .inl ⟨s.env, (next_inj h).symm⟩
  rcases s.held_cases with hheld | ⟨d, hheld⟩ | ⟨d, hheld⟩
  · rw [State.freed_of_free hheld]
    refine .inr ⟨hrun, ?_⟩
    rcases step_cases hrun hheld with ⟨j, -, -, hs⟩ | ⟨n, -, -, -, -, ⟨e, -, hs⟩ | ⟨i, _, -, hs⟩⟩
    · obtain rfl := next_inj (hs.symm.trans h)
      exact ⟨j, false, [], .raised _⟩
    · obtain rfl := next_inj (hs.symm.trans h)
      exact ⟨n, false, [], .raised _⟩
    · exact ⟨n, _, _, exec_effect (hs.symm.trans h)⟩
  · rw [step_held hrun hheld] at h
    obtain rfl := next_inj h
    refine (resumeRead_effect hheld).imp_right fun he => ⟨hrun, 0, true, [.A], ?_⟩
    rwa [State.advance_zero]
  · rw [step_held_host hheld] at h
    exact .inl ⟨s.env, (next_inj h).symm⟩

/-- Every step keeps the invariant. -/
theorem step_inv {s t : State} (hs : s.inv) (h : step s = .next t) : t.inv := by
  rcases step_effect h with ⟨e, rfl⟩ | ⟨hrun, n, _, _, he⟩
  · exact State.inv_env hs e
  · exact he.inv (State.inv_advance (State.inv_freed hs) n) hrun rfl

theorem step_isBound {s t : State} {d : DeviceId} (h : step s = .next t) (hd : s.isBound d = true) :
    t.isBound d = true := by
  rcases step_effect h with ⟨e, rfl⟩ | ⟨-, n, _, _, he⟩
  · exact hd
  · exact he.isBound hd

/-- Every instruction has a next state. -/
theorem exec_answers_next (i : Instr) (s : State) : ∃ t, exec i s = .next t := by
  cases i <;> exact ⟨_, rfl⟩

/-- Every step has a next state: its own faults are next states too (log 1). -/
theorem step_answers_next (s : State) : ∃ t, step s = .next t := by
  by_cases hrun : s.halted = false
  case neg => exact ⟨s, step_halted (Bool.eq_true_of_not_eq_false hrun)⟩
  rcases s.held_cases with hheld | ⟨d, hheld⟩ | ⟨d, hheld⟩
  · rcases step_cases hrun hheld with ⟨_, -, -, hs⟩ | ⟨n, -, -, -, -, ⟨_, -, hs⟩ | ⟨i, _, -, hs⟩⟩
    · exact ⟨_, hs⟩
    · exact ⟨_, hs⟩
    · rw [hs]; exact exec_answers_next i _
  · exact ⟨_, step_held hrun hheld⟩
  · exact ⟨s, step_held_host hheld⟩

/-- Settles O12: a step that is an instruction's effect starts from a running machine with no read in
progress, where effects keep the invariant. -/
theorem stepKeepsTheInvariant : Obligations.StepKeepsTheInvariant :=
  fun _ _ hs h => step_inv hs h

/-- Settles O13. -/
theorem resetHasTheInvariant : Obligations.ResetHasTheInvariant :=
  ⟨reset_mem_wf, rfl, rfl, nofun, by decide, by decide, by decide⟩

/-! What a host operation can do -/

/-- The host's step leaves what the step leaves. -/
theorem hostStep_state {s t : State} (h : step s = .next t) : (hostStep s).2 = t := by
  simp only [hostStep, h]
  split <;> rfl

/-- Everything a host operation but `step` can do to a state with no read in progress. -/
inductive HostEffect (op : HostOp) (s : State) : State → Prop where
  /-- It makes device requests and writes registers, or neither. -/
  | completed {u t : State} {rs : List Reg} : Requested true s u → Writes rs u t → HostEffect op s t
  /-- It writes memory. -/
  | stored (m : Memory) : (s.mem.wf → m.wf) → HostEffect op s { s with mem := m }
  /-- It creates the machine anew (R410). -/
  | created : op = .reset → HostEffect op s (hostReset s)
  /-- It loads a module (R447). -/
  | loaded (m : Memory) (pc : Word) : (s.mem.wf → m.wf) →
      HostEffect op s { s.resume with mem := m, PC := pc }
  /-- It fails to load one (R448). -/
  | rejected : HostEffect op s (s.raise .loadError)
  /-- It waits for a device's answer to a host read (R300). -/
  | waiting {u : State} (d : DeviceId) : Requested true s u →
      HostEffect op s { u with held := some (.host d) }

section
variable {op : HostOp} {s t : State}

theorem HostEffect.none (op : HostOp) (s : State) : HostEffect op s s :=
  .completed (rs := []) (.refl true s) .none

theorem HostEffect.requested (h : Requested true s t) : HostEffect op s t :=
  .completed (rs := []) h .none

/-- Loading keeps the memory's form, and so the invariant, whether or not the module parses. -/
theorem loadModule_effect (text : List Byte) (s : State) : HostEffect op s (loadModule text s) := by
  unfold loadModule
  cases parseModule text with
  | none => exact .rejected
  | some image => exact .loaded _ _ (fun hm => writeTexts_wf hm _)

theorem hostLoad_state (text : List Byte) (s : State) : (hostLoad text s).2 = loadModule text s := by
  unfold hostLoad
  cases h : (loadModule text s).fault <;> simp [h]

/-- An operation that writes leaves what it wrote, or, failing, the state as it was (R396). -/
theorem written_effect {r : Except Fault State} (h : ∀ t, r = .ok t → HostEffect op s t) :
    HostEffect op s (written s r).2 := by
  cases r with
  | ok t => exact h t rfl
  | error k => exact .none op s

theorem hostSet_effect {id v : Int} (h : hostSet id v s = .ok t) : HostEffect op s t := by
  obtain ⟨r, -, h⟩ := except_bind_eq_ok h
  obtain ⟨n, -, h⟩ := except_bind_eq_ok h
  obtain ⟨rfl, hv⟩ := State.set_ok h
  exact .completed (rs := [r]) (.refl true s) (.put .none (by simp) hv)

theorem hostWriteByte_effect {addr v : Int} (h : hostWriteByte addr v s = .ok t) :
    HostEffect op s t := by
  obtain ⟨a, -, h⟩ := except_bind_eq_ok h
  obtain ⟨b, -, h⟩ := except_bind_eq_ok h
  obtain ⟨m, hm, h⟩ := except_bind_eq_ok h
  cases h
  exact .stored m (fun hwf => writeByte_wf hwf hm)

theorem hostWriteWord_effect {addr v : Int} (h : hostWriteWord addr v s = .ok t) :
    HostEffect op s t := by
  obtain ⟨a, -, h⟩ := except_bind_eq_ok h
  obtain ⟨w, -, h⟩ := except_bind_eq_ok h
  obtain ⟨m, hm, h⟩ := except_bind_eq_ok h
  cases h
  exact .stored m (fun hwf => writeWord_wf hwf hm)

theorem hostTest_effect (id : Int) (s : State) : HostEffect op s (hostTest id s).2 := by
  unfold hostTest
  cases hostNat 255 id with
  | error k => exact .none op s
  | ok d =>
    have he := ensure_requested (BitVec.ofNat 8 d) s
    simp only
    cases h : ensure (BitVec.ofNat 8 d) s with
    | mk r t => rw [h] at he; cases r <;> exact .requested he

/-- The end of a host read, begun in state `s`, that came to `p`. -/
theorem finishHostRead_effect (d : DeviceId) {p : ReadResult × State} (hp : Requested true s p.2) :
    HostEffect op s (finishHostRead d s.bound p).2 := by
  obtain ⟨r, u⟩ := p
  rcases finishHostRead_cases d s.bound r u with ⟨c, -, h⟩ | ⟨k, -, h⟩ | ⟨-, h⟩ <;> rw [h]
  · exact .requested (hp.bind d).endRead
  · exact .requested hp.restoreBound.endRead
  · exact .waiting d hp.restoreBound

theorem hostRead_effect (id : Int) (s : State) : HostEffect op s (hostRead id s).2 := by
  unfold hostRead
  cases hostNat 255 id with
  | error k => exact .none op s
  | ok d => exact finishHostRead_effect _ (devRead_requested _ s)

theorem hostWrite_effect (id v : Int) (s : State) : HostEffect op s (hostWrite id v s).2 := by
  unfold hostWrite
  cases hostNat 255 id with
  | error k => exact .none op s
  | ok d =>
    cases hostNat 0xFF v with
    | error k => exact .none op s
    | ok b =>
      have hw := devWrite_requested (BitVec.ofNat 8 d) (BitVec.ofNat 8 b) s
      simp only
      cases h : devWrite (BitVec.ofNat 8 d) (BitVec.ofNat 8 b) s with
      | mk r t =>
        rw [h] at hw
        cases r with
        | none => exact .requested hw
        | some k => exact .requested hw.restoreBound

/-- Every operation served is a step or has a host operation's effect. -/
theorem hostServe_effect (op : HostOp) (s : State) :
    step s = .next (hostServe op s).2 ∨ HostEffect op s (hostServe op s).2 := by
  cases op with
  | step =>
    obtain ⟨t, ht⟩ := step_answers_next s
    refine .inl (ht.trans ?_)
    rw [show (hostServe .step s).2 = t from hostStep_state ht]
  | reset => exact .inr (.created rfl)
  | load text =>
    right
    rw [show (hostServe (.load text) s).2 = _ from hostLoad_state text s]
    exact loadModule_effect text s
  | halted | get _ | readByte _ | readWord _ | dump _ _ => exact .inr (.none _ s)
  | set _ _ => exact .inr (written_effect fun _ h => hostSet_effect h)
  | writeByte _ _ => exact .inr (written_effect fun _ h => hostWriteByte_effect h)
  | writeWord _ _ => exact .inr (written_effect fun _ h => hostWriteWord_effect h)
  | test id => exact .inr (hostTest_effect id s)
  | read id => exact .inr (hostRead_effect id s)
  | write id v => exact .inr (hostWrite_effect id v s)

/-- A held host read that asks again does what a read begun with none in progress does. -/
theorem hostResumeRead_effect (d : DeviceId) (s : State) :
    HostEffect op s.freed (hostResumeRead d s).2 := by
  have hu := readBound_requested_freed d s
  have he := finishHostRead_effect (op := op) d (p := ((readBound d s).1, _)) hu
  show HostEffect op s.freed (finishHostRead d s.bound ((readBound d s).1, (readBound d s).2)).2
  generalize (readBound d s).1 = r at he ⊢
  cases r <;> exact he

/-- Everything a host operation can do: nothing, a step, or a host operation's effect with no read in
progress. -/
theorem hostPerform_effect (op : HostOp) (s : State) :
    (hostPerform op s).2 = s ∨ step s = .next (hostPerform op s).2 ∨
      HostEffect op s.freed (hostPerform op s).2 := by
  rcases s.held_cases with hheld | ⟨d, hheld⟩ | ⟨d, hheld⟩
  · rw [hostPerform_free hheld, State.freed_of_free hheld]
    exact .inr (hostServe_effect op s)
  · rw [hostPerform_step_held hheld]
    split
    · obtain ⟨t, ht⟩ := step_answers_next s
      exact .inr (.inl (by rw [hostStep_state ht, ht]))
    · exact .inl rfl
  · rw [hostPerform_host_held hheld]
    split
    · exact .inr (.inr (hostResumeRead_effect d s))
    · exact .inl rfl

theorem HostEffect.inv (h : HostEffect op s t) (hs : s.inv) (hfree : s.held = Option.none) :
    t.inv := by
  cases h with
  | completed hu hw => exact hw.inv (hu.inv hs hfree)
  | stored m hm => exact State.inv_mem hs (hm hs.1)
  | created _ => exact State.inv_env resetHasTheInvariant s.env
  | loaded m pc hm =>
    obtain ⟨hwf, hcode, -, -, hdev⟩ := hs
    refine ⟨hm hwf, hcode, rfl, ?_, hdev⟩
    show ∀ w ∈ s.held, _
    rw [hfree]
    nofun
  | rejected => exact State.inv_raise _ hs hfree
  | waiting d hu =>
    obtain ⟨hwf, hcode, hlatch, -, hdev⟩ := hu.inv hs hfree
    refine ⟨hwf, hcode, hlatch, ?_, hdev⟩
    rintro w ⟨rfl⟩
    exact .inl rfl

theorem HostEffect.isBound {d : DeviceId} (h : HostEffect op s t) (hop : op ≠ .reset)
    (hd : s.isBound d = true) : t.isBound d = true := by
  cases h with
  | completed hu hw =>
    obtain ⟨-, hbound, -⟩ := hw.frame
    have := hu.bound d hd
    rwa [State.isBound, hbound]
  | stored m _ => exact hd
  | created h => exact absurd h hop
  | loaded m pc _ => exact hd
  | rejected => exact hd
  | waiting e hu => exact hu.bound d hd

end

/-- Settles O14: an operation does nothing, or a step, or has one of the effects of `HostEffect`. -/
theorem hostOperationsKeepTheInvariant : Obligations.HostOperationsKeepTheInvariant := by
  intro op s hs
  rcases hostPerform_effect op s with h | h | h
  · rwa [h]
  · exact step_inv hs h
  · exact h.inv (State.inv_freed hs) rfl

/-- Settles O16. -/
theorem boundBitsNeverClear : Obligations.BoundBitsNeverClear := by
  refine ⟨fun s t d h hd => step_isBound h hd, fun op s d hop hd => ?_⟩
  rcases hostPerform_effect op s with h | h | h
  · rwa [h]
  · exact step_isBound h hd
  · exact h.isBound hop hd

end Sys2Proof.Machine
end

section
/-! PROOFS. Fetching, the register write of the host, the replies of its step, the reset values and the
fault codes. -/

namespace Sys2Proof.Machine

/-! Fetching -/

/-- The fetches of an instruction that ends in memory do not wrap PC (R48). -/
theorem State.advance_PC {s : State} {n : Nat} (h : s.PC.toNat + n ≤ maxAddress + 1) :
    (s.advance n).PC.toNat = s.PC.toNat + n := by
  have hmax : maxAddress = 0x100000 := rfl
  show (s.PC + BitVec.ofNat 24 n).toNat = _
  rw [BitVec.toNat_add, BitVec.toNat_ofNat]
  omega

theorem fetchInstr_of_beyond {s : State} (h : maxAddress < s.PC.toNat) :
    fetchInstr s = .fault .outOfRange s := by
  rw [fetchInstr, fetchByte_eq_error h]

/-- Settles O9: the fetches end after `n` bytes in memory, or at the first byte beyond it. -/
theorem fetchedPCNeverWraps : Obligations.FetchedPCNeverWraps := by
  refine ⟨fun s t bs h => ?_, fun s t k h => ?_, fun s hrun hheld hpc => ?_⟩
  · rcases fetchInstr_cases s with ⟨n, -, -, hn, hf⟩ | ⟨j, -, hf, -⟩
    · obtain ⟨rfl, rfl⟩ := Fetched.bytes.inj (hf.symm.trans h)
      have hpc := State.advance_PC hn
      rw [bytesAt_length]
      exact ⟨rfl, rfl, hpc, hpc ▸ hn⟩
    · cases hf.symm.trans h
  · rcases fetchInstr_cases s with ⟨n, -, -, -, hf⟩ | ⟨j, -, hf, hj⟩
    · cases hf.symm.trans h
    · obtain ⟨rfl, rfl⟩ := Fetched.fault.inj (hf.symm.trans h)
      rcases hj with ⟨rfl, hbeyond⟩ | hj
      · rw [State.advance_zero]
        exact ⟨rfl, rfl, hbeyond, .inl rfl⟩
      · have hpc : (s.advance j).PC.toNat = 0x100001 := (State.advance_PC hj.le).trans hj
        exact ⟨rfl, rfl, by omega, .inr hpc⟩
  · rw [step_running hrun hheld, fetchInstr_of_beyond hpc]
    rfl

/-- The fetches of an instruction of Format 1 that stands in memory. -/
theorem fetchInstr_format1 {s : State} (hpc : s.PC.toNat + 1 ≤ maxAddress + 1)
    (hf : isFormat1 (s.mem.read s.PC.toNat) = true) :
    fetchInstr s = .bytes (bytesAt s.mem s.PC.toNat 1) (s.advance 1) := by
  rw [fetchInstr, fetchByte_eq (by omega)]
  simp only [hf, if_true]
  rw [bytesAt_succ]
  rfl

/-- The fetches of an instruction of another format that stands in memory, `k` bytes after its second. -/
theorem fetchInstr_longer {s : State} {k : Nat} (hpc : s.PC.toNat + (k + 2) ≤ maxAddress + 1)
    (hf : isFormat1 (s.mem.read s.PC.toNat) = false)
    (hk : tailLength (s.mem.read s.PC.toNat) (s.mem.read (s.PC.toNat + 1)) = k) :
    fetchInstr s = .bytes (bytesAt s.mem s.PC.toNat (k + 2)) (s.advance (k + 2)) := by
  have h1 := pc_succ (p := s.PC) (by omega)
  have h2 := pc_succ (p := s.PC + 1) (by omega)
  rw [fetchInstr, fetchByte_eq (by omega)]
  simp only [hf, Bool.false_eq_true, if_false]
  rw [fetchByte_eq (s := { s with PC := s.PC + 1 }) (by simp only; omega)]
  simp only [h1]
  rw [show (instrLength _ _).getD 2 - 2 = k from hk,
    fetchMore_eq k _ { s with PC := s.PC + 1 + 1 } (by simp only; omega),
    bytesAt_succ, bytesAt_succ]
  have ha := State.advance_succ { s with PC := s.PC + 1 } k
  simp only at ha
  rw [ha, State.advance_succ]
  simp only [h1, h2]
  rfl

/-- What an operand decoded to the end of the bytes takes after the first two is the length of R117. -/
theorem tailLength_of_decodeOperand {b0 b1 : Byte} {rest : List Byte} {m : MemOperand}
    (h1 : isFormat1 b0 = false) (h2 : isFormat2 b0 = false) (h34 : isFormat34 b0 = true)
    (h : decodeOperand b0 b1 rest = some (m, [])) : tailLength b0 b1 = rest.length := by
  simp only [tailLength, instrLength, h1, h2, h34, Bool.false_eq_true, if_false, if_true]
  unfold decodeOperand at h
  cases hm : modeOf b0 with
  | none =>
    rw [hm] at h
    match rest, h with
    | [_], _ => rfl
  | some mode =>
    rw [hm] at h
    cases h4 : b1.getLsbD 4 with
    | false =>
      rw [h4] at h
      match rest, h with
      | [_], _ => rfl
    | true =>
      rw [h4] at h
      match rest, h with
      | [_, _], _ => rfl

/-- Bytes that decode with nothing left over are as many as the fetches of R152 read. -/
theorem decode_whole {bs : List Byte} {i : Instr} (h : decode bs = .ok (i, [])) :
    (∃ b0, bs = [b0] ∧ isFormat1 b0 = true) ∨
      ∃ b0 b1 rest, bs = b0 :: b1 :: rest ∧ isFormat1 b0 = false ∧
        tailLength b0 b1 = rest.length := by
  match bs with
  | [] => cases h
  | b0 :: rest =>
    cases hl1 : lookup b0 format1Table with
    | some _ =>
      simp only [decode, hl1] at h
      cases h
      exact .inl ⟨b0, rfl, by simp [isFormat1, hl1]⟩
    | none =>
      have h1 : isFormat1 b0 = false := by simp [isFormat1, hl1]
      match rest with
      | [] => simp [decode, hl1] at h
      | b1 :: rest =>
        refine .inr ⟨b0, b1, rest, rfl, h1, ?_⟩
        cases hl2 : lookup b0 format2Table with
        | some _ =>
          simp only [decode, hl1, hl2] at h
          cases h
          simp [tailLength, instrLength, h1, isFormat2, hl2]
        | none =>
          cases hl34 : lookup (trueOpcode b0) format34Table with
          | none => simp [decode, hl1, hl2, hl34] at h
          | some mk =>
            cases ho : decodeOperand b0 b1 rest with
            | none => simp [decode, hl1, hl2, hl34, ho] at h
            | some p =>
              obtain ⟨m, r⟩ := p
              simp only [decode, hl1, hl2, hl34, ho] at h
              cases h
              exact tailLength_of_decodeOperand h1 (by simp [isFormat2, hl2])
                (by simp [isFormat34, hl34]) ho

/-- The fetches read the bytes that decode to one instruction, all of them. -/
theorem fetchInstr_of_decode {s : State} {i : Instr} {n : Nat}
    (hpc : s.PC.toNat + n ≤ maxAddress + 1)
    (h : decode (bytesAt s.mem s.PC.toNat n) = .ok (i, [])) :
    fetchInstr s = .bytes (bytesAt s.mem s.PC.toNat n) (s.advance n) := by
  have hlen := bytesAt_length s.mem s.PC.toNat n
  rcases decode_whole h with ⟨b0, hbs, hf⟩ | ⟨b0, b1, rest, hbs, hf, htail⟩
  · obtain rfl : n = 1 := by rw [← hlen, hbs]; rfl
    rw [bytesAt_succ] at hbs
    obtain ⟨rfl, -⟩ := List.cons.inj hbs
    exact fetchInstr_format1 hpc hf
  · obtain rfl : n = rest.length + 2 := by rw [← hlen, hbs]; rfl
    simp only [bytesAt_succ, List.cons.injEq] at hbs
    obtain ⟨rfl, rfl, -⟩ := hbs
    exact fetchInstr_longer hpc hf htail

/-- Settles O6. -/
theorem stepRunsTheDecodedInstruction : Obligations.StepRunsTheDecodedInstruction := by
  intro s i n hrun hheld hpc h
  rw [step_running hrun hheld, fetchInstr_of_decode hpc h, runFetched, h]
  rfl

/-! The register write of the host -/

theorem hostReg_id (r : Reg) : hostReg r.id.toNat = .ok r := by
  cases r <;> rfl

/-- The only integers that name a register are the ids of the nine (R31). -/
theorem hostReg_ok {id : Int} {r : Reg} (h : hostReg id = .ok r) : id = r.id.toNat := by
  unfold hostReg at h
  split at h
  case isFalse => cases h
  case isTrue hid =>
    obtain ⟨hlow, hhigh⟩ := hid
    interval_cases id <;> cases h <;> rfl

theorem hostReg_error {id : Int} (h : ∀ r : Reg, id ≠ r.id.toNat) :
    hostReg id = .error .invalidRegister := by
  have hnone : ∀ r, hostReg id ≠ .ok r := fun r hr => h r (hostReg_ok hr)
  unfold hostReg at hnone ⊢
  split
  · rename_i hid
    rw [if_pos hid] at hnone
    cases hr : Reg.ofId (BitVec.ofInt 4 id) with
    | none => rfl
    | some r => rw [hr] at hnone; exact absurd rfl (hnone r)
  · rfl

theorem hostNat_ok {bound : Nat} {v : Int} (h : 0 ≤ v ∧ v ≤ bound) :
    hostNat bound v = .ok v.toNat := if_pos h

theorem hostNat_error {bound : Nat} {v : Int} (h : ¬ (0 ≤ v ∧ v ≤ bound)) :
    hostNat bound v = .error .outOfRange := if_neg h

/-- The codes SW may hold, as numbers (R50). -/
theorem legalCode_iff (w : Word) :
    legalCode w = true ↔ w.toNat = 0 ∨ w.toNat = 0x40 ∨ w.toNat = 0x80 := by
  simp only [legalCode, Bool.or_eq_true, beq_iff_eq, or_assoc, ← BitVec.toNat_inj]
  rfl

/-- The values the host may write to a register (R40). -/
def settable (r : Reg) (v : Int) : Prop :=
  0 ≤ v ∧ v ≤ 0xFFFFFF ∧ (r = .SW → v = 0 ∨ v = 0x40 ∨ v = 0x80)

theorem hostWord_toNat {v : Int} (h0 : 0 ≤ v) (h1 : v ≤ 0xFFFFFF) :
    (BitVec.ofNat 24 v.toNat).toNat = v.toNat := by
  rw [BitVec.toNat_ofNat]
  omega

theorem hostSet_ok {s : State} {r : Reg} {v : Int} (h : settable r v) :
    hostSet r.id.toNat v s = .ok (s.put r (BitVec.ofNat 24 v.toNat)) := by
  obtain ⟨h0, h1, hcode⟩ := h
  have hlegal : ¬ (r = .SW ∧ legalCode (BitVec.ofNat 24 v.toNat) = false) := by
    rintro ⟨hr, hl⟩
    have := hcode hr
    rw [← Bool.not_eq_true, legalCode_iff, hostWord_toNat h0 h1] at hl
    omega
  rw [hostSet, hostReg_id, hostNat_ok ⟨h0, h1⟩]
  exact if_neg hlegal

theorem hostSet_error {s : State} {r : Reg} {v : Int} (h : ¬ settable r v) :
    hostSet r.id.toNat v s = .error .outOfRange := by
  rw [hostSet, hostReg_id]
  by_cases hv : 0 ≤ v ∧ v ≤ 0xFFFFFF
  · obtain ⟨h0, h1⟩ := hv
    rw [hostNat_ok ⟨h0, h1⟩]
    refine if_pos ?_
    have hcode : ¬ (r = .SW → v = 0 ∨ v = 0x40 ∨ v = 0x80) := fun hc => h ⟨h0, h1, hc⟩
    obtain ⟨hr, hne⟩ := Classical.not_imp.1 hcode
    refine ⟨hr, ?_⟩
    rw [← Bool.not_eq_true, legalCode_iff, hostWord_toNat h0 h1]
    omega
  · rw [hostNat_error hv]
    rfl

theorem hostPerform_set {s : State} (hs : s.held = none) (id v : Int) :
    hostPerform (.set id v) s = written s (hostSet id v s) :=
  hostPerform_free hs _

theorem hostPerform_get {s : State} (hs : s.held = none) (r : Reg) :
    hostPerform (.get r.id.toNat) s = (.word (s.get r), s) := by
  rw [hostPerform_free hs]
  show (answered _ ((hostReg _).map _), s) = _
  rw [hostReg_id]
  rfl

/-- Settles O27. -/
theorem setChecksIdAndValue : Obligations.SetChecksIdAndValue := by
  intro s id v hs
  simp only [hostPerform_set hs]
  refine ⟨?_, fun hid => ?_⟩
  · rintro r rfl
    refine ⟨fun hv => ?_, fun hv => ?_⟩
    · have ⟨h0, h1, _⟩ := hv
      rw [hostSet_ok hv]
      refine ⟨_, rfl, ?_, hostPerform_get (by simpa using hs) r,
        fun q hq => State.put_get_of_ne s _ hq, by simp⟩
      rw [State.put_get, hostWord_toNat h0 h1]
    · rw [hostSet_error hv]
      rfl
  · rw [hostSet, hostReg_error hid]
    rfl

/-! The host's step -/

/-- What a step leaves of the latch and of a read in progress, where no read was in progress and no fault
stored: it completes, raises a fault, or holds an RD. -/
theorem step_outcome {s t : State} (hheld : s.held = none) (hrun : s.halted = false)
    (hfault : s.fault = none) (h : step s = .next t) :
    (t.halted = false ∧ t.fault = none ∧ t.held = none) ∨
      (∃ k, t.halted = true ∧ t.fault = some k ∧ t.held = none) ∨
      ∃ d, t.halted = false ∧ t.held = some (.step d) := by
  rcases step_effect h with ⟨e, rfl⟩ | ⟨-, n, _, _, he⟩
  · exact .inl ⟨hrun, hfault, hheld⟩
  cases he with
  | completed hu hw =>
    obtain ⟨-, -, hhalted, hf, hh, -⟩ := hw.frame
    have hnone := hu.held rfl
    rw [hu.frame] at hhalted hf
    exact .inl ⟨hhalted.trans hrun, hf.trans hfault, hh.trans hnone⟩
  | failed k hu => exact .inr (.inl ⟨k, rfl, rfl, hu.held rfl⟩)
  | stored m _ => exact .inl ⟨hrun, hfault, rfl⟩
  | waiting d _ hu _ => exact .inr (.inr ⟨d, hu.halted.trans hrun, rfl⟩)

/-- Settles O58. -/
theorem hostStepReportsItsOutcome : Obligations.HostStepReportsItsOutcome := by
  intro s hheld
  simp only [hostPerform_free hheld]
  refine ⟨rfl, fun k hhalted hfault => ?_, fun hrun hfault => ?_⟩
  · show hostStep s = _
    simp [hostStep, step_halted hhalted, hheld, hfault]
  · obtain ⟨t, ht⟩ := step_answers_next s
    refine ⟨t, ht, hostStep_state ht, ?_⟩
    show _ ∧ (_ → _ → (hostStep s).1 = _) ∧ _
    rcases step_outcome hheld hrun hfault ht with ⟨hh, hf, hd⟩ | ⟨k, hh, hf, hd⟩ | ⟨d, hh, hd⟩
    · simp [hostServe, hostStep, ht, hh, hf, hd]
    · simp [hostServe, hostStep, ht, hh, hf, hd]
    · simp [hostServe, hostStep, ht, hh, hd]

/-! Reset and the fault codes -/

/-- The bound bits after reset are those of devices 0, 1 and 2 (R60). -/
theorem reset_isBound (d : DeviceId) : State.reset.isBound d = decide (d.toNat ≤ 2) := by
  have hd : d.toNat < 256 := d.isLt
  have hbits : Nat.testBit 7 d.toNat = decide (d.toNat < 3) := Nat.testBit_two_pow_sub_one 3 _
  show (7#256).getLsbD d.toNat = _
  rw [BitVec.getLsbD_ofNat, hbits]
  simp [hd, Nat.lt_succ_iff]

/-- Settles O15. -/
theorem resetValues : Obligations.ResetValues := by
  refine ⟨fun r => ?_, fun _ => rfl, reset_isBound, rfl, rfl, rfl, fun s hs => ⟨s.env, ?_⟩⟩
  · cases r <;> rfl
  · rw [hostPerform_free hs]
    rfl

theorem Fault.code_bounds (k : Fault) : 1 ≤ k.code ∧ k.code ≤ 10 := by
  cases k <;> decide

/-- The fault kind of a code. -/
def Fault.ofCode : Nat → Option Fault
  | 1 => some .outOfRange
  | 2 => some .invalidRegister
  | 3 => some .badAddressingMode
  | 4 => some .invalidAddressing
  | 5 => some .unimplementedOpcode
  | 6 => some .unknownOpcode
  | 7 => some .deviceUnavailable
  | 8 => some .ioError
  | 9 => some .divideByZero
  | 10 => some .loadError
  | _ => none

theorem Fault.ofCode_code (k : Fault) : Fault.ofCode k.code = some k := by
  cases k <;> rfl

theorem Fault.code_injective {j k : Fault} (h : j.code = k.code) : j = k :=
  Option.some.inj ((ofCode_code j).symm.trans ((congrArg ofCode h).trans (ofCode_code k)))

theorem Fault.exists_code {n : Nat} (h1 : 1 ≤ n) (h2 : n ≤ 10) : ∃ k : Fault, k.code = n := by
  interval_cases n
  exacts [⟨.outOfRange, rfl⟩, ⟨.invalidRegister, rfl⟩, ⟨.badAddressingMode, rfl⟩,
    ⟨.invalidAddressing, rfl⟩, ⟨.unimplementedOpcode, rfl⟩, ⟨.unknownOpcode, rfl⟩,
    ⟨.deviceUnavailable, rfl⟩, ⟨.ioError, rfl⟩, ⟨.divideByZero, rfl⟩, ⟨.loadError, rfl⟩]

/-- Settles O59. -/
theorem faultKindsHaveTheirCodes : Obligations.FaultKindsHaveTheirCodes :=
  ⟨Fault.code_bounds, fun _ => Fault.exists_code, fun _ _ => Fault.code_injective,
    rfl, rfl, rfl, rfl, rfl, rfl, rfl, rfl, rfl, rfl, fun _ _ => rfl, rfl⟩

end Sys2Proof.Machine
end

section
/-! PROOFS. Memory's own statements (spec/20_memory.md): which bytes an instruction changes, the accessors
in the block and at the host's port, and a device read held between steps (R92). -/

namespace Sys2Proof.Machine

/-! What an instruction changes of memory -/

/-- The next state's memory differs at most in `n` bytes from the operand's effective address on, and not
at all where that address faults. -/
structure StoresWithin (m : MemOperand) (n : Nat) (s t : State) : Prop where
  outside : ∀ ea, effectiveAddress s m = .ok ea →
    ∀ a, a < ea.toNat ∨ ea.toNat + n ≤ a → t.mem.read a = s.mem.read a
  faulted : ∀ k, effectiveAddress s m = .error k → t.mem = s.mem

theorem StoresWithin.of_mem_eq {m : MemOperand} {n : Nat} {s t : State} (h : t.mem = s.mem) :
    StoresWithin m n s t :=
  ⟨fun _ _ _ _ => by rw [h], fun _ _ => h⟩

/-- A store that reached memory wrote only within the `n` bytes at its effective address. -/
theorem StoresWithin.of_written {m : MemOperand} {n : Nat} {s : State} {ea : Word} {m' : Memory}
    (hea : effectiveAddress s m = .ok ea)
    (hm : ∀ a, a < ea.toNat ∨ ea.toNat + n ≤ a → m'.read a = s.mem.read a) :
    StoresWithin m n s { s with mem := m' } where
  outside ea' hea' := by
    obtain rfl : ea = ea' := Except.ok.inj (hea.symm.trans hea')
    exact hm
  faulted _ hk := nomatch hea.symm.trans hk

theorem writeWord_frame {m m' : Memory} {a b : Nat} {v : Word} (hm : m.wf)
    (h : writeWord m a v = .ok m') (hb : b < a ∨ a + 3 ≤ b) : m'.read b = m.read b := by
  rw [writeWord_read hm h, if_neg (by omega), if_neg (by omega), if_neg (by omega)]

theorem writeByte_frame {m m' : Memory} {a b : Nat} {v : Byte} (hm : m.wf)
    (h : writeByte m a v = .ok m') (hb : b ≠ a) : m'.read b = m.read b := by
  obtain ⟨-, rfl⟩ := writeByte_ok h
  exact Memory.read_write_other hm v hb.symm

/-- A word store changes at most three bytes (R251). -/
theorem storeWord_within {v : Word} {m : MemOperand} {s t : State} (hm : s.mem.wf)
    (h : storeWord v m s = .next t) : StoresWithin m 3 s t := by
  rcases storeWord_next h with ⟨ea, m', hea, hw, rfl⟩ | ⟨k, rfl, -⟩
  · exact .of_written hea fun _ ha => writeWord_frame hm hw ha
  · exact .of_mem_eq rfl

/-- STCH changes at most one byte (R269). -/
theorem execStch_within {m : MemOperand} {s t : State} (hm : s.mem.wf)
    (h : execStch m s = .next t) : StoresWithin m 1 s t := by
  rcases execStch_next h with ⟨ea, m', hea, hw, rfl⟩ | ⟨k, rfl, -⟩
  · exact .of_written hea fun _ ha => writeByte_frame hm hw (by omega)
  · exact .of_mem_eq rfl

/-- The stores are the word stores and STCH. -/
theorem exec_of_storeTarget {i : Instr} {m : MemOperand} {n : Nat} (h : storeTarget i = some (m, n))
    (s : State) : (n = 3 ∧ ∃ v, exec i s = storeWord v m s) ∨ (n = 1 ∧ exec i s = execStch m s) := by
  cases i with
  | sta _ | stx _ | stl _ | stb _ | sts _ | stf _ | stt _ | stsw _ => cases h; exact .inl ⟨rfl, _, rfl⟩
  | stch _ => cases h; exact .inr ⟨rfl, rfl⟩
  | _ => cases h

/-! No request to a device touches memory (R81) -/

theorem Requested.mem {dev : Bool} {s u : State} (h : Requested dev s u) : u.mem = s.mem := by
  rw [h.frame]

theorem testDevice_mem (d : DeviceId) (s : State) : (testDevice d s).mem = s.mem := by
  have hm := (ensure_requested d s).mem
  unfold testDevice
  cases h : ensure d s with
  | mk r u => rw [h] at hm; cases r <;> exact hm

theorem finishRead_mem (d : DeviceId) (p : ReadResult × State) : (finishRead d p).mem = p.2.mem := by
  obtain ⟨r, u⟩ := p
  cases r <;> rfl

theorem readDevice_mem (d : DeviceId) (s : State) : (readDevice d s).mem = s.mem :=
  (finishRead_mem d _).trans (devRead_requested d s).mem

theorem writeDevice_mem (d : DeviceId) (s : State) : (writeDevice d s).mem = s.mem := by
  have hm := (devWrite_requested d (lowByte s.A) s).mem
  unfold writeDevice
  cases h : devWrite d (lowByte s.A) s with
  | mk r u => rw [h] at hm; cases r <;> exact hm

theorem withDevice_mem {f : DeviceId → State → State} (hf : ∀ d s, (f d s).mem = s.mem)
    {m : MemOperand} {s t : State} (h : (.next (withDevice f m s) : Answer) = .next t) :
    t.mem = s.mem := by
  rw [← next_inj h]
  rcases withDevice_cases f m s with ⟨d, -, he⟩ | ⟨k, -, he⟩ <;> rw [he]
  · exact hf d s
  · rfl

theorem loadWord_mem {r : Reg} {m : MemOperand} {s t : State} (h : loadWord r m s = .next t) :
    t.mem = s.mem := by
  rcases State.commit_cases (next_inj h) with hok | ⟨k, -, rfl⟩
  · obtain ⟨v, -, hset⟩ := except_bind_eq_ok hok
    obtain ⟨rfl, -⟩ := State.set_ok hset
    exact State.put_mem s r v
  · rfl

/-- An instruction that is no store leaves memory as it is: it writes registers, reaches a device or
raises a fault. -/
theorem exec_mem_of_not_store {i : Instr} {s t : State} (hi : storeTarget i = none)
    (h : exec i s = .next t) : t.mem = s.mem := by
  unfold exec at h
  cases i with
  | float | fix | norm | sio | hio | tio => rw [unimplemented_next h]; rfl
  | svc _ _ => rw [unimplemented_next h]; rfl
  | addf _ | subf _ | mulf _ | divf _ | compf _ | lps _ | sti _ | ssk _ =>
    rw [unimplemented_next h]; rfl
  | addr _ _ | subr _ _ | mulr _ _ | divr _ _ | rmo _ _ =>
    rcases combine_next h with ⟨_, d, v, -, -, -, -, rfl⟩ | ⟨k, rfl⟩
    · exact State.put_mem s d v
    · rfl
  | shiftl _ _ | shiftr _ _ | clear _ _ =>
    rcases update_next h with ⟨r, -, -, rfl⟩ | ⟨k, rfl⟩
    · exact State.put_mem s r _
    · rfl
  | compr _ _ => rcases execCompr_next h with ⟨_, _, -, -, rfl⟩ | rfl <;> rfl
  | tixr _ _ => rcases execTixr_next h with ⟨_, -, rfl⟩ | rfl <;> rfl
  | lda _ | ldx _ | ldl _ | ldb _ | lds _ | ldf _ | ldt _ => exact loadWord_mem h
  | ldch _ => rcases execLdch_next h with ⟨_, -, rfl⟩ | ⟨k, -, rfl⟩ <;> rfl
  | add _ | sub _ | mul _ | div _ | and _ | or _ =>
    rcases accumulate_next h with ⟨_, _, -, -, rfl⟩ | ⟨k, rfl, -⟩ <;> rfl
  | comp _ => rcases execComp_next h with ⟨_, -, rfl⟩ | ⟨k, -, rfl⟩ <;> rfl
  | tix _ => rcases execTix_next h with ⟨_, -, rfl⟩ | ⟨k, -, rfl⟩ <;> rfl
  | jeq _ | jgt _ | jlt _ | j _ =>
    rcases jumpIf_next h with ⟨ea, -, rfl⟩ | ⟨k, -, rfl⟩
    · split <;> rfl
    · rfl
  | jsub _ => rcases execJsub_next h with ⟨_, -, rfl⟩ | ⟨k, -, rfl⟩ <;> rfl
  | rsub _ => rcases execRsub_next h with ⟨_, -, rfl⟩ | ⟨k, -, rfl⟩ <;> rfl
  | rd _ => exact withDevice_mem readDevice_mem h
  | wd _ => exact withDevice_mem writeDevice_mem h
  | td _ => exact withDevice_mem testDevice_mem h
  | sta _ | stx _ | stl _ | stb _ | sts _ | stf _ | stt _ | stsw _ | stch _ => cases hi

theorem exec_storesWithin {i : Instr} {m : MemOperand} {n : Nat} {s t : State} (hm : s.mem.wf)
    (hi : storeTarget i = some (m, n)) (h : exec i s = .next t) : StoresWithin m n s t := by
  rcases exec_of_storeTarget hi s with ⟨rfl, v, he⟩ | ⟨rfl, he⟩
  · exact storeWord_within hm (he.symm.trans h)
  · exact execStch_within hm (he.symm.trans h)

/-- Settles O24: a store writes within the bytes at its effective address, and no other instruction
reaches memory. -/
theorem memoryChangesOnlyAtStores : Obligations.MemoryChangesOnlyAtStores := by
  intro i s t hm h
  exact ⟨fun hi => exec_mem_of_not_store hi h,
    fun _ _ ea hi hea => (exec_storesWithin hm hi h).outside ea hea,
    fun _ _ k hi hk => (exec_storesWithin hm hi h).faulted k hk⟩

/-! The accessors: an address or a value in range, and any other (R82 to R86) -/

theorem readByte_eq {m : Memory} {a : Nat} (h : a ≤ 0x100000) : readByte m a = .ok (m.read a) :=
  if_pos h

theorem readByte_eq_error {m : Memory} {a : Nat} (h : 0x100000 < a) :
    readByte m a = .error .outOfRange :=
  if_neg (Nat.not_le.2 h)

theorem readWord_eq {m : Memory} {a : Nat} (h : a + 2 ≤ 0x100000) :
    readWord m a = .ok (m.read a ++ m.read (a + 1) ++ m.read (a + 2)) :=
  if_pos h

theorem readWord_eq_error {m : Memory} {a : Nat} (h : 0x100000 < a + 2) :
    readWord m a = .error .outOfRange :=
  if_neg (Nat.not_le.2 h)

theorem writeByte_eq {m : Memory} {a : Nat} {v : Byte} (h : a ≤ 0x100000) :
    writeByte m a v = .ok (m.write a v) :=
  if_pos h

theorem writeWord_exists {m : Memory} {a : Nat} {v : Word} (h : a + 2 ≤ 0x100000) :
    ∃ m', writeWord m a v = .ok m' :=
  ⟨_, if_pos h⟩

theorem writeWord_eq_error {m : Memory} {a : Nat} {v : Word} (h : 0x100000 < a + 2) :
    writeWord m a v = .error .outOfRange :=
  if_neg (Nat.not_le.2 h)

/-- A stored word lies most significant byte first (R86, R88). -/
theorem writeWord_bytes {m m' : Memory} {a : Nat} {v : Word} (hm : m.wf)
    (h : writeWord m a v = .ok m') : m'.read a = v.extractLsb' 16 8 ∧
      m'.read (a + 1) = v.extractLsb' 8 8 ∧ m'.read (a + 2) = v.extractLsb' 0 8 := by
  have hread := writeWord_read hm h
  exact ⟨by simp [hread a], by simp [hread (a + 1)], by simp [hread (a + 2)]⟩

/-- Reading a word back after it is stored (R85, R86). -/
theorem readWord_of_writeWord {m m' : Memory} {a : Nat} {v : Word} (hm : m.wf)
    (h : writeWord m a v = .ok m') : readWord m' a = .ok v := by
  obtain ⟨ha, -⟩ := writeWord_ok h
  obtain ⟨hhigh, hmiddle, hlow⟩ := writeWord_bytes hm h
  rw [readWord_eq ha, hhigh, hmiddle, hlow, word_of_bytes]

/-- Three bytes as a big-endian number (R88). -/
theorem word_toNat (x y z : Byte) :
    (x ++ y ++ z : Word).toNat = x.toNat * 2 ^ 16 + y.toNat * 2 ^ 8 + z.toNat := by
  rw [BitVec.toNat_append, BitVec.toNat_append, ← Nat.shiftLeft_add_eq_or_of_lt z.isLt,
    ← Nat.shiftLeft_add_eq_or_of_lt y.isLt, Nat.shiftLeft_eq, Nat.shiftLeft_eq]
  omega

/-! The accessors at the host's port (R101) -/

/-- The word the port makes of an integer in range is `u24` of it (spec/00_scope.md R11). -/
theorem hostWord_eq_ofInt {v : Int} (h : 0 ≤ v) : BitVec.ofNat 24 v.toNat = BitVec.ofInt 24 v := by
  rw [← BitVec.ofInt_natCast, Int.toNat_of_nonneg h]

theorem hostAddress_ok {a : Int} (h : 0 ≤ a ∧ a ≤ 0x100000) : hostNat maxAddress a = .ok a.toNat :=
  hostNat_ok h

theorem hostAddress_error {a : Int} (h : ¬ (0 ≤ a ∧ a ≤ 0x100000)) :
    hostNat maxAddress a = .error .outOfRange :=
  hostNat_error h

theorem hostReadByte_ok {s : State} {a : Int} (h : 0 ≤ a ∧ a ≤ 0x100000) :
    hostReadByte a s = .ok (s.mem.read a.toNat) := by
  rw [hostReadByte, hostAddress_ok h]
  exact readByte_eq (by omega)

theorem hostReadByte_error {s : State} {a : Int} (h : ¬ (0 ≤ a ∧ a ≤ 0x100000)) :
    hostReadByte a s = .error .outOfRange := by
  rw [hostReadByte, hostAddress_error h]
  rfl

theorem hostReadWord_ok {s : State} {a : Int} (h : 0 ≤ a ∧ a + 2 ≤ 0x100000) :
    hostReadWord a s = readWord s.mem a.toNat := by
  rw [hostReadWord, hostAddress_ok (by omega)]
  rfl

theorem hostReadWord_error {s : State} {a : Int} (h : ¬ (0 ≤ a ∧ a + 2 ≤ 0x100000)) :
    hostReadWord a s = .error .outOfRange := by
  rw [hostReadWord]
  by_cases ha : 0 ≤ a ∧ a ≤ 0x100000
  · rw [hostAddress_ok ha]
    exact readWord_eq_error (by omega)
  · rw [hostAddress_error ha]
    rfl

theorem hostWriteByte_ok {s : State} {a v : Int} (h : 0 ≤ a ∧ a ≤ 0x100000) (hv : 0 ≤ v ∧ v ≤ 255) :
    hostWriteByte a v s = .ok { s with mem := s.mem.write a.toNat (BitVec.ofNat 8 v.toNat) } := by
  rw [hostWriteByte, hostAddress_ok h, hostNat_ok hv]
  simp only [except_bind_ok]
  rw [writeByte_eq (by omega)]
  rfl

theorem hostWriteByte_error {s : State} {a v : Int}
    (h : ¬ (0 ≤ a ∧ a ≤ 0x100000 ∧ 0 ≤ v ∧ v ≤ 255)) :
    hostWriteByte a v s = .error .outOfRange := by
  rw [hostWriteByte]
  by_cases ha : 0 ≤ a ∧ a ≤ 0x100000
  · rw [hostAddress_ok ha, hostNat_error (show ¬ (0 ≤ v ∧ v ≤ 255) by omega)]
    rfl
  · rw [hostAddress_error ha]
    rfl

theorem hostWriteWord_ok {s : State} {a v : Int} {m' : Memory} (h : 0 ≤ a ∧ a ≤ 0x100000)
    (hv : 0 ≤ v ∧ v ≤ 0xFFFFFF) (hw : writeWord s.mem a.toNat (BitVec.ofNat 24 v.toNat) = .ok m') :
    hostWriteWord a v s = .ok { s with mem := m' } := by
  rw [hostWriteWord, hostAddress_ok h, hostNat_ok hv]
  simp only [except_bind_ok, hw]

theorem hostWriteWord_error {s : State} {a v : Int}
    (h : ¬ (0 ≤ a ∧ a + 2 ≤ 0x100000 ∧ 0 ≤ v ∧ v ≤ 0xFFFFFF)) :
    hostWriteWord a v s = .error .outOfRange := by
  rw [hostWriteWord]
  by_cases ha : 0 ≤ a ∧ a ≤ 0x100000
  · rw [hostAddress_ok ha]
    by_cases hv : 0 ≤ v ∧ v ≤ 0xFFFFFF
    · rw [hostNat_ok hv]
      simp only [except_bind_ok]
      rw [writeWord_eq_error (by omega)]
      rfl
    · rw [hostNat_error hv]
      rfl
  · rw [hostAddress_error ha]
    rfl

theorem hostDump_ok {s : State} {low high : Int} (h : 0 ≤ low ∧ low ≤ high ∧ high ≤ 0x100000) :
    hostDump low high s = .ok (bytesAt s.mem low.toNat (high.toNat - low.toNat + 1)) := by
  rw [hostDump, hostAddress_ok (by omega),
    hostAddress_ok (by omega)]
  exact if_pos (by omega)

theorem hostDump_error {s : State} {low high : Int}
    (h : ¬ (0 ≤ low ∧ low ≤ high ∧ high ≤ 0x100000)) :
    hostDump low high s = .error .outOfRange := by
  rw [hostDump]
  by_cases hl : 0 ≤ low ∧ low ≤ 0x100000
  · rw [hostAddress_ok hl]
    by_cases hh : 0 ≤ high ∧ high ≤ 0x100000
    · rw [hostAddress_ok hh]
      exact if_neg (by omega)
    · rw [hostAddress_error hh]
      rfl
  · rw [hostAddress_error hl]
    rfl

theorem bytesAt_getElem? {m : Memory} {a n k : Nat} {b : Byte} (h : (bytesAt m a n)[k]? = some b) :
    b = m.read (a + k) := by
  rw [bytesAt, List.getElem?_map, Option.map_eq_some_iff] at h
  obtain ⟨j, hj, rfl⟩ := h
  obtain ⟨hlt, rfl⟩ := List.getElem?_eq_some_iff.1 hj
  rw [List.getElem_range]

section
variable {s : State} (hs : s.held = none)
include hs

theorem hostPerform_readByte (a : Int) :
    hostPerform (.readByte a) s = (answered .byte (hostReadByte a s), s) :=
  hostPerform_free hs _

theorem hostPerform_readWord (a : Int) :
    hostPerform (.readWord a) s = (answered .word (hostReadWord a s), s) :=
  hostPerform_free hs _

theorem hostPerform_writeByte (a v : Int) :
    hostPerform (.writeByte a v) s = written s (hostWriteByte a v s) :=
  hostPerform_free hs _

theorem hostPerform_writeWord (a v : Int) :
    hostPerform (.writeWord a v) s = written s (hostWriteWord a v s) :=
  hostPerform_free hs _

theorem hostPerform_dump (low high : Int) :
    hostPerform (.dump low high) s = (answered .bytes (hostDump low high s), s) :=
  hostPerform_free hs _

end

/-- Settles O21: both accessors check the range first, and three bytes put together are their number. -/
theorem readWordIsBigEndian : Obligations.ReadWordIsBigEndian := by
  refine fun m addr => ⟨fun h => ⟨_, readWord_eq h, word_toNat _ _ _⟩, readWord_eq_error,
    readByte_eq, readByte_eq_error, fun s a hs => ?_⟩
  rw [hostPerform_readByte hs, hostPerform_readWord hs]
  refine ⟨fun h => ?_, fun h => ?_, fun h => ?_, fun h => ?_⟩
  · rw [hostReadByte_ok h]
    rfl
  · rw [hostReadByte_error h]
    rfl
  · rw [hostReadWord_ok h, readWord_eq (by omega)]
    exact ⟨_, rfl, rfl⟩
  · rw [hostReadWord_error h]
    rfl

/-- Settles O22: the store's three bytes are slices of the word, which a read puts together again. -/
theorem writeWordValidatesThenWrites : Obligations.WriteWordValidatesThenWrites := by
  intro s addr v hs hm
  refine ⟨fun ⟨h0, h2, hv0, hv1⟩ => ?_, fun h => ?_⟩
  · obtain ⟨m', hw⟩ := writeWord_exists (m := s.mem) (v := BitVec.ofNat 24 v.toNat)
      (show addr.toNat + 2 ≤ 0x100000 by omega)
    obtain ⟨hhigh, hmiddle, hlow⟩ := writeWord_bytes hm hw
    have hv := hostWord_toNat hv0 hv1
    refine ⟨m', ?_, ?_, ?_, ?_, fun a ha => writeWord_frame hm hw (by omega), ?_⟩
    · rw [hostPerform_writeWord hs, hostWriteWord_ok (by omega) ⟨hv0, hv1⟩ hw]
      rfl
    · rw [hhigh, BitVec.extractLsb'_toNat, hv, Nat.shiftRight_eq_div_pow]
      omega
    · rw [hmiddle, BitVec.extractLsb'_toNat, hv, Nat.shiftRight_eq_div_pow]
    · rw [hlow, BitVec.extractLsb'_toNat, hv, Nat.shiftRight_zero]
    · rw [hostPerform_readWord (s := { s with mem := m' }) hs, hostReadWord_ok ⟨h0, h2⟩,
        readWord_of_writeWord hm hw, hostWord_eq_ofInt hv0]
      rfl
  · rw [hostPerform_writeWord hs, hostWriteWord_error h]
    rfl

/-- Settles O23: the one byte is the one that `Memory.write` lists. -/
theorem writeByteSetsOneByte : Obligations.WriteByteSetsOneByte := by
  intro s addr v hs hm
  rw [hostPerform_writeByte hs]
  refine ⟨fun ⟨h0, h1, hv0, hv1⟩ => ?_, fun h => ?_⟩
  · rw [hostWriteByte_ok ⟨h0, h1⟩ ⟨hv0, hv1⟩]
    refine ⟨_, rfl, ?_, fun a ha => Memory.read_write_other hm _ ha.symm⟩
    rw [Memory.read_write_same hm, BitVec.toNat_ofNat]
    omega
  · rw [hostWriteByte_error h]
    rfl

/-- Settles O56: a dump is `bytesAt` of the range. -/
theorem dumpReturnsTheRange : Obligations.DumpReturnsTheRange := by
  intro s low high hs
  rw [hostPerform_dump hs]
  refine ⟨fun h => ?_, fun h => ?_⟩
  · rw [hostDump_ok h]
    refine ⟨_, rfl, ?_, fun k b => bytesAt_getElem?⟩
    rw [bytesAt_length]
    omega
  · rw [hostDump_error h]
    rfl

/-! A device read held between steps -/

/-- A read of a bound device leaves the state as it was but for the environment (R293). -/
theorem readBound_eq (d : DeviceId) (s : State) :
    readBound d s = ((readBound d s).1, { s with env := (askGet d s).2.env }) :=
  Prod.ext rfl (readBound_state d s)

/-- A held RD asks its device once more, whatever the answer (R299). -/
theorem resumeRead_log (d : DeviceId) (s : State) :
    (resumeRead d s).env.log = .got d (askGet d s).1 :: s.env.log := by
  rw [resumeRead, readBound_eq]
  cases (readBound d s).1 <;> rfl

theorem hostResumeRead_log (d : DeviceId) (s : State) :
    (hostResumeRead d s).2.env.log = .got d (askGet d s).1 :: s.env.log := by
  rw [hostResumeRead, readBound_eq]
  cases (readBound d s).1 <;> rfl

/-- Settles O51: a held read is one more request to its device, and ends by the answer. -/
theorem heldReadWaitsForTheDevice : Obligations.HeldReadWaitsForTheDevice := by
  refine ⟨fun s d hheld => ⟨fun hrun => ?_, fun op hop => ?_⟩,
    fun s d hheld => ⟨step_held_host hheld, ?_, fun op hop => ?_⟩⟩
  · refine ⟨_, _, step_held hrun hheld, resumeRead_log d s, ?_⟩
    have hresult := readBound_result d s
    rw [resumeRead, readBound_eq]
    cases hr : (askGet d s).1 with
    | byte c =>
      rw [hresult, hr]
      exact ⟨_, withLowByte_toNat s.A c, rfl⟩
    | eof | error => rw [hresult, hr]; rfl
    | pending =>
      rw [hresult, hr]
      exact congrArg (fun w => { s with held := w, env := (askGet d s).2.env }) hheld.symm
  · rw [hostPerform_step_held hheld, if_neg hop]
  · refine ⟨(hostResumeRead d s).2, _, (hostResumeRead d s).1,
      (hostPerform_host_held hheld _).trans (if_pos rfl), hostResumeRead_log d s, ?_⟩
    have hresult := readBound_result d s
    rw [hostResumeRead, readBound_eq]
    cases hr : (askGet d s).1 with
    | byte c | eof | error => rw [hresult, hr]; exact ⟨rfl, rfl⟩
    | pending =>
      rw [hresult, hr]
      exact ⟨rfl, congrArg (fun w => { s with held := w, env := (askGet d s).2.env }) hheld.symm⟩
  · rw [hostPerform_host_held hheld, if_neg hop]

end Sys2Proof.Machine
end

section
/-! PROOFS. The encoding's own statements (spec/30_encoding.md). What the decoder reads is said
once, without its order of trials (`decode_eq_ok_iff`, `decodeOperand_eq_some_iff`); both round
trips, the known opcodes and the length are read off these two. -/

namespace Sys2Proof

open Machine

/-! Register fields (R30, R31, R113) -/

theorem RegField.toBits_ofBits (id : BitVec 4) : (RegField.ofBits id).toBits = id := by
  revert id; decide

theorem RegField.wellFormed_ofBits (id : BitVec 4) : (RegField.ofBits id).wellFormed = true := by
  revert id; decide

theorem RegField.ofBits_toBits {f : RegField} (h : f.wellFormed = true) :
    RegField.ofBits f.toBits = f := by
  cases f with
  | reg r => cases r <;> rfl
  | invalid id =>
    show RegField.ofBits id = .invalid id
    revert id
    decide

/-! The rows of the opcode tables (R120) -/

theorem mem_of_lookup {α : Type} {op : Byte} {v : α} {table : List (Byte × α)}
    (h : lookup op table = some v) : (op, v) ∈ table := by
  induction table with
  | nil => cases h
  | cons row rest ih =>
    obtain ⟨k, w⟩ := row
    rw [lookup] at h
    split at h
    · next hk => cases h; rw [hk]; exact List.mem_cons_self
    · exact List.mem_cons_of_mem _ (ih h)

/-- What holds of a table's keys holds of a byte that has a row. -/
theorem of_lookup_isSome {α : Type} {op : Byte} {table : List (Byte × α)} {p : Byte → Prop}
    (hkeys : ∀ row ∈ table, p row.1) (h : (lookup op table).isSome = true) : p op := by
  obtain ⟨v, hrow⟩ := Option.isSome_iff_exists.mp h
  exact hkeys _ (mem_of_lookup hrow)

theorem isFormat1_of_lookup {b0 : Byte} {i : Instr} (h : lookup b0 format1Table = some i) :
    isFormat1 b0 = true := by simp [isFormat1, h]

theorem isFormat2_of_lookup {b0 : Byte} {mk : BitVec 4 → BitVec 4 → Instr}
    (h : lookup b0 format2Table = some mk) : isFormat2 b0 = true := by simp [isFormat2, h]

theorem isFormat34_of_lookup {b0 : Byte} {mk : MemOperand → Instr}
    (h : lookup (trueOpcode b0) format34Table = some mk) : isFormat34 b0 = true := by
  simp [isFormat34, h]

/-- An instruction that a row of the Format-1 table makes is written as the row's opcode. -/
theorem format1_row {op : Byte} {i : Instr} (h : lookup op format1Table = some i) :
    i.wellFormed = true ∧ i.opcode = op ∧ i.fields = .format1 := by
  have hrows : ∀ row ∈ format1Table,
      row.2.wellFormed = true ∧ row.2.opcode = row.1 ∧ row.2.fields = .format1 := by decide
  exact hrows _ (mem_of_lookup h)

/-- An instruction that a row of the Format-2 table makes is written as the row's opcode and the fields
it was made of. -/
theorem format2_row {op : Byte} {mk : BitVec 4 → BitVec 4 → Instr}
    (h : lookup op format2Table = some mk) (a b : BitVec 4) :
    (mk a b).wellFormed = true ∧ (mk a b).opcode = op ∧ (mk a b).fields = .format2 a b := by
  have hrows : ∀ row ∈ format2Table, (row.2 a b).wellFormed = true ∧
      (row.2 a b).opcode = row.1 ∧ (row.2 a b).fields = .format2 a b := by
    simp only [format2Table, List.forall_mem_cons]
    simp [Instr.wellFormed, Instr.regFields, Instr.opcode, Instr.fields,
      RegField.wellFormed_ofBits, RegField.toBits_ofBits]
  exact hrows _ (mem_of_lookup h)

/-- An instruction that a row of the Format-3/4 table makes is written as the row's opcode and the
operand it was made of. -/
theorem format34_row {op : Byte} {mk : MemOperand → Instr}
    (h : lookup op format34Table = some mk) (m : MemOperand) :
    (mk m).wellFormed = true ∧ (mk m).opcode = op ∧ (mk m).fields = .format34 m := by
  have hrows : format34Table.map (fun row =>
        ((row.2 m).wellFormed, (row.2 m).opcode, (row.2 m).fields)) =
      format34Table.map (fun row => (true, row.1, .format34 m)) := rfl
  simpa only [Prod.mk.injEq] using List.map_inj_left.mp hrows _ (mem_of_lookup h)

/-! Every instruction has its row -/

theorem lookup_format1 {i : Instr} (h : i.fields = .format1) :
    lookup i.opcode format1Table = some i := by
  cases i <;> cases h <;> rfl

theorem lookup_format2 {i : Instr} {a b : BitVec 4} (hw : i.wellFormed = true)
    (h : i.fields = .format2 a b) :
    ∃ mk, lookup i.opcode format2Table = some mk ∧ mk a b = i := by
  have hfields : ∀ f ∈ i.regFields, RegField.ofBits f.toBits = f :=
    fun f hf => RegField.ofBits_toBits (List.all_eq_true.mp hw f hf)
  cases i <;> cases h <;> exact ⟨_, rfl, by simp_all [Instr.regFields]⟩

theorem lookup_format34 {i : Instr} {m : MemOperand} (h : i.fields = .format34 m) :
    ∃ mk, lookup i.opcode format34Table = some mk ∧ mk m = i := by
  cases i <;> cases h <;> exact ⟨_, rfl, rfl⟩

/-! The three classes of first bytes (R111) -/

theorem isFormat1_of_isFormat2 {b0 : Byte} (h : isFormat2 b0 = true) : isFormat1 b0 = false :=
  of_lookup_isSome (p := fun op => isFormat1 op = false) (by decide) h

theorem not_format12_of_isFormat34 {b0 : Byte} (h : isFormat34 b0 = true) :
    isFormat1 b0 = false ∧ isFormat2 b0 = false := by
  have h1 : isFormat1 b0 = true → isFormat34 b0 = false :=
    of_lookup_isSome (p := fun op => isFormat34 op = false) (by decide)
  have h2 : isFormat2 b0 = true → isFormat34 b0 = false :=
    of_lookup_isSome (p := fun op => isFormat34 op = false) (by decide)
  exact ⟨Bool.eq_false_of_not_eq_true fun hf => by simp [h1 hf] at h,
    Bool.eq_false_of_not_eq_true fun hf => by simp [h2 hf] at h⟩

/-- The bytes R121 lists are those no classifier of R111 accepts. -/
theorem unknownOpcodeByte_eq (b0 : Byte) :
    unknownOpcodeByte b0 = !(isFormat1 b0 || isFormat2 b0 || isFormat34 b0) := by
  revert b0; decide

/-! The bits of the first byte (R111, R119) -/

theorem trueOpcode_or_bits (b0 : Byte) (mode : Mode) :
    trueOpcode (trueOpcode b0 ||| mode.bits) = trueOpcode b0 := by
  cases mode <;> revert b0 <;> decide

theorem modeOf_eq_none_iff (b0 : Byte) : modeOf b0 = none ↔ b0 = trueOpcode b0 := by
  revert b0; decide

theorem modeOf_eq_some_iff (b0 : Byte) (mode : Mode) :
    modeOf b0 = some mode ↔ b0 = trueOpcode b0 ||| mode.bits := by
  cases mode <;> revert b0 <;> decide

theorem trueOpcode_of_lookup {op : Byte} {mk : MemOperand → Instr}
    (h : lookup op format34Table = some mk) : trueOpcode op = op := by
  have hrows : ∀ row ∈ format34Table, trueOpcode row.1 = row.1 := by decide
  exact hrows _ (mem_of_lookup h)

/-! The bytes after the first (R114 to R116) -/

theorem exists_append_eq (m n : Nat) (v : BitVec (m + n)) :
    ∃ (high : BitVec m) (low : BitVec n), high ++ low = v :=
  ⟨_, _, BitVec.extractLsb'_append_extractLsb'⟩

/-- The second byte of Format 3 and Format 4: x, b, p, e and four bits of the address. -/
def flagByte (x b p e : Bool) (low : BitVec 4) : Byte :=
  BitVec.ofBool x ++ BitVec.ofBool b ++ BitVec.ofBool p ++ BitVec.ofBool e ++ low

theorem flagByte_fields : ∀ (x b p e : Bool) (low : BitVec 4),
    (flagByte x b p e low).getLsbD 7 = x ∧ (flagByte x b p e low).getLsbD 6 = b ∧
    (flagByte x b p e low).getLsbD 5 = p ∧ (flagByte x b p e low).getLsbD 4 = e ∧
    (flagByte x b p e low).extractLsb' 0 4 = low := by decide

theorem flagByte_eta : ∀ b1 : Byte, flagByte (b1.getLsbD 7) (b1.getLsbD 6) (b1.getLsbD 5)
    (b1.getLsbD 4) (b1.extractLsb' 0 4) = b1 := by decide

/-- The second byte of the SIC layout: x and seven bits of the address. -/
def sicByte (x : Bool) (high : BitVec 7) : Byte := BitVec.ofBool x ++ high

theorem sicByte_fields : ∀ (x : Bool) (high : BitVec 7),
    (sicByte x high).getLsbD 7 = x ∧ (sicByte x high).extractLsb' 0 7 = high := by decide

theorem sicByte_eta : ∀ b1 : Byte, sicByte (b1.getLsbD 7) (b1.extractLsb' 0 7) = b1 := by decide

/-- The encoder in the terms of an address's bytes: the address is what the decoder puts together. -/
theorem encodeOperand_sic (op : Byte) (x : Bool) (high : BitVec 7) (b2 : Byte) :
    encodeOperand op (.sic x (high ++ b2)) = [op, sicByte x high, b2] := by
  have hhigh : (high ++ b2).extractLsb' 8 7 = high := BitVec.extractLsb'_append_eq_left
  have hlow : (high ++ b2).extractLsb' 0 8 = b2 := BitVec.extractLsb'_append_eq_right
  simp only [encodeOperand, sicByte, hhigh, hlow]

theorem encodeOperand_f3 (op : Byte) (mode : Mode) (x b p : Bool) (low : BitVec 4) (b2 : Byte) :
    encodeOperand op (.f3 mode x b p (low ++ b2)) =
      [op ||| mode.bits, flagByte x b p false low, b2] := by
  have hhigh : (low ++ b2).extractLsb' 8 4 = low := BitVec.extractLsb'_append_eq_left
  have hlow : (low ++ b2).extractLsb' 0 8 = b2 := BitVec.extractLsb'_append_eq_right
  simp only [encodeOperand, hhigh, hlow]
  rfl

theorem encodeOperand_f4 (op : Byte) (mode : Mode) (x b p : Bool) (low : BitVec 4) (b2 b3 : Byte) :
    encodeOperand op (.f4 mode x b p (low ++ b2 ++ b3)) =
      [op ||| mode.bits, flagByte x b p true low, b2, b3] := by
  have hhigh : (low ++ b2 ++ b3).extractLsb' 16 4 = low :=
    (BitVec.extractLsb'_append_eq_of_le (by omega)).trans BitVec.extractLsb'_append_eq_left
  have hmid : (low ++ b2 ++ b3).extractLsb' 8 8 = b2 :=
    (BitVec.extractLsb'_append_eq_of_le (by omega)).trans BitVec.extractLsb'_append_eq_right
  have hlow : (low ++ b2 ++ b3).extractLsb' 0 8 = b3 := BitVec.extractLsb'_append_eq_right
  simp only [encodeOperand, hhigh, hmid, hlow]
  rfl

/-! Operands -/

/-- The layout a first and second byte select, and what the decoder reads in it. -/
inductive OperandReads (b0 b1 : Byte) : List Byte → MemOperand → List Byte → Prop
  | sic (b2 : Byte) (r : List Byte) : modeOf b0 = none →
    OperandReads b0 b1 (b2 :: r) (.sic (b1.getLsbD 7) (b1.extractLsb' 0 7 ++ b2)) r
  | f3 (mode : Mode) (b2 : Byte) (r : List Byte) : modeOf b0 = some mode → b1.getLsbD 4 = false →
    OperandReads b0 b1 (b2 :: r) (.f3 mode (b1.getLsbD 7) (b1.getLsbD 6) (b1.getLsbD 5)
      (b1.extractLsb' 0 4 ++ b2)) r
  | f4 (mode : Mode) (b2 b3 : Byte) (r : List Byte) :
    modeOf b0 = some mode → b1.getLsbD 4 = true →
    OperandReads b0 b1 (b2 :: b3 :: r) (.f4 mode (b1.getLsbD 7) (b1.getLsbD 6) (b1.getLsbD 5)
      (b1.extractLsb' 0 4 ++ b2 ++ b3)) r

theorem decodeOperand_eq_some_iff {b0 b1 : Byte} {rest r : List Byte} {m : MemOperand} :
    decodeOperand b0 b1 rest = some (m, r) ↔ OperandReads b0 b1 rest m r := by
  constructor
  · intro h
    unfold decodeOperand at h
    cases hm : modeOf b0 with
    | none =>
      rw [hm] at h
      match rest, h with
      | b2 :: _, h => cases h; exact .sic b2 r hm
    | some mode =>
      rw [hm] at h
      cases he : b1.getLsbD 4 with
      | false =>
        rw [he] at h
        match rest, h with
        | b2 :: _, h => cases h; exact .f3 mode b2 r hm he
      | true =>
        rw [he] at h
        match rest, h with
        | b2 :: b3 :: _, h => cases h; exact .f4 mode b2 b3 r hm he
  · intro h
    cases h with
    | sic b2 r hm => simp only [decodeOperand, hm]
    | f3 mode b2 r hm he => simp only [decodeOperand, hm, he]
    | f4 mode b2 b3 r hm he => simp only [decodeOperand, hm, he]

theorem OperandReads.bytes {b0 b1 : Byte} {rest r : List Byte} {m : MemOperand}
    (h : OperandReads b0 b1 rest m r) :
    b0 :: b1 :: rest = encodeOperand (trueOpcode b0) m ++ r := by
  cases h with
  | sic b2 r hm =>
    rw [encodeOperand_sic, sicByte_eta, ← (modeOf_eq_none_iff b0).mp hm]
    rfl
  | f3 mode b2 r hm he =>
    rw [encodeOperand_f3, ← he, flagByte_eta, ← (modeOf_eq_some_iff b0 mode).mp hm]
    rfl
  | f4 mode b2 b3 r hm he =>
    rw [encodeOperand_f4, ← he, flagByte_eta, ← (modeOf_eq_some_iff b0 mode).mp hm]
    rfl

/-- An encoding's bytes are the operand's reading, whatever follows them. -/
theorem operandReads_encodeOperand {op : Byte} (hop : trueOpcode op = op) (m : MemOperand)
    (rest : List Byte) : ∃ b0 b1 tail, encodeOperand op m = b0 :: b1 :: tail ∧
      trueOpcode b0 = op ∧ OperandReads b0 b1 (tail ++ rest) m rest := by
  have hbits (mode : Mode) : trueOpcode (op ||| mode.bits) = op := by
    rw [← hop, trueOpcode_or_bits]
  have hmode (mode : Mode) : modeOf (op ||| mode.bits) = some mode := by
    rw [modeOf_eq_some_iff, hbits]
  cases m with
  | sic x addr =>
    obtain ⟨high, b2, rfl⟩ := exists_append_eq 7 8 addr
    obtain ⟨hx, hhigh⟩ := sicByte_fields x high
    have hreads := OperandReads.sic (b1 := sicByte x high) b2 rest
      ((modeOf_eq_none_iff op).mpr hop.symm)
    rw [hx, hhigh] at hreads
    exact ⟨_, _, _, encodeOperand_sic .., hop, hreads⟩
  | f3 mode x b p disp =>
    obtain ⟨low, b2, rfl⟩ := exists_append_eq 4 8 disp
    obtain ⟨hx, hb, hp, he, hlow⟩ := flagByte_fields x b p false low
    have hreads := OperandReads.f3 mode b2 rest (hmode mode) he
    rw [hx, hb, hp, hlow] at hreads
    exact ⟨_, _, _, encodeOperand_f3 .., hbits mode, hreads⟩
  | f4 mode x b p addr =>
    obtain ⟨high, b3, rfl⟩ := exists_append_eq 12 8 addr
    obtain ⟨low, b2, rfl⟩ := exists_append_eq 4 8 high
    obtain ⟨hx, hb, hp, he, hlow⟩ := flagByte_fields x b p true low
    have hreads := OperandReads.f4 mode b2 b3 rest (hmode mode) he
    rw [hx, hb, hp, hlow] at hreads
    exact ⟨_, _, _, encodeOperand_f4 .., hbits mode, hreads⟩

/-- Two bytes after the first two are enough for any operand. -/
theorem decodeOperand_exists (b0 b1 b2 b3 : Byte) (rest : List Byte) :
    ∃ m r, decodeOperand b0 b1 (b2 :: b3 :: rest) = some (m, r) := by
  simp only [decodeOperand_eq_some_iff]
  cases hm : modeOf b0 with
  | none => exact ⟨_, _, .sic b2 _ hm⟩
  | some mode =>
    cases he : b1.getLsbD 4 with
    | false => exact ⟨_, _, .f3 mode b2 _ hm he⟩
    | true => exact ⟨_, _, .f4 mode b2 b3 _ hm he⟩

/-! What the decoder reads -/

/-- The readings of `decode`, one constructor per table; the classes of first bytes exclude each other,
so no order of trials is left in it. -/
inductive Reads : List Byte → Instr → List Byte → Prop
  | format1 {b0 : Byte} {i : Instr} {r : List Byte} :
    lookup b0 format1Table = some i → Reads (b0 :: r) i r
  | format2 {b0 b1 : Byte} {mk : BitVec 4 → BitVec 4 → Instr} {r : List Byte} :
    lookup b0 format2Table = some mk →
    Reads (b0 :: b1 :: r) (mk (b1.extractLsb' 4 4) (b1.extractLsb' 0 4)) r
  | format34 {b0 b1 : Byte} {mk : MemOperand → Instr} {m : MemOperand} {rest r : List Byte} :
    lookup (trueOpcode b0) format34Table = some mk → OperandReads b0 b1 rest m r →
    Reads (b0 :: b1 :: rest) (mk m) r

theorem lookup_format1_eq_none {b0 : Byte} (h : isFormat1 b0 = false) :
    lookup b0 format1Table = none := by simpa [isFormat1] using h

theorem lookup_format2_eq_none {b0 : Byte} (h : isFormat2 b0 = false) :
    lookup b0 format2Table = none := by simpa [isFormat2] using h

theorem lookup_format34_eq_none {b0 : Byte} (h : isFormat34 b0 = false) :
    lookup (trueOpcode b0) format34Table = none := by simpa [isFormat34] using h

theorem Reads.decode_eq {bs r : List Byte} {i : Instr} (h : Reads bs i r) :
    decode bs = .ok (i, r) := by
  cases h with
  | format1 hrow => simp only [decode, hrow]
  | format2 hrow =>
    have h1 := isFormat1_of_isFormat2 (isFormat2_of_lookup hrow)
    simp only [decode, lookup_format1_eq_none h1, hrow]
  | format34 hrow hm =>
    obtain ⟨h1, h2⟩ := not_format12_of_isFormat34 (isFormat34_of_lookup hrow)
    simp only [decode, lookup_format1_eq_none h1, lookup_format2_eq_none h2, hrow,
      decodeOperand_eq_some_iff.mpr hm]

theorem reads_of_decode {bs r : List Byte} {i : Instr} (h : decode bs = .ok (i, r)) :
    Reads bs i r := by
  match bs with
  | [] => cases h
  | b0 :: rest =>
    cases h1 : lookup b0 format1Table with
    | some i =>
      simp only [decode, h1] at h
      cases h
      exact .format1 h1
    | none =>
      match rest with
      | [] => simp [decode, h1] at h
      | b1 :: rest =>
        cases h2 : lookup b0 format2Table with
        | some mk =>
          simp only [decode, h1, h2] at h
          cases h
          exact .format2 h2
        | none =>
          cases h34 : lookup (trueOpcode b0) format34Table with
          | none => simp [decode, h1, h2, h34] at h
          | some mk =>
            cases ho : decodeOperand b0 b1 rest with
            | none => simp [decode, h1, h2, h34, ho] at h
            | some p =>
              obtain ⟨m, r⟩ := p
              simp only [decode, h1, h2, h34, ho] at h
              cases h
              exact .format34 h34 (decodeOperand_eq_some_iff.mp ho)

/-- What `decode` answers, in the readings' terms. -/
theorem decode_eq_ok_iff {bs r : List Byte} {i : Instr} :
    decode bs = .ok (i, r) ↔ Reads bs i r :=
  ⟨reads_of_decode, Reads.decode_eq⟩

/-! The two round trips -/

theorem encode_format1 {i : Instr} (h : i.fields = .format1) : encode i = [i.opcode] := by
  simp only [encode, h]

theorem encode_format2 {i : Instr} {a b : BitVec 4} (h : i.fields = .format2 a b) :
    encode i = [i.opcode, a ++ b] := by
  simp only [encode, h]

theorem encode_format34 {i : Instr} {m : MemOperand} (h : i.fields = .format34 m) :
    encode i = encodeOperand i.opcode m := by
  simp only [encode, h]

theorem Reads.encode_append {i : Instr} (hw : i.wellFormed = true) (rest : List Byte) :
    Reads (encode i ++ rest) i rest := by
  cases hf : i.fields with
  | format1 =>
    rw [encode_format1 hf]
    exact .format1 (lookup_format1 hf)
  | format2 a b =>
    rw [encode_format2 hf]
    obtain ⟨mk, hrow, hmk⟩ := lookup_format2 hw hf
    have hreads := Reads.format2 (b1 := a ++ b) (r := rest) hrow
    rwa [BitVec.extractLsb'_append_eq_left, BitVec.extractLsb'_append_eq_right, hmk] at hreads
  | format34 m =>
    rw [encode_format34 hf]
    obtain ⟨mk, hrow, rfl⟩ := lookup_format34 hf
    obtain ⟨b0, b1, tail, hbytes, hop, hm⟩ :=
      operandReads_encodeOperand (trueOpcode_of_lookup hrow) m rest
    rw [hbytes]
    rw [← hop] at hrow
    exact .format34 hrow hm

theorem Reads.wellFormed {bs r : List Byte} {i : Instr} (h : Reads bs i r) :
    i.wellFormed = true := by
  cases h with
  | format1 hrow => exact (format1_row hrow).1
  | format2 hrow => exact (format2_row hrow _ _).1
  | format34 hrow _ => exact (format34_row hrow _).1

theorem Reads.bytes {bs r : List Byte} {i : Instr} (h : Reads bs i r) : bs = encode i ++ r := by
  cases h with
  | format1 hrow =>
    obtain ⟨-, hop, hf⟩ := format1_row hrow
    rw [encode_format1 hf, hop]
    rfl
  | @format2 b0 b1 mk r hrow =>
    obtain ⟨-, hop, hf⟩ := format2_row hrow (b1.extractLsb' 4 4) (b1.extractLsb' 0 4)
    have hb1 : b1.extractLsb' 4 4 ++ b1.extractLsb' 0 4 = b1 :=
      BitVec.extractLsb'_append_extractLsb'
    rw [encode_format2 hf, hop, hb1]
    rfl
  | @format34 b0 b1 mk m rest r hrow hm =>
    obtain ⟨-, hop, hf⟩ := format34_row hrow m
    rw [encode_format34 hf, hop]
    exact hm.bytes

/-- Settles O1: the encoding of an instruction is one of the decoder's readings. -/
theorem decodeReadsEncodedInstruction : Obligations.DecodeReadsEncodedInstruction :=
  fun _ rest hw => decode_eq_ok_iff.mpr (Reads.encode_append hw rest)

/-- Settles O2, by the tables' rows and the bytes of each reading. -/
theorem decodedBytesAreTheEncoding : Obligations.DecodedBytesAreTheEncoding := by
  intro bs rest i h
  have hreads := decode_eq_ok_iff.mp h
  exact ⟨hreads.wellFormed, hreads.bytes⟩

/-! Unknown opcodes (R121) -/

theorem decode_unknownOpcode {b0 : Byte} (h1 : isFormat1 b0 = false) (h2 : isFormat2 b0 = false)
    (h34 : isFormat34 b0 = false) (b1 : Byte) (rest : List Byte) :
    decode (b0 :: b1 :: rest) = .error .unknownOpcode := by
  simp only [decode, lookup_format1_eq_none h1, lookup_format2_eq_none h2,
    lookup_format34_eq_none h34]

/-- Three bytes after a first byte of a known class hold the rest of any instruction. -/
theorem decode_of_known {b0 : Byte}
    (h : isFormat1 b0 = true ∨ isFormat2 b0 = true ∨ isFormat34 b0 = true)
    (b1 b2 b3 : Byte) (rest : List Byte) :
    ∃ i r, decode (b0 :: b1 :: b2 :: b3 :: rest) = .ok (i, r) := by
  simp only [decode_eq_ok_iff]
  rcases h with h | h | h
  · obtain ⟨i, hrow⟩ := Option.isSome_iff_exists.mp h
    exact ⟨_, _, .format1 hrow⟩
  · obtain ⟨mk, hrow⟩ := Option.isSome_iff_exists.mp h
    exact ⟨_, _, .format2 hrow⟩
  · obtain ⟨mk, hrow⟩ := Option.isSome_iff_exists.mp h
    obtain ⟨m, r, hm⟩ := decodeOperand_exists b0 b1 b2 b3 rest
    exact ⟨_, _, .format34 hrow (decodeOperand_eq_some_iff.mp hm)⟩

/-- Settles O3: the listed bytes are those of none of the three classes. -/
theorem unknownOpcodeBytesAreTheListedOnes : Obligations.UnknownOpcodeBytesAreTheListedOnes := by
  refine ⟨fun b0 b1 rest h => ?_, fun b0 b1 b2 b3 rest h => ?_, by decide⟩
  · simp only [unknownOpcodeByte_eq, Bool.not_eq_true', Bool.or_eq_false_iff] at h
    obtain ⟨⟨h1, h2⟩, h34⟩ := h
    exact decode_unknownOpcode h1 h2 h34 b1 rest
  · simp only [unknownOpcodeByte_eq, Bool.not_eq_false', Bool.or_eq_true, or_assoc] at h
    exact decode_of_known h b1 b2 b3 rest

/-! The length (R117) -/

theorem instrLength_format34 {b0 : Byte} (h : isFormat34 b0 = true) (b1 : Byte) :
    instrLength b0 b1 = some (if (modeOf b0).isSome && b1.getLsbD 4 then 4 else 3) := by
  obtain ⟨h1, h2⟩ := not_format12_of_isFormat34 h
  simp only [instrLength, h1, h2, h, Bool.false_eq_true, if_false, if_true]
  cases modeOf b0 with
  | none => rfl
  | some mode => cases b1.getLsbD 4 <;> rfl

/-- Settles O4, by the decoder's readings: the length is that of the table, or of the operand's
layout. -/
theorem firstTwoBytesDecideTheLength : Obligations.FirstTwoBytesDecideTheLength := by
  intro b0 b1 rest r i h
  cases decode_eq_ok_iff.mp h with
  | format1 hrow =>
    obtain ⟨-, -, hf⟩ := format1_row hrow
    refine ⟨1, ?_, Nat.add_comm .., by rw [hf]⟩
    simp only [instrLength, isFormat1_of_lookup hrow, if_true]
  | format2 hrow =>
    obtain ⟨-, -, hf⟩ := format2_row hrow (b1.extractLsb' 4 4) (b1.extractLsb' 0 4)
    have h2 := isFormat2_of_lookup hrow
    refine ⟨2, ?_, Nat.add_comm .., by rw [hf]⟩
    simp only [instrLength, isFormat1_of_isFormat2 h2, h2, Bool.false_eq_true, if_false, if_true]
  | @format34 _ _ mk m _ _ hrow hm =>
    obtain ⟨-, -, hf⟩ := format34_row hrow m
    rw [instrLength_format34 (isFormat34_of_lookup hrow), hf]
    cases hm with
    | sic b2 r hmode => exact ⟨3, by rw [hmode]; rfl, Nat.add_comm .., rfl⟩
    | f3 mode b2 r hmode he => exact ⟨3, by rw [hmode, he]; rfl, Nat.add_comm .., rfl⟩
    | f4 mode b2 b3 r hmode he => exact ⟨4, by rw [hmode, he]; rfl, Nat.add_comm .., rfl⟩

/-! The spec's own examples -/

/-- Settles O5: the decoder evaluated on each word. -/
theorem exampleWordsDecode : Obligations.ExampleWordsDecode :=
  ⟨rfl, rfl, rfl, rfl, rfl, rfl, rfl, rfl, rfl, rfl, rfl⟩

end Sys2Proof
end

section
/-! PROOFS. The execution cycle's own statements (spec/40_execution_cycle.md), first that faults are
precise (R156, R382). The meaning of an instruction on no device is the commit of one attempt, which
completes without halting or raises a fault of a step (`exec_attempt`); what precedes the fault of RD or
WD is said by `PreciseFault`; a step raises what its fetches, its decoding, its instruction or the read it
holds raise (`step_preciseFault`). -/

namespace Sys2Proof.Machine

/-! Attempts: what reads, checks and writes come to -/

/-- The result satisfies `P`, or is a fault that a step may raise, which `LoadError` is not (R370). -/
inductive Attempt {α : Type} (P : α → Prop) : Except Fault α → Prop where
  | done {a : α} : P a → Attempt P (.ok a)
  | raised {k : Fault} : k ≠ .loadError → Attempt P (.error k)

/-- An attempt of whose value nothing is asked. -/
theorem Attempt.of_errors {α : Type} {x : Except Fault α} (h : ∀ k, x = .error k → k ≠ .loadError) :
    Attempt (fun _ => True) x := by
  cases x with
  | ok a => exact .done trivial
  | error k => exact .raised (h k rfl)

theorem Attempt.bind {α β : Type} {P : α → Prop} {Q : β → Prop} {x : Except Fault α}
    {f : α → Except Fault β} (hx : Attempt P x) (hf : ∀ a, P a → Attempt Q (f a)) :
    Attempt Q (x >>= f) := by
  cases hx with
  | done ha => exact hf _ ha
  | raised hk => exact .raised hk

theorem Fault.ofAddress.ne_loadError {k : Fault} (h : k.ofAddress) : k ≠ .loadError := by
  rcases h with rfl | rfl | rfl <;> nofun

section
variable (s : State) (m : MemOperand)

theorem targetAddress_attempt : Attempt (fun _ => True) (targetAddress s m) :=
  .of_errors fun _ h => (targetAddress_error h).ne_loadError

theorem operandWord_attempt : Attempt (fun _ => True) (operandWord s m) :=
  .of_errors fun _ h => (operandWord_error h).ne_loadError

theorem effectiveAddress_attempt : Attempt (fun _ => True) (effectiveAddress s m) :=
  .of_errors fun _ h => (effectiveAddress_error h).ne_loadError

theorem operandByte_attempt : Attempt (fun _ => True) (operandByte s m) :=
  .of_errors fun _ h => (operandByte_error h).ne_loadError

theorem operandDevice_attempt : Attempt (fun _ => True) (operandDevice s m) :=
  (operandWord_attempt s m).bind fun _ _ => .done trivial

end

theorem writeWord_attempt (m : Memory) (a : Nat) (v : Word) :
    Attempt (fun _ => True) (writeWord m a v) :=
  .of_errors fun _ h => by rw [(writeWord_error h).1]; nofun

theorem writeByte_attempt (m : Memory) (a : Nat) (v : Byte) :
    Attempt (fun _ => True) (writeByte m a v) :=
  .of_errors fun _ h => by rw [(writeByte_error h).1]; nofun

theorem divideWords_attempt (a v : Word) : Attempt (fun _ => True) (divideWords a v) :=
  .of_errors fun _ h => by rw [(divideWords_error h).2]; nofun

theorem checkField_attempt (f : RegField) : Attempt (fun _ => True) (checkField f) := by
  cases f with
  | reg r => exact .done trivial
  | invalid id => exact .raised nofun

/-- A register write leaves the latch (R40). -/
theorem State.set_attempt (s : State) (r : Reg) (v : Word) :
    Attempt (fun t => t.halted = s.halted) (s.set r v) := by
  cases h : s.set r v with
  | ok t => rw [(State.set_ok h).1]; exact .done (State.put_halted s r v)
  | error k => rw [(State.set_error h).1]; exact .raised nofun

/-! The meanings that reach no device -/

/-- The meaning is the commit of an attempt that leaves the latch. -/
def Attempts (s : State) (a : Answer) : Prop :=
  ∃ r, a = .next (s.commit r) ∧ Attempt (fun t => t.halted = s.halted) r

section
variable (s : State)

theorem accumulate_attempts {f : Word → Word → Except Fault Word} (m : MemOperand)
    (hf : ∀ a v, Attempt (fun _ => True) (f a v)) : Attempts s (accumulate f m s) :=
  ⟨_, rfl, (operandWord_attempt s m).bind fun v _ => (hf s.A v).bind fun _ _ => .done rfl⟩

theorem loadWord_attempts (r : Reg) (m : MemOperand) : Attempts s (loadWord r m s) :=
  ⟨_, rfl, (operandWord_attempt s m).bind fun v _ => s.set_attempt r v⟩

theorem storeWord_attempts (v : Word) (m : MemOperand) : Attempts s (storeWord v m s) :=
  ⟨_, rfl, (effectiveAddress_attempt s m).bind fun ea _ =>
    (writeWord_attempt s.mem ea.toNat v).bind fun _ _ => .done rfl⟩

theorem jumpIf_attempts (taken : Word → Bool) (m : MemOperand) : Attempts s (jumpIf taken m s) :=
  ⟨_, rfl, (effectiveAddress_attempt s m).bind fun _ _ => .done (by split <;> rfl)⟩

theorem combine_attempts {f : Word → Word → Except Fault Word} (r1 r2 : RegField)
    (hf : ∀ d v, Attempt (fun _ => True) (f d v)) : Attempts s (combine f r1 r2 s) :=
  ⟨_, rfl, (checkField_attempt r1).bind fun src _ => (checkField_attempt r2).bind fun dst _ =>
    (hf (s.get dst) (s.get src)).bind fun v _ => s.set_attempt dst v⟩

theorem update_attempts (f : Word → Word) (r1 : RegField) : Attempts s (update f r1 s) :=
  ⟨_, rfl, (checkField_attempt r1).bind fun r _ => s.set_attempt r _⟩

theorem unimplemented_attempts : Attempts s (unimplemented s) :=
  ⟨.error .unimplementedOpcode, rfl, .raised nofun⟩

/-- An instruction other than TD, RD and WD commits one attempt. -/
theorem exec_attempt {i : Instr} (hi : usesDevice i = false) : Attempts s (exec i s) := by
  unfold exec
  cases i with
  | rd _ | wd _ | td _ => cases hi
  | float | fix | norm | sio | hio | tio => exact unimplemented_attempts s
  | svc _ _ => exact unimplemented_attempts s
  | addf _ | subf _ | mulf _ | divf _ | compf _ | lps _ | sti _ | ssk _ =>
    exact unimplemented_attempts s
  | addr r1 r2 | subr r1 r2 | mulr r1 r2 | rmo r1 r2 =>
    exact combine_attempts s r1 r2 fun _ _ => .done trivial
  | divr r1 r2 => exact combine_attempts s r1 r2 divideWords_attempt
  | compr r1 r2 =>
    exact ⟨_, rfl, (checkField_attempt r1).bind fun _ _ => (checkField_attempt r2).bind fun _ _ =>
      .done rfl⟩
  | shiftl r1 _ | shiftr r1 _ | clear r1 _ => exact update_attempts s _ r1
  | tixr r1 _ => exact ⟨_, rfl, (checkField_attempt r1).bind fun _ _ => .done rfl⟩
  | lda m | ldx m | ldl m | ldb m | lds m | ldf m | ldt m => exact loadWord_attempts s _ m
  | sta m | stx m | stl m | stb m | sts m | stf m | stt m | stsw m =>
    exact storeWord_attempts s _ m
  | add m | sub m | mul m | and m | or m =>
    exact accumulate_attempts s m fun _ _ => .done trivial
  | div m => exact accumulate_attempts s m divideWords_attempt
  | comp m | tix m => exact ⟨_, rfl, (operandWord_attempt s m).bind fun _ _ => .done rfl⟩
  | jeq m | jgt m | jlt m | j m => exact jumpIf_attempts s _ m
  | jsub m => exact ⟨_, rfl, (effectiveAddress_attempt s m).bind fun _ _ => .done rfl⟩
  | rsub m => exact ⟨_, rfl, (targetAddress_attempt s m).bind fun _ _ => .done rfl⟩
  | ldch m => exact ⟨_, rfl, (operandByte_attempt s m).bind fun _ _ => .done rfl⟩
  | stch m =>
    exact ⟨_, rfl, (effectiveAddress_attempt s m).bind fun ea _ =>
      (writeByte_attempt s.mem ea.toNat _).bind fun _ _ => .done rfl⟩

end

/-! What device requests leave where a fault ends them -/

/-- `u` is `s` but for the environment's field and a device that its last request but one opened; no
device has received a byte (R291, R382). -/
structure Undelivered (s u : State) : Prop where
  frame : u = { s with bound := u.bound, env := u.env }
  kept : ∀ d, s.isBound d = true → u.isBound d = true
  opened : ∀ d, s.isBound d = false → u.isBound d = true →
    ∃ e, u.env.log = e :: .opened d .ok :: s.env.log
  sent : ∀ d, sentTo d u.env.log = sentTo d s.env.log

theorem Undelivered.refl (s : State) : Undelivered s s :=
  ⟨rfl, fun _ h => h, fun _ h h' => absurd (h.symm.trans h') nofun, fun _ => rfl⟩

section
variable {d : DeviceId} {s t u : State} {k : Fault} {e : DevEvent}

/-- One request that delivers no byte. -/
theorem Undelivered.of_event (hu : u = { s with env := u.env }) (hlog : u.env.log = e :: s.env.log)
    (he : ∀ x, sentTo x (e :: s.env.log) = sentTo x s.env.log) : Undelivered s u where
  frame := by rw [hu]
  kept x hx := by rw [hu]; exact hx
  opened x hx hx' := by rw [hu] at hx'; cases hx.symm.trans hx'
  sent x := by rw [hlog, he]

/-- The binding of a device on its first reference, then one request that delivers no byte. -/
theorem Undelivered.of_ensure (hu : u = { (ensure d s).2 with env := u.env })
    (hlog : u.env.log = e :: (ensure d s).2.env.log)
    (he : ∀ x log, sentTo x (e :: log) = sentTo x log) : Undelivered s u := by
  have hbound : ∀ x, u.isBound x = (ensure d s).2.isBound x := fun x => by rw [hu]; rfl
  refine ⟨by rw [hu, ensure_state], fun x hx => ?_, fun x hx hx' => ?_, fun x => ?_⟩
  · rw [hbound, ensure_isBound, hx]
    rfl
  · rw [hbound, ensure_isBound, hx] at hx'
    obtain ⟨rfl, hok⟩ : d = x ∧ (ensure d s).1 = .ok := by simpa using hx'
    refine ⟨e, hlog.trans (congrArg _ ?_)⟩
    rcases ensure_cases d s with ⟨hb, -⟩ | ⟨-, hr, h⟩ | ⟨-, -, h⟩
    · cases hx.symm.trans hb
    · rw [h, State.bind_env, askOpen_log, hr]
    · rw [h] at hok; cases hok
  · rw [hlog, he, ensure_sentTo]

/-- An open that fails. -/
theorem Undelivered.of_ensure_fail (h : ensure d s = (.fail, u)) : Undelivered s u := by
  rcases ensure_cases d s with ⟨-, h'⟩ | ⟨-, -, h'⟩ | ⟨-, -, h'⟩ <;> rw [h] at h' <;> cases h'
  exact .of_event (askOpen_state d s) (askOpen_log d s) fun _ => rfl

/-- `t` is `s` with the fault `k` taken, and before it no more than `Undelivered` allows. -/
def PreciseFault (k : Fault) (s t : State) : Prop :=
  k ≠ .loadError ∧ ∃ u, Undelivered s u ∧ t = u.raise k

theorem PreciseFault.raise (hk : k ≠ .loadError) (s : State) : PreciseFault k s (s.raise k) :=
  ⟨hk, s, .refl s, rfl⟩

/-- A read of a bound device that fails has asked it once (R293). -/
theorem readBound_fault (h : readBound d s = (.fault k, u)) : k = .ioError ∧ u = (askGet d s).2 := by
  have hu : u = (askGet d s).2 := by rw [← readBound_state, h]
  have hr := readBound_result d s
  rw [h] at hr
  split at hr <;> cases hr <;> exact ⟨rfl, hu⟩

theorem devRead_fault (h : devRead d s = (.fault k, u)) : k ≠ .loadError ∧ Undelivered s u := by
  unfold devRead at h
  cases he : ensure d s with
  | mk r v =>
    rw [he] at h
    cases r with
    | fail => cases h; exact ⟨nofun, .of_ensure_fail he⟩
    | ok =>
      obtain ⟨rfl, rfl⟩ := readBound_fault h
      obtain rfl : (ensure d s).2 = v := by rw [he]
      exact ⟨nofun, .of_ensure (askGet_state d _) (askGet_log d _) fun _ _ => rfl⟩

theorem devWrite_fault {c : Byte} (h : devWrite d c s = (some k, u)) :
    k ≠ .loadError ∧ Undelivered s u := by
  unfold devWrite at h
  cases he : ensure d s with
  | mk r v =>
    rw [he] at h
    cases r with
    | fail => cases h; exact ⟨nofun, .of_ensure_fail he⟩
    | ok =>
      have hlog := askPut_log d c v
      have hstate := askPut_state d c v
      obtain rfl : (ensure d s).2 = v := by rw [he]
      cases hp : askPut d c (ensure d s).2 with
      | mk r' w =>
        simp only [hp] at h hlog hstate
        cases r' with
        | ok => cases h
        | fail => cases h; exact ⟨nofun, .of_ensure hstate hlog fun _ _ => rfl⟩

/-! The faults of an instruction -/

theorem testDevice_halted (d : DeviceId) (s : State) : (testDevice d s).halted = s.halted := by
  have he := (ensure_requested d s).halted
  unfold testDevice
  cases h : ensure d s with
  | mk r u => rw [h] at he; cases r <;> exact he

/-- A device read that leaves a running machine halted has come to a fault, and ends the read. -/
theorem finishRead_raised {p : ReadResult × State} (hrun : p.2.halted = false)
    (ht : (finishRead d p).halted = true) :
    ∃ k, p = (.fault k, p.2) ∧ finishRead d p = p.2.freed.raise k := by
  obtain ⟨r, u⟩ := p
  rcases finishRead_cases d r u with ⟨c, -, hf⟩ | ⟨k, rfl, hf⟩ | ⟨-, hf⟩
  · rw [hf] at ht; cases hrun.symm.trans ht
  · exact ⟨k, rfl, hf⟩
  · rw [hf] at ht; cases hrun.symm.trans ht

theorem readDevice_preciseFault (hrun : s.halted = false) (hfree : s.held = none)
    (ht : (readDevice d s).halted = true) : ∃ k, PreciseFault k s (readDevice d s) := by
  have hu := devRead_requested d s
  obtain ⟨k, hp, hf⟩ := finishRead_raised (hu.halted.trans hrun) ht
  obtain ⟨hk, hund⟩ := devRead_fault hp
  exact ⟨k, hk, _, hund, by rw [readDevice, hf, State.freed_of_free (hu.held hfree)]⟩

theorem writeDevice_preciseFault (hrun : s.halted = false)
    (ht : (writeDevice d s).halted = true) : ∃ k, PreciseFault k s (writeDevice d s) := by
  have hu := devWrite_requested d (lowByte s.A) s
  unfold writeDevice at ht ⊢
  cases h : devWrite d (lowByte s.A) s with
  | mk r u =>
    rw [h] at hu ht
    cases r with
    | none => cases (hu.halted.trans hrun).symm.trans ht
    | some k =>
      obtain ⟨hk, hund⟩ := devWrite_fault h
      exact ⟨k, hk, u, hund, rfl⟩

/-- An instruction on a device faults with its operand or on the device. -/
theorem withDevice_preciseFault {f : DeviceId → State → State} {m : MemOperand}
    (hf : ∀ d, (f d s).halted = true → ∃ k, PreciseFault k s (f d s))
    (ht : (withDevice f m s).halted = true) : ∃ k, PreciseFault k s (withDevice f m s) := by
  rcases withDevice_cases f m s with ⟨d, -, h⟩ | ⟨k, hk, h⟩ <;> rw [h] at ht ⊢
  · exact hf d ht
  · have ha := operandDevice_attempt s m
    rw [hk] at ha
    cases ha with
    | raised hne => exact ⟨k, .raise hne s⟩

/-- An instruction that leaves a running machine halted has raised a fault, precisely. -/
theorem exec_preciseFault {i : Instr} (hrun : s.halted = false) (hfree : s.held = none)
    (h : exec i s = .next t) (ht : t.halted = true) : ∃ k, PreciseFault k s t := by
  cases hi : usesDevice i with
  | false =>
    obtain ⟨r, hr, ha⟩ := exec_attempt s hi
    obtain rfl := next_inj (hr.symm.trans h)
    cases ha with
    | done hu => cases hrun.symm.trans (hu.symm.trans ht)
    | raised hk => exact ⟨_, .raise hk s⟩
  | true =>
    cases i with
    | td m =>
      obtain rfl := next_inj h
      refine withDevice_preciseFault (fun d hd => ?_) ht
      cases hrun.symm.trans ((testDevice_halted d s).symm.trans hd)
    | rd m =>
      obtain rfl := next_inj h
      exact withDevice_preciseFault (fun _ => readDevice_preciseFault hrun hfree) ht
    | wd m =>
      obtain rfl := next_inj h
      exact withDevice_preciseFault (fun _ => writeDevice_preciseFault hrun) ht
    | _ => cases hi

/-- A held RD that ends in a fault has asked its device once more and fetched nothing (R299; log 2). -/
theorem resumeRead_preciseFault (hrun : s.halted = false) (ht : (resumeRead d s).halted = true) :
    ∃ k, PreciseFault k s.freed (resumeRead d s) := by
  obtain ⟨k, hp, hf⟩ := finishRead_raised ((readBound_requested d s).halted.trans hrun) ht
  obtain ⟨rfl, hu⟩ := readBound_fault hp
  refine ⟨.ioError, nofun, (askGet d s).2.freed, .of_event rfl (askGet_log d s) fun _ => rfl, ?_⟩
  rw [resumeRead, hf, hu]

end

/-! The faults of a step -/

/-- How many bytes a step has fetched, `n`, where it raises the fault `k` (R151, R156): none where a read
is held, all of the instruction where the fetches succeed; where one faults, its fault is the step's. -/
structure FetchedBefore (n : Nat) (k : Fault) (s : State) : Prop where
  le : n ≤ 4
  held : s.held ≠ none → n = 0
  bytes : ∀ bs u, s.held = none → fetchInstr s = .bytes bs u → n = bs.length
  fault : ∀ k' u, s.held = none → fetchInstr s = .fault k' u →
    k = k' ∧ u.PC = s.PC + BitVec.ofNat 24 n

section
variable {s t : State} {n : Nat} {k : Fault}

theorem FetchedBefore.of_held {w : Wait} (h : s.held = some w) (k : Fault) : FetchedBefore 0 k s :=
  ⟨by omega, fun _ => rfl, fun _ _ h' => (nomatch h.symm.trans h'),
    fun _ _ h' => (nomatch h.symm.trans h')⟩

theorem FetchedBefore.of_bytes (hfree : s.held = none) (hn : n ≤ 4)
    (h : fetchInstr s = .bytes (bytesAt s.mem s.PC.toNat n) (s.advance n)) (k : Fault) :
    FetchedBefore n k s where
  le := hn
  held hheld := absurd hfree hheld
  bytes bs u _ h' := by
    obtain ⟨rfl, -⟩ := Fetched.bytes.inj (h.symm.trans h')
    exact (bytesAt_length ..).symm
  fault k' u _ h' := nomatch h.symm.trans h'

theorem FetchedBefore.of_fault (hfree : s.held = none) (hn : n ≤ 4)
    (h : fetchInstr s = .fault k (s.advance n)) : FetchedBefore n k s where
  le := hn
  held hheld := absurd hfree hheld
  bytes bs u _ h' := nomatch h.symm.trans h'
  fault k' u _ h' := by
    obtain ⟨rfl, rfl⟩ := Fetched.fault.inj (h.symm.trans h')
    exact ⟨rfl, rfl⟩

theorem decodeFault_ne_loadError (e : DecodeError) : decodeFault e ≠ .loadError := by
  cases e <;> nofun

/-- A step that leaves a running machine halted raises one fault, precisely, after its fetches. -/
theorem step_preciseFault (hrun : s.halted = false) (h : step s = .next t) (ht : t.halted = true) :
    ∃ n k, FetchedBefore n k s ∧ PreciseFault k (s.freed.advance n) t := by
  rcases s.held_cases with hheld | ⟨d, hheld⟩ | ⟨d, hheld⟩
  · rw [State.freed_of_free hheld]
    rcases step_cases hrun hheld with
      ⟨j, hj, hf, hs⟩ | ⟨n, -, hn, -, hf, ⟨e, -, hs⟩ | ⟨i, _, -, hs⟩⟩
    · obtain rfl := next_inj (hs.symm.trans h)
      exact ⟨j, _, .of_fault hheld hj.le hf, .raise (k := .outOfRange) nofun _⟩
    · obtain rfl := next_inj (hs.symm.trans h)
      exact ⟨n, _, .of_bytes hheld hn hf _, .raise (decodeFault_ne_loadError e) _⟩
    · obtain ⟨k, hk⟩ := exec_preciseFault (s := s.advance n) hrun hheld (hs.symm.trans h) ht
      exact ⟨n, k, .of_bytes hheld hn hf k, hk⟩
  · rw [step_held hrun hheld] at h
    obtain rfl := next_inj h
    obtain ⟨k, hk⟩ := resumeRead_preciseFault hrun ht
    exact ⟨0, k, .of_held hheld k, by rwa [State.advance_zero]⟩
  · rw [step_held_host hheld] at h
    obtain rfl := next_inj h
    cases hrun.symm.trans ht

end

/-- Settles O11: the fault is precise, after the fetches that precede it. -/
theorem faultsArePrecise : Obligations.FaultsArePrecise := by
  intro s t hrun h ht
  obtain ⟨n, k, hfetch, hk, u, hund, rfl⟩ := step_preciseFault hrun h ht
  refine ⟨n, k, hfetch.le, hfetch.held, hk, hfetch.bytes, hfetch.fault, ?_, hund.kept, hund.opened,
    hund.sent⟩
  conv_lhs => rw [hund.frame]
  rfl

/-- Settles O7. -/
theorem everyStepAnswersNext : Obligations.EveryStepAnswersNext :=
  step_answers_next

end Sys2Proof.Machine
end

section
/-! PROOFS. The latch under the host's operations (R153), unknown opcodes (R154), and the target address
and the operands by flags and mode (R160 to R174). -/

namespace Sys2Proof.Machine

/-! What halts and what clears the latch -/

section
variable {s t : State}

theorem hostSet_halted {id v : Int} (h : hostSet id v s = .ok t) : t.halted = s.halted := by
  obtain ⟨r, -, h⟩ := except_bind_eq_ok h
  obtain ⟨n, -, h⟩ := except_bind_eq_ok h
  rw [(State.set_ok h).1, State.put_halted]

theorem hostWriteByte_halted {addr v : Int} (h : hostWriteByte addr v s = .ok t) :
    t.halted = s.halted := by
  obtain ⟨a, -, h⟩ := except_bind_eq_ok h
  obtain ⟨b, -, h⟩ := except_bind_eq_ok h
  obtain ⟨m, -, h⟩ := except_bind_eq_ok h
  cases h
  rfl

theorem hostWriteWord_halted {addr v : Int} (h : hostWriteWord addr v s = .ok t) :
    t.halted = s.halted := by
  obtain ⟨a, -, h⟩ := except_bind_eq_ok h
  obtain ⟨w, -, h⟩ := except_bind_eq_ok h
  obtain ⟨m, -, h⟩ := except_bind_eq_ok h
  cases h
  rfl

/-- An operation that writes leaves the latch where what it wrote does. -/
theorem written_halted {r : Except Fault State} (h : ∀ t, r = .ok t → t.halted = s.halted) :
    (written s r).2.halted = s.halted := by
  cases r with
  | ok t => exact h t rfl
  | error k => rfl

theorem hostTest_halted (id : Int) (s : State) : (hostTest id s).2.halted = s.halted := by
  unfold hostTest
  cases hostNat 255 id with
  | error k => rfl
  | ok d =>
    have he := (ensure_requested (BitVec.ofNat 8 d) s).halted
    simp only
    cases h : ensure (BitVec.ofNat 8 d) s with
    | mk r t => rw [h] at he; cases r <;> exact he

theorem finishHostRead_halted (d : DeviceId) (b : BitVec 256) (p : ReadResult × State) :
    (finishHostRead d b p).2.halted = p.2.halted := by
  obtain ⟨r, u⟩ := p
  cases r with
  | byte c => exact State.bind_halted u d
  | fault k => rfl
  | pending => rfl

theorem hostRead_halted (id : Int) (s : State) : (hostRead id s).2.halted = s.halted := by
  unfold hostRead
  cases hostNat 255 id with
  | error k => rfl
  | ok d => exact (finishHostRead_halted ..).trans (devRead_requested _ s).halted

theorem hostResumeRead_halted (d : DeviceId) (s : State) :
    (hostResumeRead d s).2.halted = s.halted :=
  (finishHostRead_halted ..).trans (readBound_requested d s).halted

theorem hostWrite_halted (id v : Int) (s : State) : (hostWrite id v s).2.halted = s.halted := by
  unfold hostWrite
  cases hostNat 255 id with
  | error k => rfl
  | ok d =>
    cases hostNat 0xFF v with
    | error k => rfl
    | ok b =>
      have hw := (devWrite_requested (BitVec.ofNat 8 d) (BitVec.ofNat 8 b) s).halted
      simp only
      cases h : devWrite (BitVec.ofNat 8 d) (BitVec.ofNat 8 b) s with
      | mk r t => rw [h] at hw; cases r <;> exact hw

/-- A load that leaves the machine running is of a module that parses (R447, R448). -/
theorem parseModule_of_hostLoad {text : List Byte} (h : (hostLoad text s).2.halted = false) :
    ∃ image, parseModule text = some image := by
  rw [hostLoad_state] at h
  unfold loadModule at h
  cases hp : parseModule text with
  | some image => exact ⟨image, rfl⟩
  | none => rw [hp] at h; cases h

theorem hostStep_halted (h : s.halted = true) : (hostStep s).2 = s :=
  hostStep_state (step_halted h)

/-- An operation that is served leaves a halted machine halted, but for a reset or a load of a module
that parses. -/
theorem hostServe_clears {op : HostOp} (hs : s.halted = true)
    (h : (hostServe op s).2.halted = false) :
    op = .reset ∨ ∃ text image, op = .load text ∧ parseModule text = some image := by
  have contra : ∀ {u : State}, u.halted = s.halted → u.halted ≠ false :=
    fun hu hf => nomatch (hs.symm.trans hu.symm).trans hf
  cases op with
  | reset => exact .inl rfl
  | load text =>
    obtain ⟨image, hp⟩ := parseModule_of_hostLoad h
    exact .inr ⟨text, image, rfl, hp⟩
  | step => exact absurd h (contra (congrArg _ (hostStep_halted hs)))
  | halted | get _ | readByte _ | readWord _ | dump _ _ => exact absurd h (contra rfl)
  | set _ _ => exact absurd h (contra (written_halted fun _ => hostSet_halted))
  | writeByte _ _ => exact absurd h (contra (written_halted fun _ => hostWriteByte_halted))
  | writeWord _ _ => exact absurd h (contra (written_halted fun _ => hostWriteWord_halted))
  | test id => exact absurd h (contra (hostTest_halted id s))
  | read id => exact absurd h (contra (hostRead_halted id s))
  | write id v => exact absurd h (contra (hostWrite_halted id v s))

/-- What waits or resumes while a read is held does not clear the latch. -/
theorem hostPerform_halted_of_held {w : Wait} (op : HostOp) (hw : s.held = some w)
    (hs : s.halted = true) : (hostPerform op s).2.halted = true := by
  cases w with
  | step d =>
    rw [hostPerform_step_held hw]
    split
    · rw [hostStep_halted hs, hs]
    · exact hs
  | host d =>
    rw [hostPerform_host_held hw]
    split
    · rw [hostResumeRead_halted, hs]
    · exact hs

end

/-- Settles O8: while a read is held no operation clears the latch, and of those served only two do. -/
theorem haltedMachineStaysHalted : Obligations.HaltedMachineStaysHalted := by
  refine ⟨fun s hs => step_halted hs, fun s k hs hk hfree => ?_, fun op s hs h => ?_⟩
  · obtain ⟨-, hreply, -⟩ := hostStepReportsItsOutcome s hfree
    exact hreply k hs hk
  · cases hheld : s.held with
    | none =>
      rw [hostPerform_free hheld] at h
      exact hostServe_clears hs h
    | some w => cases h.symm.trans (hostPerform_halted_of_held op hheld hs)

/-! Unknown opcodes -/

section
variable {s : State}

theorem classes_of_unknownOpcodeByte {b0 : Byte} (h : unknownOpcodeByte b0 = true) :
    isFormat1 b0 = false ∧ isFormat2 b0 = false ∧ isFormat34 b0 = false := by
  simpa [unknownOpcodeByte_eq, and_assoc] using h

/-- No byte is fetched after the first two of an unknown opcode (R154). -/
theorem tailLength_of_unknown {b0 : Byte} (h : unknownOpcodeByte b0 = true) (b1 : Byte) :
    tailLength b0 b1 = 0 := by
  obtain ⟨h1, h2, h34⟩ := classes_of_unknownOpcodeByte h
  simp [tailLength, instrLength, h1, h2, h34]

/-- The second fetch of an instruction longer than one byte, at the last byte of memory (R151). -/
theorem fetchInstr_second_beyond (hpc : s.PC.toNat = maxAddress)
    (hf : isFormat1 (s.mem.read s.PC.toNat) = false) :
    fetchInstr s = .fault .outOfRange (s.advance 1) := by
  have h1 := pc_succ hpc.le
  rw [fetchInstr, fetchByte_eq hpc.le]
  simp only [hf, Bool.false_eq_true, if_false]
  rw [fetchByte_eq_error (s := { s with PC := s.PC + 1 }) (by simp only; omega)]
  rfl

end

/-- Settles O10: the two fetches find their bytes, which no format's table has, or the second is beyond
the memory. -/
theorem unknownOpcodeConsumesTwoBytes : Obligations.UnknownOpcodeConsumesTwoBytes := by
  intro s hrun hheld hb
  obtain ⟨h1, h2, h34⟩ := classes_of_unknownOpcodeByte hb
  rw [step_running hrun hheld]
  refine ⟨fun hpc => ?_, fun hpc => ?_⟩
  · have hmax : s.PC.toNat + (0 + 2) ≤ maxAddress + 1 := Nat.succ_le_succ hpc
    rw [fetchInstr_longer hmax h1 (tailLength_of_unknown hb _), bytesAt_succ, bytesAt_succ, runFetched,
      decode_unknownOpcode h1 h2 h34]
    rfl
  · rw [fetchInstr_second_beyond hpc h1]
    rfl

/-! The target address -/

/-- An exact address as a word, or the fault of one beyond 24 bits (R164). -/
def ranged (v : Int) : Except Fault Word :=
  if 0 ≤ v ∧ v ≤ 0xFFFFFF then .ok (BitVec.ofInt 24 v) else .error .outOfRange

section
variable {s : State} {m : MemOperand} {v : Int}

theorem targetAddress_direct (hb : baseAddress s m = .ok v) (hx : indexed m = false) :
    targetAddress s m = ranged v := by
  rw [targetAddress, hb, except_bind_ok, hx]
  rfl

theorem targetAddress_indexed (hb : baseAddress s m = .ok v) (hx : indexed m = true)
    (hi : indexable m = true) : targetAddress s m = ranged (v + s.X.toNat) := by
  rw [targetAddress, hb, except_bind_ok, hx, hi]
  rfl

theorem targetAddress_not_indexable (hb : baseAddress s m = .ok v) (hx : indexed m = true)
    (hi : indexable m = false) : targetAddress s m = .error .invalidAddressing := by
  rw [targetAddress, hb, except_bind_ok, hx, hi]
  rfl

theorem targetAddress_of_base_error {k : Fault} (hb : baseAddress s m = .error k) :
    targetAddress s m = .error k := by
  rw [targetAddress, hb, except_bind_error]

end

/-- The displacement under p is sign-extended (R161). -/
theorem disp_toInt (disp : BitVec 12) :
    disp.toInt = if disp.toNat < 2048 then (disp.toNat : Int) else disp.toNat - 4096 := by
  rw [BitVec.toInt_eq_toNat_cond]
  split <;> split <;> omega

/-- Only b and p together have no address before indexing (R373). -/
theorem baseAddress_exists (s : State) (mode : Mode) (x : Bool) {b p : Bool} (h : (b && p) = false)
    (disp : BitVec 12) (a20 : BitVec 20) :
    (∃ v, baseAddress s (.f3 mode x b p disp) = .ok v) ∧
      ∃ v, baseAddress s (.f4 mode x b p a20) = .ok v := by
  match b, p, h with
  | false, false, _ => exact ⟨⟨_, rfl⟩, _, rfl⟩
  | false, true, _ => exact ⟨⟨_, rfl⟩, _, rfl⟩
  | true, false, _ => exact ⟨⟨_, rfl⟩, _, rfl⟩

/-- Indexing is illegal in immediate and indirect mode (R163). -/
theorem indexable_eq_false {m : MemOperand} {mode : Mode} (hm : modeOfOperand m = some mode)
    (h : mode ≠ .simple) : indexable m = false := by
  unfold indexable
  rw [hm]
  cases mode with
  | simple => exact absurd rfl h
  | immediate => rfl
  | indirect => rfl

/-- Settles O19: each row of R165 by its address before indexing, its x flag and its mode. -/
theorem targetAddressByFlags : Obligations.TargetAddressByFlags := by
  intro s mode x b p a15 disp a20 range sext X B PC
  have hpc : baseAddress s (.f3 mode false false true disp) = .ok (PC + sext) :=
    congrArg (fun d => Except.ok (PC + d)) (disp_toInt disp)
  have hpcx : baseAddress s (.f3 .simple true false true disp) = .ok (PC + sext) :=
    congrArg (fun d => Except.ok (PC + d)) (disp_toInt disp)
  refine ⟨targetAddress_direct rfl rfl, targetAddress_indexed rfl rfl rfl,
    targetAddress_direct rfl rfl, targetAddress_direct hpc rfl, targetAddress_direct rfl rfl,
    targetAddress_of_base_error rfl,
    targetAddress_direct rfl rfl, targetAddress_direct rfl rfl, targetAddress_direct rfl rfl,
    targetAddress_of_base_error rfl,
    targetAddress_indexed rfl rfl rfl, targetAddress_indexed hpcx rfl rfl,
    targetAddress_indexed rfl rfl rfl,
    targetAddress_indexed rfl rfl rfl, targetAddress_indexed rfl rfl rfl,
    targetAddress_indexed rfl rfl rfl, fun hmode hbp => ?_⟩
  obtain ⟨⟨_, h3⟩, ⟨_, h4⟩⟩ := baseAddress_exists s mode true hbp disp a20
  exact ⟨targetAddress_not_indexable h3 rfl (indexable_eq_false rfl hmode),
    targetAddress_not_indexable h4 rfl (indexable_eq_false rfl hmode)⟩

/-! The operands by mode -/

theorem lowByte_toNat (w : Word) : (lowByte w).toNat = w.toNat % 256 := by
  simp [lowByte]

section
variable {s : State} {m : MemOperand} {ta : Word} (hta : targetAddress s m = .ok ta)
include hta

theorem operands_immediate (hm : modeOfOperand m = some .immediate) :
    operandWord s m = .ok ta ∧ effectiveAddress s m = .ok ta ∧ operandByte s m = .ok (lowByte ta) := by
  rw [operandWord_ok_target hta, effectiveAddress_ok_target hta, operandByte_ok_target hta, hm]
  exact ⟨rfl, rfl, rfl⟩

/-- One pointer word is read, and the access is at it (R174). -/
theorem operands_indirect (hm : modeOfOperand m = some .indirect) :
    operandWord s m = (readWord s.mem ta.toNat >>= fun p => readWord s.mem p.toNat) ∧
      effectiveAddress s m = readWord s.mem ta.toNat ∧
      operandByte s m = (readWord s.mem ta.toNat >>= fun p => readByte s.mem p.toNat) := by
  rw [operandWord_ok_target hta, effectiveAddress_ok_target hta, operandByte_ok_target hta, hm]
  exact ⟨rfl, rfl, rfl⟩

theorem operands_at_target (hm : modeOfOperand m = some .simple ∨ modeOfOperand m = none) :
    operandWord s m = readWord s.mem ta.toNat ∧ effectiveAddress s m = .ok ta ∧
      operandByte s m = readByte s.mem ta.toNat := by
  rw [operandWord_ok_target hta, effectiveAddress_ok_target hta, operandByte_ok_target hta]
  rcases hm with hm | hm <;> rw [hm] <;> exact ⟨rfl, rfl, rfl⟩

end

/-- Settles O20: the three operands of each mode. -/
theorem operandByMode : Obligations.OperandByMode := by
  intro s m
  refine ⟨fun k hk => operands_error_target hk, fun ta hta => ⟨fun hm => ?_, fun hm => ?_, fun hm => ?_⟩⟩
  · obtain ⟨hword, haddr, hbyte⟩ := operands_immediate hta hm
    exact ⟨hword, haddr, lowByte ta, hbyte, lowByte_toNat ta⟩
  · obtain ⟨hword, haddr, hbyte⟩ := operands_indirect hta hm
    rw [hword, haddr, hbyte]
    refine ⟨fun p hp => ?_, fun k hk => ?_⟩
    · rw [hp]; exact ⟨rfl, rfl, rfl⟩
    · rw [hk]; exact ⟨rfl, rfl, rfl⟩
  · exact operands_at_target hta hm

end Sys2Proof.Machine
end

section
/-! PROOFS. Arithmetic, logic and compare (spec/41_arith_logic_compare.md). What an instruction does is
said once for each of the two answers of its operand: a fault, which is then the whole effect
(`commit_operand_error`), or a word, which the shared shape computes with (`accumulate_ok`,
`accumulate_error`, `execComp_ok`, `execTix_ok`). -/

namespace Sys2Proof.Machine

/-! The meanings -/

section
variable (m : MemOperand) (s : State)

theorem exec_add : exec (.add m) s = accumulate (fun a v => .ok (a + v)) m s := rfl
theorem exec_sub : exec (.sub m) s = accumulate (fun a v => .ok (a - v)) m s := rfl
theorem exec_mul : exec (.mul m) s = accumulate (fun a v => .ok (a * v)) m s := rfl
theorem exec_div : exec (.div m) s = accumulate divideWords m s := rfl
theorem exec_and : exec (.and m) s = accumulate (fun a v => .ok (a &&& v)) m s := rfl
theorem exec_or : exec (.or m) s = accumulate (fun a v => .ok (a ||| v)) m s := rfl

end

/-! The operand's answer -/

section
variable {s : State} {m : MemOperand}

/-- A fault of the operand is the whole effect, whatever was to be done with the word (R382). -/
theorem commit_operand_error {k : Fault} (hk : operandWord s m = .error k)
    (use : Word → Except Fault State) : s.commit (operandWord s m >>= use) = s.raise k := by
  rw [hk, except_bind_error, State.commit_error]

theorem accumulate_operand_error {k : Fault} (hk : operandWord s m = .error k)
    (f : Word → Word → Except Fault Word) : accumulate f m s = .next (s.raise k) :=
  congrArg _ (commit_operand_error hk _)

theorem execComp_operand_error {k : Fault} (hk : operandWord s m = .error k) :
    execComp m s = .next (s.raise k) := congrArg _ (commit_operand_error hk _)

theorem execTix_operand_error {k : Fault} (hk : operandWord s m = .error k) :
    execTix m s = .next (s.raise k) := congrArg _ (commit_operand_error hk _)

section
variable {v : Word} (hv : operandWord s m = .ok v)
include hv

theorem accumulate_ok {f : Word → Word → Except Fault Word} {a : Word} (ha : f s.A v = .ok a) :
    accumulate f m s = .next { s with A := a } := by
  simp only [accumulate, hv, ha, except_bind_ok, State.commit_ok]

theorem accumulate_error {f : Word → Word → Except Fault Word} {k : Fault}
    (hk : f s.A v = .error k) : accumulate f m s = .next (s.raise k) := by
  simp only [accumulate, hv, hk, except_bind_ok, except_bind_error, State.commit_error]

theorem execComp_ok : execComp m s = .next { s with SW := compareWords s.A v } := by
  simp only [execComp, hv, except_bind_ok, State.commit_ok]

/-- The word compared is the new X (R222). -/
theorem execTix_ok :
    execTix m s = .next { s with X := s.X + 1, SW := compareWords (s.X + 1) v } := by
  simp only [execTix, hv, except_bind_ok, State.commit_ok]

end

end

/-! Words as numbers -/

/-- A difference of words is that of their numbers modulo 2^24 (R203). -/
theorem sub_toNat_emod (a v : Word) :
    ((a - v).toNat : Int) = ((a.toNat : Int) - v.toNat) % 2 ^ 24 := by
  rw [BitVec.toNat_sub]
  omega

/-- Comparisons read both words in two's complement (R201; log 8). -/
theorem compareWords_eq (a b : Word) :
    compareWords a b = if a.toInt < b.toInt then 0x00 else if a.toInt = b.toInt then 0x40 else 0x80 :=
  rfl

theorem divideWords_zero (a : Word) : divideWords a 0 = .error .divideByZero := rfl

/-- A quotient by any other divisor is the signed one of bit vectors: reducing the exact quotient
modulo 2^24 is what `BitVec.sdiv` does (R205). -/
theorem divideWords_of_ne_zero (a : Word) {v : Word} (hv : v ≠ 0) :
    divideWords a v = .ok (a.sdiv v) := by
  have hq : BitVec.ofInt 24 (a.toInt.tdiv v.toInt) = a.sdiv v :=
    BitVec.eq_of_toInt_eq (by rw [BitVec.toInt_ofInt, BitVec.toInt_sdiv])
  rw [divideWords, if_neg hv, ← hq]
  rfl

/-- The least word by -1 is the one quotient that no word stands for (R205). -/
theorem sdiv_toInt_of_fits {a v : Word} (h : ¬ (a = 0x800000 ∧ v = 0xFFFFFF)) :
    (a.sdiv v).toInt = a.toInt.tdiv v.toInt :=
  BitVec.toInt_sdiv_of_ne_or_ne a v (not_and_or.mp h)

theorem sdiv_least_by_neg_one : (0x800000 : Word).sdiv 0xFFFFFF = 0x800000 := by decide

/-! The statements -/

/-- Settles O33: the three operations on words are those on numbers modulo 2^24. -/
theorem addSubMulWrap : Obligations.AddSubMulWrap := by
  intro m s
  refine ⟨fun v hv => ⟨?add, ?sub, ?mul⟩, fun k hk => ?fault⟩
  case add =>
    exact ⟨s.A + v, (exec_add m s).trans (accumulate_ok hv rfl), BitVec.toNat_add s.A v⟩
  case sub =>
    exact ⟨s.A - v, (exec_sub m s).trans (accumulate_ok hv rfl), sub_toNat_emod s.A v⟩
  case mul =>
    exact ⟨s.A * v, (exec_mul m s).trans (accumulate_ok hv rfl), BitVec.toNat_mul s.A v⟩
  case fault =>
    simp only [List.forall_mem_cons, exec_add, exec_sub, exec_mul, accumulate_operand_error hk]
    exact ⟨rfl, rfl, rfl, List.forall_mem_nil _⟩

/-- Settles O34, by whether the divisor is zero and whether the quotient fits. -/
theorem divTruncatesTowardZero : Obligations.DivTruncatesTowardZero := by
  intro m s
  rw [exec_div]
  refine ⟨fun v hv => ⟨fun hne => ?quotient, fun hzero => ?zero⟩,
    fun k hk => accumulate_operand_error hk _⟩
  case quotient =>
    refine ⟨s.A.sdiv v, accumulate_ok hv (divideWords_of_ne_zero s.A hne), ?_, sdiv_toInt_of_fits⟩
    rintro ⟨hA, rfl⟩
    rw [hA, sdiv_least_by_neg_one]
  case zero =>
    subst hzero
    exact accumulate_error hv (divideWords_zero s.A)

/-- Settles O35: the words' operations are bit by bit. -/
theorem andOrAreBitwise : Obligations.AndOrAreBitwise := by
  intro m s
  refine ⟨fun v hv => ⟨?and, ?or⟩, fun k hk => ?fault⟩
  case and =>
    exact ⟨s.A &&& v, (exec_and m s).trans (accumulate_ok hv rfl), fun _ => BitVec.getLsbD_and⟩
  case or =>
    exact ⟨s.A ||| v, (exec_or m s).trans (accumulate_ok hv rfl), fun _ => BitVec.getLsbD_or⟩
  case fault =>
    simp only [List.forall_mem_cons, exec_and, exec_or, accumulate_operand_error hk]
    exact ⟨rfl, rfl, List.forall_mem_nil _⟩

/-- Settles O36: both instructions compare by `compareWords`. -/
theorem compAndTixSetTheCode : Obligations.CompAndTixSetTheCode := by
  intro m s
  refine ⟨fun v hv => ⟨?comp, ?tix⟩, fun k hk => ?fault⟩
  case comp => rw [← compareWords_eq]; exact execComp_ok hv
  case tix => rw [← compareWords_eq]; exact execTix_ok hv
  case fault =>
    simp only [List.forall_mem_cons]
    exact ⟨execComp_operand_error hk, execTix_operand_error hk, List.forall_mem_nil _⟩

end Sys2Proof.Machine
end

section
/-! PROOFS. Jumps, subroutine call and return (spec/42_jumps.md). Each shape of a meaning is said once for
each of the two answers of the address it starts with: a fault, which is then the whole effect
(`commit_address_error`), or an address (`jumpIf_ok`, `execJsub_ok`, `execRsub_ok`). -/

namespace Sys2Proof.Machine

/-! The meanings -/

section
variable (m : MemOperand) (s : State)

theorem exec_j : exec (.j m) s = jumpIf (fun _ => true) m s := rfl
theorem exec_jeq : exec (.jeq m) s = jumpIf (fun sw => sw == 0x40) m s := rfl
theorem exec_jgt : exec (.jgt m) s = jumpIf (fun sw => sw == 0x80) m s := rfl
theorem exec_jlt : exec (.jlt m) s = jumpIf (fun sw => sw == 0x00) m s := rfl
theorem exec_jsub : exec (.jsub m) s = execJsub m s := rfl
theorem exec_rsub : exec (.rsub m) s = execRsub m s := rfl

end

section
variable {s : State} {m : MemOperand}

/-! The address faults -/

/-- A fault of the address is the whole effect, whatever was to be done with it (R382). -/
theorem commit_address_error {address : Except Fault Word} {k : Fault} (hk : address = .error k)
    (use : Word → Except Fault State) : s.commit (address >>= use) = s.raise k := by
  rw [hk, except_bind_error, State.commit_error]

/-- The condition is not consulted (R231). -/
theorem jumpIf_error {k : Fault} (hk : effectiveAddress s m = .error k) (taken : Word → Bool) :
    jumpIf taken m s = .next (s.raise k) := congrArg _ (commit_address_error hk _)

theorem execJsub_error {k : Fault} (hk : effectiveAddress s m = .error k) :
    execJsub m s = .next (s.raise k) := congrArg _ (commit_address_error hk _)

theorem execRsub_error {k : Fault} (hk : targetAddress s m = .error k) :
    execRsub m s = .next (s.raise k) := congrArg _ (commit_address_error hk _)

/-! The address is given -/

/-- A jump not taken writes nothing, which is PC written with itself. -/
theorem jumpIf_ok {ea : Word} (hea : effectiveAddress s m = .ok ea) (taken : Word → Bool) :
    jumpIf taken m s = .next { s with PC := if taken s.SW then ea else s.PC } := by
  simp only [jumpIf, hea, except_bind_ok, State.commit_ok]
  cases taken s.SW with
  | true => rfl
  | false => rfl

theorem jumpIf_code_ok {ea : Word} (hea : effectiveAddress s m = .ok ea) (code : Word) :
    jumpIf (fun sw => sw == code) m s = .next { s with PC := if s.SW = code then ea else s.PC } := by
  simp only [jumpIf_ok hea, beq_iff_eq]

theorem execJsub_ok {ea : Word} (hea : effectiveAddress s m = .ok ea) :
    execJsub m s = .next { s with L := s.PC, PC := ea } := by
  simp only [execJsub, hea, except_bind_ok, State.commit_ok]

/-- The target address's value is not used (R237). -/
theorem execRsub_ok {ta : Word} (hta : targetAddress s m = .ok ta) :
    execRsub m s = .next { s with PC := s.L } := by
  simp only [execRsub, hta, except_bind_ok, State.commit_ok]

end

/-! The statements -/

/-- Settles O37: the four jumps are `jumpIf`, J under a condition that always holds. -/
theorem jumpsSetPC : Obligations.JumpsSetPC := by
  intro m s
  refine ⟨fun ea hea => ⟨?j, ?jeq, ?jgt, ?jlt⟩, fun k hk => ?fault⟩
  case j => exact (exec_j m s).trans (jumpIf_ok hea _)
  case jeq => exact (exec_jeq m s).trans (jumpIf_code_ok hea 0x40)
  case jgt => exact (exec_jgt m s).trans (jumpIf_code_ok hea 0x80)
  case jlt => exact (exec_jlt m s).trans (jumpIf_code_ok hea 0x00)
  case fault =>
    simp only [List.forall_mem_cons, exec_j, exec_jeq, exec_jgt, exec_jlt, jumpIf_error hk]
    exact ⟨rfl, rfl, rfl, rfl, List.forall_mem_nil _⟩

/-- Settles O38: JSUB starts with the effective address, RSUB with the target address alone. -/
theorem jsubAndRsubLink : Obligations.JsubAndRsubLink := by
  intro m s
  rw [exec_jsub, exec_rsub]
  exact ⟨fun _ hea => execJsub_ok hea, fun _ hk => execJsub_error hk,
    fun _ hta => execRsub_ok hta, fun _ hk => execRsub_error hk⟩

end Sys2Proof.Machine
end

section
/-! PROOFS. Loads and stores (spec/43_load_store.md). Each shape of a meaning is said once for each answer
of what it asks: the operand or the address (a fault is then the whole effect), and for a store the
memory's bound too (`storeWord_beyond`, `execStch_beyond`). -/

namespace Sys2Proof.Machine

/-! The meanings -/

section
variable (m : MemOperand) (s : State)

theorem exec_lda : exec (.lda m) s = loadWord .A m s := rfl
theorem exec_ldx : exec (.ldx m) s = loadWord .X m s := rfl
theorem exec_ldl : exec (.ldl m) s = loadWord .L m s := rfl
theorem exec_ldb : exec (.ldb m) s = loadWord .B m s := rfl
theorem exec_lds : exec (.lds m) s = loadWord .S m s := rfl
theorem exec_ldt : exec (.ldt m) s = loadWord .T m s := rfl
theorem exec_ldf : exec (.ldf m) s = loadWord .F m s := rfl
theorem exec_ldch : exec (.ldch m) s = execLdch m s := rfl
theorem exec_stch : exec (.stch m) s = execStch m s := rfl

/-- The word stores, each with the register it stores (R261 to R268). -/
def wordStores : List (Instr × Word) :=
  [(.sta m, s.A), (.stx m, s.X), (.stl m, s.L), (.stb m, s.B), (.sts m, s.S), (.stt m, s.T),
    (.stf m, s.F), (.stsw m, s.SW)]

theorem exec_of_mem_wordStores : ∀ p ∈ wordStores m s, exec p.1 s = storeWord p.2 m s := by
  simp only [wordStores, List.forall_mem_cons]
  exact ⟨rfl, rfl, rfl, rfl, rfl, rfl, rfl, rfl, List.forall_mem_nil _⟩

end

section
variable {s : State} {m : MemOperand}

/-! The loads -/

theorem loadWord_error {k : Fault} (hk : operandWord s m = .error k) (r : Reg) :
    loadWord r m s = .next (s.raise k) := congrArg _ (commit_operand_error hk _)

/-- Only SW refuses a word (R40), and no load names it. -/
theorem loadWord_ok {v : Word} (hv : operandWord s m = .ok v) {r : Reg} (hr : r ≠ .SW) :
    loadWord r m s = .next (s.put r v) := by
  simp only [loadWord, hv, except_bind_ok, State.set_of_ne_SW s v hr, State.commit_ok]

theorem execLdch_error {k : Fault} (hk : operandByte s m = .error k) :
    execLdch m s = .next (s.raise k) := by
  simp only [execLdch, hk, except_bind_error, State.commit_error]

theorem execLdch_ok {c : Byte} (hc : operandByte s m = .ok c) :
    execLdch m s = .next { s with A := withLowByte s.A c } := by
  simp only [execLdch, hc, except_bind_ok, State.commit_ok]

/-! The stores -/

theorem storeWord_error {k : Fault} (hk : effectiveAddress s m = .error k) (v : Word) :
    storeWord v m s = .next (s.raise k) := congrArg _ (commit_address_error hk _)

theorem execStch_error {k : Fault} (hk : effectiveAddress s m = .error k) :
    execStch m s = .next (s.raise k) := congrArg _ (commit_address_error hk _)

theorem writeByte_eq_error {mem : Memory} {a : Nat} {v : Byte} (h : 0x100000 < a) :
    writeByte mem a v = .error .outOfRange :=
  if_neg (Nat.not_le.2 h)

section
variable {ea : Word} (hea : effectiveAddress s m = .ok ea)
include hea

theorem storeWord_ok {v : Word} {m' : Memory} (hw : writeWord s.mem ea.toNat v = .ok m') :
    storeWord v m s = .next { s with mem := m' } := by
  simp only [storeWord, hea, hw, except_bind_ok, State.commit_ok]

theorem storeWord_beyond (hlast : 0x100000 < ea.toNat + 2) (v : Word) :
    storeWord v m s = .next (s.raise .outOfRange) := by
  simp only [storeWord, hea, writeWord_eq_error hlast, except_bind_ok, except_bind_error,
    State.commit_error]

theorem execStch_ok (hin : ea.toNat ≤ 0x100000) :
    execStch m s = .next { s with mem := s.mem.write ea.toNat (lowByte s.A) } := by
  simp only [execStch, hea, writeByte_eq hin, except_bind_ok, State.commit_ok]

theorem execStch_beyond (hout : 0x100000 < ea.toNat) :
    execStch m s = .next (s.raise .outOfRange) := by
  simp only [execStch, hea, writeByte_eq_error hout, except_bind_ok, except_bind_error,
    State.commit_error]

end

end

/-! The statements -/

/-- Settles O29: the seven loads are `loadWord`, none of them into SW. -/
theorem wordLoadsMoveTheOperand : Obligations.WordLoadsMoveTheOperand := by
  intro m s
  refine ⟨fun v hv => ?word, fun k hk => ?fault⟩
  case word =>
    rw [exec_lda, exec_ldx, exec_ldl, exec_ldb, exec_lds, exec_ldt, exec_ldf]
    exact ⟨loadWord_ok hv nofun, loadWord_ok hv nofun, loadWord_ok hv nofun, loadWord_ok hv nofun,
      loadWord_ok hv nofun, loadWord_ok hv nofun, loadWord_ok hv nofun⟩
  case fault =>
    simp only [List.forall_mem_cons, exec_lda, exec_ldx, exec_ldl, exec_ldb, exec_lds, exec_ldt,
      exec_ldf, loadWord_error hk]
    exact ⟨rfl, rfl, rfl, rfl, rfl, rfl, rfl, List.forall_mem_nil _⟩

/-- Settles O30: the new A is `withLowByte` of the old. -/
theorem ldchReplacesTheLowByte : Obligations.LdchReplacesTheLowByte := by
  intro m s
  rw [exec_ldch]
  exact ⟨fun c hc => ⟨withLowByte s.A c, execLdch_ok hc, withLowByte_toNat s.A c⟩,
    fun k hk => execLdch_error hk⟩

/-- Settles O31, by whether the address is given and the word there is all in memory. -/
theorem wordStoresWriteTheRegister : Obligations.WordStoresWriteTheRegister := by
  intro m s hm p hp
  rw [exec_of_mem_wordStores m s p hp]
  refine ⟨fun ea hea hin => ?stored, fun ea hea hout => ?beyond, fun k hk => storeWord_error hk p.2⟩
  case stored =>
    obtain ⟨m', hw⟩ := writeWord_exists (m := s.mem) (a := ea.toNat) (v := p.2) (by omega)
    exact ⟨m', storeWord_ok hea hw, readWord_of_writeWord hm hw,
      fun a ha => writeWord_frame hm hw (by omega)⟩
  case beyond => exact storeWord_beyond hea (by omega) p.2

/-- Settles O32, by whether the address is given and in memory. -/
theorem stchWritesOneByte : Obligations.StchWritesOneByte := by
  intro m s hm
  rw [exec_stch]
  refine ⟨fun ea hea hin => ⟨_, execStch_ok hea hin, ?byte, fun a ha => ?frame⟩,
    fun ea hea hout => execStch_beyond hea hout, fun k hk => execStch_error hk⟩
  case byte => rw [Memory.read_write_same hm, lowByte_toNat]
  case frame => exact Memory.read_write_other hm _ ha.symm

end Sys2Proof.Machine
end

section
/-! PROOFS. Devices (spec/44_device_io.md). What a device operation asks of its device is said once, for
every answer of the environment (`ensure_outcome`, `devRead_outcome`, `devWrite_outcome`): the device's
open fails and only the environment has changed, or the device is bound and has had one more request. RD,
WD and the host's read and write are read off these; where the answer is laid down and the device bound,
the environment's next state is known exactly (`devRead_laid`, `devWrite_laid`). -/

namespace Sys2Proof.Machine

/-! The bound bits -/

theorem State.isBound_bind_self (s : State) (d : DeviceId) : (s.bind d).isBound d = true := by
  simp [State.isBound_bind]

theorem State.isBound_bind_of_ne (s : State) {d e : DeviceId} (h : e ≠ d) :
    (s.bind d).isBound e = s.isBound e := by
  simp [State.isBound_bind, h.symm]

/-- An unbound device is opened and, where the open succeeds, bound (R291). -/
theorem ensure_opens {d : DeviceId} {s : State} (h : s.isBound d = false) :
    ∃ (r : Ack) (e : DevEnv), e.log = .opened d r :: s.env.log ∧
      ensure d s = (r, { s with
        bound := if r = .ok then s.bound ||| BitVec.twoPow 256 d.toNat else s.bound
        env := e }) := by
  refine ⟨(askOpen d s).1, (askOpen d s).2.env, askOpen_log d s, ?_⟩
  rcases ensure_cases d s with ⟨hb, -⟩ | ⟨-, hr, he⟩ | ⟨-, hr, he⟩
  · cases h.symm.trans hb
  · rw [he, hr]; rfl
  · rw [he, hr]; rfl

/-- The port's history once the device is bound, which takes an open where it was not (R291). -/
def readyLog (d : DeviceId) (s : State) : List DevEvent :=
  if s.isBound d = true then s.env.log else .opened d .ok :: s.env.log

/-- The open of `d` has failed, and with it the operation that needed it (R377): the environment, now
`e`, has had no other request. -/
def OpenFails (d : DeviceId) (s : State) (e : DevEnv) : Prop :=
  s.isBound d = false ∧ e.log = .opened d .fail :: s.env.log

/-- Everything binding a device can do: its open fails, or the device is bound (R291). -/
theorem ensure_outcome (d : DeviceId) (s : State) : ∃ e : DevEnv,
    (OpenFails d s e ∧ ensure d s = (.fail, { s with env := e })) ∨
      (e.log = readyLog d s ∧ ensure d s = (.ok, { s.bind d with env := e })) := by
  cases hb : s.isBound d with
  | true =>
    refine ⟨s.env, .inr ⟨(if_pos hb).symm, ?_⟩⟩
    rw [ensure_bound hb, State.bind_of_isBound hb]
  | false =>
    obtain ⟨r, e, hlog, he⟩ := ensure_opens hb
    refine ⟨e, ?_⟩
    cases r with
    | ok => exact .inr ⟨hlog.trans (if_neg (by simp [hb])).symm, he⟩
    | fail => exact .inl ⟨⟨hb, hlog⟩, he⟩

/-! Reads and writes of a device, for every answer -/

/-- What a device read comes to by the answer to its get (R293, R378). -/
def ReadResult.ofReply : GetReply → ReadResult
  | .byte c => .byte c
  | .eof => .fault .ioError
  | .error => .fault .ioError
  | .pending => .pending

/-- What a device write comes to by the answer to its put (R294, R378). -/
def putFault : Ack → Option Fault
  | .ok => none
  | .fail => some .ioError

theorem readBound_ofReply (d : DeviceId) (s : State) :
    readBound d s = (.ofReply (askGet d s).1, { s with env := (askGet d s).2.env }) := by
  rw [readBound_eq, readBound_result]
  cases (askGet d s).1 <;> rfl

theorem devRead_of_ensure_fail {d : DeviceId} {s t : State} (h : ensure d s = (.fail, t)) :
    devRead d s = (.fault .deviceUnavailable, t) := by
  rw [devRead, h]

theorem devRead_of_ensure_ok {d : DeviceId} {s t : State} (h : ensure d s = (.ok, t)) :
    devRead d s = (.ofReply (askGet d t).1, { t with env := (askGet d t).2.env }) := by
  rw [devRead, h]
  exact readBound_ofReply d t

theorem devWrite_of_ensure_fail {d : DeviceId} {s t : State} (h : ensure d s = (.fail, t))
    (c : Byte) : devWrite d c s = (some .deviceUnavailable, t) := by
  rw [devWrite, h]

theorem devWrite_of_ensure_ok {d : DeviceId} {s t : State} (h : ensure d s = (.ok, t)) (c : Byte) :
    devWrite d c s = (putFault (askPut d c t).1, { t with env := (askPut d c t).2.env }) := by
  rw [devWrite, h, ← askPut_state]
  cases hp : askPut d c t with
  | mk r u => cases r <;> simp only [hp] <;> rfl

/-- Everything a device read can do: the open fails, or the device is bound and one get answered
(R293). -/
theorem devRead_outcome (d : DeviceId) (s : State) : ∃ e : DevEnv,
    (OpenFails d s e ∧ devRead d s = (.fault .deviceUnavailable, { s with env := e })) ∨
      ∃ r, e.log = .got d r :: readyLog d s ∧
        devRead d s = (.ofReply r, { s.bind d with env := e }) := by
  obtain ⟨e, ⟨hfail, h⟩ | ⟨hlog, h⟩⟩ := ensure_outcome d s
  · exact ⟨e, .inl ⟨hfail, devRead_of_ensure_fail h⟩⟩
  · have hread := devRead_of_ensure_ok h
    exact ⟨_, .inr ⟨_, (askGet_log d _).trans (congrArg _ hlog), hread⟩⟩

/-- Everything a device write can do: the open fails, or the device is bound and one put answered
(R294). -/
theorem devWrite_outcome (d : DeviceId) (c : Byte) (s : State) : ∃ e : DevEnv,
    (OpenFails d s e ∧ devWrite d c s = (some .deviceUnavailable, { s with env := e })) ∨
      ∃ r, e.log = .put d c r :: readyLog d s ∧
        devWrite d c s = (putFault r, { s.bind d with env := e }) := by
  obtain ⟨e, ⟨hfail, h⟩ | ⟨hlog, h⟩⟩ := ensure_outcome d s
  · exact ⟨e, .inl ⟨hfail, devWrite_of_ensure_fail h c⟩⟩
  · have hwrite := devWrite_of_ensure_ok h c
    exact ⟨_, .inr ⟨_, (askPut_log d c _).trans (congrArg _ hlog), hwrite⟩⟩

/-! An answer laid down for a bound device -/

section
variable {d : DeviceId} {s : State} (hb : s.isBound d = true)
include hb

theorem devRead_laid {c : Byte} {rest : List (DeviceId × GetReply)}
    (hgets : s.env.gets = (d, .byte c) :: rest) :
    devRead d s = (.byte c, { s with env := { s.env with
      gets := rest
      log := .got d (.byte c) :: s.env.log } }) := by
  rw [devRead_of_ensure_ok (ensure_bound hb), askGet, hgets, takeReply_head]
  rfl

theorem devWrite_laid {c : Byte} {rest : List (DeviceId × Ack)}
    (hputs : s.env.puts = (d, .ok) :: rest) :
    devWrite d c s = (none, { s with env := { s.env with
      puts := rest
      log := .put d c .ok :: s.env.log } }) := by
  rw [devWrite_of_ensure_ok (ensure_bound hb), askPut, hputs, takeReply_head]
  rfl

end

/-! What a device has received -/

theorem sentTo_readyLog (x d : DeviceId) (s : State) :
    sentTo x (readyLog d s) = sentTo x s.env.log := by
  unfold readyLog
  split <;> rfl

theorem sentTo_put_ok (d : DeviceId) (c : Byte) (log : List DevEvent) :
    sentTo d (.put d c .ok :: log) = sentTo d log ++ [c] := by
  rw [sentTo, if_pos rfl]

theorem sentTo_put_of_ne {x d : DeviceId} (h : x ≠ d) (c : Byte) (r : Ack) (log : List DevEvent) :
    sentTo x (.put d c r :: log) = sentTo x log := by
  cases r with
  | ok => rw [sentTo, if_neg h.symm]
  | fail => rfl

/-! TD, RD and WD -/

section
variable (m : MemOperand) (s : State)

theorem exec_td : exec (.td m) s = .next (withDevice testDevice m s) := rfl
theorem exec_rd : exec (.rd m) s = .next (withDevice readDevice m s) := rfl
theorem exec_wd : exec (.wd m) s = .next (withDevice writeDevice m s) := rfl

end

section
variable {s : State} {m : MemOperand}

/-- A fault of the operand precedes every request (R295). -/
theorem withDevice_error {k : Fault} (hk : operandWord s m = .error k)
    (f : DeviceId → State → State) : withDevice f m s = s.raise k := by
  simp only [withDevice, operandDevice_eq, hk]

theorem withDevice_ok {v : Word} (hv : operandWord s m = .ok v) (f : DeviceId → State → State) :
    withDevice f m s = f (BitVec.ofNat 8 v.toNat) s := by
  simp only [withDevice, operandDevice_eq, hv]

end

theorem lowByte_eq (w : Word) : lowByte w = BitVec.ofNat 8 w.toNat :=
  BitVec.eq_of_toNat_eq ((lowByte_toNat w).trans (BitVec.toNat_ofNat w.toNat 8).symm)

section
variable {d : DeviceId} {s t : State}

theorem testDevice_of_ensure {r : Ack} (h : ensure d s = (r, t)) :
    testDevice d s = { t with SW := if r = .ok then 0x00 else 0x40 } := by
  rw [testDevice, h]
  cases r <;> rfl

theorem writeDevice_of_done (h : devWrite d (lowByte s.A) s = (none, t)) : writeDevice d s = t := by
  rw [writeDevice, h]

theorem writeDevice_of_fault {k : Fault} (h : devWrite d (lowByte s.A) s = (some k, t)) :
    writeDevice d s = t.raise k := by
  rw [writeDevice, h]

end

/-- The end of an RD changes no bound bit and asks nothing more. -/
theorem finishRead_bound_env (d : DeviceId) (r : ReadResult) (t : State) :
    (finishRead d (r, t)).bound = t.bound ∧ (finishRead d (r, t)).env = t.env := by
  cases r <;> exact ⟨rfl, rfl⟩

/-- Ending an RD where none was held is writing A (R297). -/
theorem finishRead_byte {s : State} (hs : s.held = none) (d : DeviceId) (c : Byte) (e : DevEnv) :
    finishRead d (.byte c, { s with env := e }) = { s with A := withLowByte s.A c, env := e } :=
  State.freed_of_free (s := { s with A := withLowByte s.A c, env := e }) hs

/-- Settles O46: TD does no more than `ensure`, whose answer is the code. -/
theorem tdReportsReadiness : Obligations.TdReportsReadiness := by
  intro m s
  rw [exec_td]
  refine ⟨fun v hv => ⟨fun hb => ?bound, fun hb => ?unbound⟩, fun k hk => ?fault⟩
  case bound =>
    rw [withDevice_ok hv, testDevice_of_ensure (ensure_bound hb)]
    rfl
  case unbound =>
    obtain ⟨r, e, hlog, he⟩ := ensure_opens hb
    refine ⟨r, e, hlog, ?_⟩
    rw [withDevice_ok hv, testDevice_of_ensure he, BitVec.toNat_ofNat]
  case fault =>
    rw [withDevice_error hk]
    rfl

/-- Settles O48: the operand faults, the open fails, or the get is answered. -/
theorem rdByTheAnswer : Obligations.RdByTheAnswer := by
  intro m s
  rw [exec_rd]
  refine ⟨fun v hv => ?device, fun k hk => by rw [withDevice_error hk]; rfl⟩
  rw [withDevice_ok hv]
  generalize BitVec.ofNat 8 v.toNat = d
  refine ⟨_, rfl, ?_⟩
  obtain ⟨e, ⟨⟨hb, hlog⟩, h⟩ | ⟨r, hlog, h⟩⟩ := devRead_outcome d s <;> rw [readDevice, h]
  · exact ⟨fun _ _ => rfl, .inl ⟨hb, hlog, rfl⟩⟩
  · obtain ⟨hbound, henv⟩ := finishRead_bound_env d (.ofReply r) { s.bind d with env := e }
    simp only [State.isBound, hbound, henv]
    refine ⟨fun x hx => s.isBound_bind_of_ne hx, .inr ⟨r, hlog, s.isBound_bind_self d, ?_⟩⟩
    cases r with
    | byte c => exact ⟨_, withLowByte_toNat s.A c, rfl⟩
    | eof | error | pending => rfl

/-- Settles O50: the operand faults, the open fails, or the put is answered. -/
theorem wdByTheAnswer : Obligations.WdByTheAnswer := by
  intro m s
  rw [exec_wd]
  refine ⟨fun v hv => ?device, fun k hk => by rw [withDevice_error hk]; rfl⟩
  rw [withDevice_ok hv, ← lowByte_eq s.A]
  generalize BitVec.ofNat 8 v.toNat = d
  refine ⟨_, rfl, ?_⟩
  obtain ⟨e, ⟨⟨hb, hlog⟩, h⟩ | ⟨r, hlog, h⟩⟩ := devWrite_outcome d (lowByte s.A) s
  · rw [writeDevice_of_fault h]
    have hsent : ∀ x, sentTo x e.log = sentTo x s.env.log := fun x => by rw [hlog, sentTo]
    exact ⟨fun x _ => ⟨rfl, hsent x⟩, .inl ⟨hb, hlog, rfl⟩⟩
  · have hself := s.isBound_bind_self d
    have hother : ∀ x, x ≠ d →
        (s.bind d).isBound x = s.isBound x ∧ sentTo x e.log = sentTo x s.env.log := fun x hx =>
      ⟨s.isBound_bind_of_ne hx, by rw [hlog, sentTo_put_of_ne hx, sentTo_readyLog]⟩
    cases r with
    | ok =>
      rw [writeDevice_of_done h]
      refine ⟨hother, .inr ⟨.ok, hself, hlog, rfl, ?_⟩⟩
      show sentTo d e.log = _
      rw [hlog, sentTo_put_ok, sentTo_readyLog]
    | fail =>
      rw [writeDevice_of_fault h]
      exact ⟨hother, .inr ⟨.fail, hself, hlog, rfl,
        (congrArg (sentTo d) hlog).trans (sentTo_readyLog d d s)⟩⟩

/-- Settles O47: the read is `devRead_laid`, and A's new value `withLowByte` of the old. -/
theorem rdPutsTheByteIntoA : Obligations.RdPutsTheByteIntoA := by
  intro m s v c rest hv hheld hb hgets
  refine ⟨withLowByte s.A c, withLowByte_toNat s.A c, ?_⟩
  rw [exec_rd, withDevice_ok hv, readDevice, devRead_laid hb hgets]
  exact congrArg Host.Outcome.next (finishRead_byte hheld ..)

/-- Settles O49: the write is `devWrite_laid`. -/
theorem wdSendsTheLowByte : Obligations.WdSendsTheLowByte := by
  intro m s v rest hv hb hputs
  refine ⟨_, ?_, rfl, sentTo_put_ok ..⟩
  rw [exec_wd, withDevice_ok hv, writeDevice_of_done (devWrite_laid hb hputs), lowByte_eq]

/-! The host's device operations -/

/-- Ending a read where none is in progress leaves no more than a request to the environment. -/
theorem freed_env {s : State} (hs : s.held = none) (e : DevEnv) :
    { s with held := none, env := e } = { s with env := e } :=
  State.freed_of_free (s := { s with env := e }) hs

/-- A failed host read puts the bound bits back and ends (R396; log 2, log 15). -/
theorem finishHostRead_fault {s u : State} (hu : Requested true s u) (d : DeviceId) (k : Fault) :
    finishHostRead d s.bound (.fault k, u) = (.failed k, { s with held := none, env := u.env }) := by
  rw [hu.frame]
  rfl

/-- A host read without an answer has not bound its device yet (R293; log 15). -/
theorem finishHostRead_pending {s u : State} (hu : Requested true s u) (d : DeviceId) :
    finishHostRead d s.bound (.pending, u) =
      (.pending, { s with held := some (.host d), env := u.env }) := by
  rw [hu.frame]
  rfl

/-- A host read that returns a byte leaves its device bound (R300). -/
theorem finishHostRead_byte {d : DeviceId} {s : State} (hb : s.isBound d = true)
    (hs : s.held = none) (before : BitVec 256) (c : Byte) (e : DevEnv) :
    finishHostRead d before (.byte c, { s with env := e }) = (.byte c, { s with env := e }) := by
  show (HostReply.byte c, { s.bind d with held := none, env := e }) = _
  rw [State.bind_of_isBound hb]
  exact congrArg (Prod.mk (HostReply.byte c)) (freed_env hs e)

/-- Requests with no read in progress, the bound bits put back, have changed the environment alone
(R396). -/
theorem Requested.restored {s u : State} (hu : Requested true s u) (hs : s.held = none) :
    { u with bound := s.bound } = { s with env := u.env } := by
  have hheld := hu.held hs
  rw [hu.frame]
  exact congrArg (fun w => { s with held := w, env := u.env }) (hheld.trans hs.symm)

theorem devWrite_fault_restored {d : DeviceId} {c : Byte} {s t : State} {k : Fault}
    (hs : s.held = none) (h : devWrite d c s = (some k, t)) :
    { t with bound := s.bound } = { s with env := t.env } := by
  have hu := devWrite_requested d c s
  rw [h] at hu
  exact hu.restored hs

section
variable {id : Int}

theorem hostTest_error (h : ¬ (0 ≤ id ∧ id ≤ 255)) (s : State) :
    hostTest id s = (.failed .outOfRange, s) := by
  rw [hostTest, hostNat_error h]

theorem hostRead_error (h : ¬ (0 ≤ id ∧ id ≤ 255)) (s : State) :
    hostRead id s = (.failed .outOfRange, s) := by
  rw [hostRead, hostNat_error h]

theorem hostWrite_error {v : Int} (h : ¬ (0 ≤ id ∧ id ≤ 255) ∨ ¬ (0 ≤ v ∧ v ≤ 255)) (s : State) :
    hostWrite id v s = (.failed .outOfRange, s) := by
  by_cases hid : 0 ≤ id ∧ id ≤ 255
  · rw [hostWrite, hostNat_ok hid, hostNat_error (h.resolve_left (not_not_intro hid))]
  · rw [hostWrite, hostNat_error hid]

end

/-- The integer of a byte or of a device is in the port's range. -/
theorem hostNat_byte (c : BitVec 8) : hostNat 255 c.toNat = .ok c.toNat :=
  hostNat_ok (by omega)

theorem hostRead_device (d : DeviceId) (s : State) :
    hostRead d.toNat s = finishHostRead d s.bound (devRead d s) := by
  simp only [hostRead, hostNat_byte, BitVec.ofNat_toNat, BitVec.setWidth_eq]

section
variable {d : DeviceId} {s t : State}

theorem hostTest_of_ensure {r : Ack} (h : ensure d s = (r, t)) :
    hostTest d.toNat s = (.flag (decide (r = .ok)), t) := by
  simp only [hostTest, hostNat_byte, BitVec.ofNat_toNat, BitVec.setWidth_eq, h]
  cases r <;> rfl

theorem hostWrite_of_done {c : Byte} (h : devWrite d c s = (none, t)) :
    hostWrite d.toNat c.toNat s = (.ok, t) := by
  simp only [hostWrite, hostNat_byte, BitVec.ofNat_toNat, BitVec.setWidth_eq, h]

theorem hostWrite_of_fault (hs : s.held = none) {c : Byte} {k : Fault}
    (h : devWrite d c s = (some k, t)) :
    hostWrite d.toNat c.toNat s = (.failed k, { s with env := t.env }) := by
  simp only [hostWrite, hostNat_byte, BitVec.ofNat_toNat, BitVec.setWidth_eq, h,
    devWrite_fault_restored hs h]

end

section
variable {s : State} (hs : s.held = none)
include hs

theorem hostPerform_test (id : Int) : hostPerform (.test id) s = hostTest id s :=
  hostPerform_free hs _

theorem hostPerform_read (id : Int) : hostPerform (.read id) s = hostRead id s :=
  hostPerform_free hs _

theorem hostPerform_write (id v : Int) : hostPerform (.write id v) s = hostWrite id v s :=
  hostPerform_free hs _

end

/-- Settles O57: the outcomes that TD, RD and WD have, with the bound bits put back where a read or a
write fails (R396; log 15). -/
theorem hostDeviceOperations : Obligations.HostDeviceOperations := by
  intro s hs
  simp only [hostPerform_test hs, hostPerform_read hs, hostPerform_write hs]
  refine ⟨fun id v hid => ⟨hostTest_error hid s, hostRead_error hid s, hostWrite_error (.inl hid) s⟩,
    fun id v hv => hostWrite_error (.inr hv) s, fun d => ⟨fun hb => ?testBound, fun hb => ?testUnbound,
      ?read, fun c => ?write, fun hb => ⟨fun c rest hgets => ?readLaid, fun c rest hputs => ?writeLaid⟩⟩⟩
  case testBound => exact hostTest_of_ensure (ensure_bound hb)
  case testUnbound =>
    obtain ⟨r, e, hlog, he⟩ := ensure_opens hb
    exact ⟨r, e, hlog, hostTest_of_ensure he⟩
  case read =>
    have hu := devRead_requested d s
    rw [hostRead_device]
    obtain ⟨e, ⟨⟨hb, hlog⟩, h⟩ | ⟨r, hlog, h⟩⟩ := devRead_outcome d s <;> rw [h] at hu ⊢
    · rw [finishHostRead_fault hu]
      exact ⟨_, _, rfl, fun _ _ => rfl, .inl ⟨hb, hlog, rfl, freed_env hs e⟩⟩
    · cases r with
      | byte c =>
        have hself := s.isBound_bind_self d
        refine ⟨_, _, finishHostRead_byte hself hs s.bound c e, fun x hx => s.isBound_bind_of_ne hx, ?_⟩
        exact .inr ⟨.byte c, hlog, rfl, hself, rfl⟩
      | eof | error =>
        refine ⟨_, _, finishHostRead_fault hu d .ioError, fun _ _ => rfl, ?_⟩
        exact .inr ⟨_, hlog, rfl, freed_env hs e⟩
      | pending =>
        refine ⟨_, _, finishHostRead_pending hu d, fun _ _ => rfl, ?_⟩
        exact .inr ⟨.pending, hlog, rfl, rfl⟩
  case write =>
    obtain ⟨e, ⟨⟨hb, hlog⟩, h⟩ | ⟨r, hlog, h⟩⟩ := devWrite_outcome d c s
    · exact ⟨_, _, hostWrite_of_fault hs h, rfl, fun _ _ => rfl, .inl ⟨hb, hb, hlog, rfl⟩⟩
    · cases r with
      | ok =>
        refine ⟨_, _, hostWrite_of_done h, rfl, fun x hx => s.isBound_bind_of_ne hx, ?_⟩
        exact .inr ⟨.ok, hlog, rfl, s.isBound_bind_self d⟩
      | fail =>
        refine ⟨_, _, hostWrite_of_fault hs h, rfl, fun _ _ => rfl, ?_⟩
        exact .inr ⟨.fail, hlog, rfl, rfl⟩
  case readLaid =>
    rw [hostRead_device, devRead_laid hb hgets]
    exact finishHostRead_byte hb hs s.bound c _
  case writeLaid => exact hostWrite_of_done (devWrite_laid hb hputs)

/-! A failed host operation -/

/-- What a failed operation may leave (R396): the environment, for a device read or write, and the end of
a host read in progress. -/
structure FailureLeaves (op : HostOp) (s t : State) : Prop where
  frame : t = { s with held := none, env := t.env }
  alone : (∀ id, op ≠ .read id) → (∀ id v, op ≠ .write id v) → t = s

section
variable {op : HostOp} {s : State} {k : Fault}

theorem FailureLeaves.unchanged {t : State} (hs : s.held = none) (ht : t = s) :
    FailureLeaves op s t where
  frame := by rw [ht]; exact (State.freed_of_free hs).symm
  alone _ _ := ht

theorem FailureLeaves.read (id : Int) (e : DevEnv) :
    FailureLeaves (.read id) s { s with held := none, env := e } :=
  ⟨rfl, fun h _ => absurd rfl (h id)⟩

theorem FailureLeaves.write (hs : s.held = none) (id v : Int) (e : DevEnv) :
    FailureLeaves (.write id v) s { s with env := e } :=
  ⟨(freed_env hs e).symm, fun _ h => absurd rfl (h id v)⟩

theorem written_failed {r : Except Fault State} (h : (written s r).1 = .failed k) :
    (written s r).2 = s := by
  cases r with
  | ok t => cases h
  | error k' => rfl

/-- A device test fails only by its id (R292). -/
theorem hostTest_failed {id : Int} (h : (hostTest id s).1 = .failed k) : (hostTest id s).2 = s := by
  unfold hostTest at h ⊢
  cases hid : hostNat 255 id with
  | error k' => rfl
  | ok n =>
    simp only [hid] at h
    cases he : ensure (BitVec.ofNat 8 n) s with
    | mk r t => rw [he] at h; cases r <;> cases h

theorem finishHostRead_failed {id : Int} {d : DeviceId} {p : ReadResult × State}
    (hp : Requested true s p.2) (h : (finishHostRead d s.bound p).1 = .failed k) :
    FailureLeaves (.read id) s (finishHostRead d s.bound p).2 := by
  obtain ⟨r, u⟩ := p
  cases r with
  | fault k' => rw [finishHostRead_fault hp]; exact .read id u.env
  | byte c => cases h
  | pending => cases h

theorem hostRead_failed (hs : s.held = none) {id : Int} (h : (hostRead id s).1 = .failed k) :
    FailureLeaves (.read id) s (hostRead id s).2 := by
  unfold hostRead at h ⊢
  cases hid : hostNat 255 id with
  | error k' => exact .unchanged hs rfl
  | ok n =>
    simp only [hid] at h
    exact finishHostRead_failed (devRead_requested _ s) h

theorem hostWrite_failed (hs : s.held = none) {id v : Int} (h : (hostWrite id v s).1 = .failed k) :
    FailureLeaves (.write id v) s (hostWrite id v s).2 := by
  unfold hostWrite at h ⊢
  cases hid : hostNat 255 id with
  | error k' => exact .unchanged hs rfl
  | ok n =>
    cases hv : hostNat 0xFF v with
    | error k' => exact .unchanged hs rfl
    | ok b =>
      simp only [hid, hv] at h ⊢
      cases hw : devWrite (BitVec.ofNat 8 n) (BitVec.ofNat 8 b) s with
      | mk r t =>
        rw [hw] at h
        cases r with
        | none => cases h
        | some k' =>
          show FailureLeaves _ s { t with bound := s.bound }
          rw [devWrite_fault_restored hs hw]
          exact .write hs id v t.env

/-- With no read in progress, a failed accessor or device test leaves the state as it was, and a failed
read or write of a device restores the bound bits. -/
theorem hostServe_failed (hs : s.held = none) (h : (hostServe op s).1 = .failed k)
    (hstep : op ≠ .step) (hload : ∀ text, op ≠ .load text) :
    FailureLeaves op s (hostServe op s).2 := by
  cases op with
  | step => exact absurd rfl hstep
  | load text => exact absurd rfl (hload text)
  | reset => cases h
  | halted | get _ | readByte _ | readWord _ | dump _ _ => exact .unchanged hs rfl
  | set _ _ | writeByte _ _ | writeWord _ _ => exact .unchanged hs (written_failed h)
  | test id => exact .unchanged hs (hostTest_failed h)
  | read id => exact hostRead_failed hs h
  | write id v => exact hostWrite_failed hs h

/-- Where a read is in progress only a host read can fail: the one that holds the machine (R395). -/
theorem hostPerform_failed (h : (hostPerform op s).1 = .failed k) (hstep : op ≠ .step)
    (hload : ∀ text, op ≠ .load text) : FailureLeaves op s (hostPerform op s).2 := by
  rcases s.held_cases with hheld | ⟨d, hheld⟩ | ⟨d, hheld⟩
  · rw [hostPerform_free hheld] at h ⊢
    exact hostServe_failed hheld h hstep hload
  · rw [hostPerform_step_held hheld, if_neg hstep] at h
    cases h
  · rw [hostPerform_host_held hheld] at h ⊢
    split at h
    case isTrue hop =>
      subst hop
      rw [if_pos rfl]
      exact finishHostRead_failed (readBound_requested d s) h
    case isFalse => cases h

end

/-- Settles O55: with no read in progress by the operation served, else by the one that holds it. -/
theorem failedHostOperationChangesNothing : Obligations.FailedHostOperationChangesNothing := by
  intro op s k h hstep hload
  have hleft := hostPerform_failed h hstep hload
  exact ⟨hleft.frame, hleft.alone⟩

end Sys2Proof.Machine
end

section
/-! PROOFS. Register-register instructions (spec/45_register_ops.md). The two shared shapes are said once
for each thing that R311 lets happen: a field that names no register (`combine_invalid_r1`,
`combine_invalid_r2`, `update_invalid`), a result that faults (`combine_error`), and a result that is
written through `State.set` (`combine_ok`, `update_reg`), which `State.commit_set` evaluates. -/

namespace Sys2Proof.Machine

/-! The meanings -/

section
variable (r1 r2 : RegField) (s : State)

theorem exec_addr : exec (.addr r1 r2) s = combine (fun d v => .ok (d + v)) r1 r2 s := rfl
theorem exec_subr : exec (.subr r1 r2) s = combine (fun d v => .ok (d - v)) r1 r2 s := rfl
theorem exec_mulr : exec (.mulr r1 r2) s = combine (fun d v => .ok (d * v)) r1 r2 s := rfl
theorem exec_divr : exec (.divr r1 r2) s = combine divideWords r1 r2 s := rfl
theorem exec_rmo : exec (.rmo r1 r2) s = combine (fun _ v => .ok v) r1 r2 s := rfl
theorem exec_compr : exec (.compr r1 r2) s = execCompr r1 r2 s := rfl

variable (c : BitVec 4)

theorem exec_shiftl :
    exec (.shiftl r1 c) s = update (fun v => rotateLeft v (shiftCount c)) r1 s := rfl
theorem exec_shiftr :
    exec (.shiftr r1 c) s = update (fun v => shiftRight v (shiftCount c)) r1 s := rfl
theorem exec_clear : exec (.clear r1 c) s = update (fun _ => 0) r1 s := rfl
theorem exec_tixr : exec (.tixr r1 c) s = execTixr r1 s := rfl

end

/-! The register write of an instruction -/

theorem legalCode_eq_false_iff (v : Word) :
    legalCode v = false ↔ v ≠ 0x00 ∧ v ≠ 0x40 ∧ v ≠ 0x80 := by
  simp only [legalCode, Bool.or_eq_false_iff, beq_eq_false_iff_ne, and_assoc]
  rfl

/-- A result that SW may not hold is a fault in place of the write (R40, R371). -/
theorem State.commit_set (s : State) (r : Reg) (v : Word) :
    s.commit (s.set r v) =
      if r = .SW ∧ v ≠ 0x00 ∧ v ≠ 0x40 ∧ v ≠ 0x80 then s.raise .outOfRange else s.put r v := by
  simp only [State.set, legalCode_eq_false_iff]
  split <;> rfl

theorem State.get_put (s : State) (r q : Reg) (v : Word) :
    (s.put r v).get q = if q = r then v else s.get q := by
  split
  case isTrue h => rw [h, State.put_get]
  case isFalse h => exact State.put_get_of_ne s v h

/-! The shared shapes -/

section
variable {s : State} {f : Word → Word → Except Fault Word} {a d : Reg}

theorem combine_ok {v : Word} (hv : f (s.get d) (s.get a) = .ok v) :
    combine f (.reg a) (.reg d) s = .next (s.commit (s.set d v)) := by
  simp only [combine, checkField, hv, except_bind_ok]

/-- The result is computed before the destination is checked (R311). -/
theorem combine_error {k : Fault} (hk : f (s.get d) (s.get a) = .error k) :
    combine f (.reg a) (.reg d) s = .next (s.raise k) := by
  simp only [combine, checkField, hk, except_bind_ok, except_bind_error, State.commit_error]

end

section
variable (s : State) (id : BitVec 4)

theorem combine_invalid_r1 (f : Word → Word → Except Fault Word) (r2 : RegField) :
    combine f (.invalid id) r2 s = .next (s.raise .invalidRegister) := rfl

theorem combine_invalid_r2 (f : Word → Word → Except Fault Word) (a : Reg) :
    combine f (.reg a) (.invalid id) s = .next (s.raise .invalidRegister) := rfl

theorem update_reg (f : Word → Word) (r : Reg) :
    update f (.reg r) s = .next (s.commit (s.set r (f (s.get r)))) := rfl

theorem update_invalid (f : Word → Word) :
    update f (.invalid id) s = .next (s.raise .invalidRegister) := rfl

theorem execCompr_reg (a b : Reg) :
    execCompr (.reg a) (.reg b) s = .next { s with SW := compareWords (s.get a) (s.get b) } := rfl

theorem execCompr_invalid_r1 (f : RegField) :
    execCompr (.invalid id) f s = .next (s.raise .invalidRegister) := rfl

theorem execCompr_invalid_r2 (a : Reg) :
    execCompr (.reg a) (.invalid id) s = .next (s.raise .invalidRegister) := rfl

/-- The register is read after X is incremented (R324), so TIXR X compares the new X with itself. -/
theorem execTixr_reg (a : Reg) :
    execTixr (.reg a) s = .next { s with
      X := s.X + 1
      SW := compareWords (s.X + 1) (if a = .X then s.X + 1 else s.get a) } := by
  rw [← State.get_put]
  rfl

theorem execTixr_invalid : execTixr (.invalid id) s = .next (s.raise .invalidRegister) := rfl

end

/-! Words as numbers -/

/-- A difference of words is the word of their numbers' difference (R314). -/
theorem sub_eq_ofInt (v w : Word) : v - w = BitVec.ofInt 24 ((v.toNat : Int) - w.toNat) := by
  apply BitVec.eq_of_toNat_eq
  rw [BitVec.toNat_ofInt]
  have := sub_toNat_emod v w
  omega

/-- A product of words is the word of their numbers' product (R315). -/
theorem mul_eq_ofNat (v w : Word) : v * w = BitVec.ofNat 24 (v.toNat * w.toNat) := by
  rw [BitVec.ofNat_mul, BitVec.ofNat_toNat, BitVec.ofNat_toNat, BitVec.setWidth_eq,
    BitVec.setWidth_eq]

/-! Shifts -/

theorem shiftCount_lt (c : BitVec 4) : shiftCount c < 24 := by
  have := c.isLt
  unfold shiftCount
  omega

/-- By less than the word's width, R319's shift is the rotation of bit vectors. -/
theorem rotateLeft_eq (v : Word) {n : Nat} (hn : n < 24) : rotateLeft v n = v.rotateLeft n := by
  rw [BitVec.rotateLeft_def, Nat.mod_eq_of_lt hn, rotateLeft]

/-- Bits shifted out at bit 23 re-enter at bit 0 (R319). -/
theorem rotateLeft_getLsbD (v : Word) {n i : Nat} (hn : n < 24) (hi : i < 24) :
    (rotateLeft v n).getLsbD ((i + n) % 24) = v.getLsbD i := by
  rw [rotateLeft_eq v hn, BitVec.getLsbD_rotateLeft, Nat.mod_eq_of_lt hn]
  rcases Nat.lt_or_ge (i + n) 24 with hstays | hwraps
  · have hge : ¬ i + n < n := by omega
    simp [Nat.mod_eq_of_lt hstays, hge, hstays]
  · have hmod : (i + n) % 24 = i + n - 24 := by omega
    have hlow : i + n - 24 < n := by omega
    have hback : 24 - n + (i + n - 24) = i := by omega
    simp [hmod, hlow, hback]

/-- Filling with the sign bit divides the signed reading, rounding down (R320). -/
theorem shiftRight_toInt (v : Word) (n : Nat) : (shiftRight v n).toInt = v.toInt / 2 ^ n := by
  rw [shiftRight, BitVec.toInt_sshiftRight, Int.shiftRight_eq_div_pow, Nat.cast_pow,
    Nat.cast_ofNat]

/-! The statements -/

/-- Settles O40, by whether the divisor is zero and whether the quotient fits. -/
theorem divrDividesR2ByR1 : Obligations.DivrDividesR2ByR1 := by
  intro s a d
  simp only [exec_divr]
  refine ⟨fun hzero => ?zero, fun hne => ?quotient, fun id f => ?invalid⟩
  case zero => exact combine_error (by rw [hzero, divideWords_zero])
  case quotient =>
    refine ⟨(s.get d).sdiv (s.get a), ?_, sdiv_toInt_of_fits, ?_⟩
    · rintro ⟨hd, ha⟩
      rw [hd, ha, sdiv_least_by_neg_one]
    · rw [combine_ok (divideWords_of_ne_zero _ hne), State.commit_set]
      rfl
  case invalid =>
    simp only [List.forall_mem_cons, exec_divr, combine_invalid_r1, combine_invalid_r2]
    exact ⟨rfl, rfl, List.forall_mem_nil _⟩

/-- Settles O41: one is the rotation of bit vectors, the other their arithmetic shift. -/
theorem shiftsRotateLeftAndFillRight : Obligations.ShiftsRotateLeftAndFillRight := by
  intro s r count n write
  have hwrite (v : Word) : s.commit (s.set r v) = write v := s.commit_set r v
  refine ⟨⟨rotateLeft (s.get r) n, ?_, ?_⟩, ⟨shiftRight (s.get r) n, ?_, ?_⟩, fun id => ?invalid⟩
  · exact fun i hi => rotateLeft_getLsbD _ (shiftCount_lt count) hi
  · rw [exec_shiftl, update_reg, hwrite]
    rfl
  · exact shiftRight_toInt _ n
  · rw [exec_shiftr, update_reg, hwrite]
    rfl
  case invalid =>
    simp only [List.forall_mem_cons, exec_shiftl, exec_shiftr, update_invalid]
    exact ⟨rfl, rfl, List.forall_mem_nil _⟩

/-- Settles O39: the three operations on words are those on numbers modulo 2^24. -/
theorem registerArithmeticWritesR2 : Obligations.RegisterArithmeticWritesR2 := by
  intro s a d id f write
  have hwrite (g : Word → Word → Word) : combine (fun v w => .ok (g v w)) (.reg a) (.reg d) s =
      .next (write (g (s.get d) (s.get a))) :=
    (combine_ok rfl).trans (congrArg _ (s.commit_set d _))
  refine ⟨?add, ?sub, ?mul, ?rmo, ?invalid⟩
  case add => rw [exec_addr, ← BitVec.add_def]; exact hwrite (· + ·)
  case sub => rw [exec_subr, ← sub_eq_ofInt]; exact hwrite (· - ·)
  case mul => rw [exec_mulr, ← mul_eq_ofNat]; exact hwrite (· * ·)
  case rmo => rw [exec_rmo]; exact hwrite (fun _ w => w)
  case invalid =>
    simp only [List.forall_mem_cons, exec_addr, exec_subr, exec_mulr, exec_rmo, combine_invalid_r1,
      combine_invalid_r2]
    exact ⟨rfl, rfl, rfl, rfl, rfl, rfl, rfl, rfl, List.forall_mem_nil _⟩

/-- Settles O42: 0 is a code that SW may hold, so the write always succeeds. -/
theorem clearWritesZero : Obligations.ClearWritesZero := by
  intro s r id r2
  have hlegal : ¬ (r = .SW ∧ (0 : Word) ≠ 0x00 ∧ (0 : Word) ≠ 0x40 ∧ (0 : Word) ≠ 0x80) :=
    fun ⟨_, hne, _⟩ => hne rfl
  constructor
  · rw [exec_clear, update_reg, State.commit_set, if_neg hlegal]
  · rw [exec_clear, update_invalid]
    rfl

/-- Settles O43: both instructions compare by `compareWords`. -/
theorem comprAndTixrSetTheCode : Obligations.ComprAndTixrSetTheCode := by
  intro s a b id r2 f code
  have hcode (v w : Word) : compareWords v w = code v w := compareWords_eq v w
  refine ⟨?compr, ?tixr, ?invalid⟩
  case compr => rw [exec_compr, execCompr_reg, hcode]
  case tixr => rw [exec_tixr, execTixr_reg, hcode]
  case invalid =>
    simp only [List.forall_mem_cons, exec_compr, exec_tixr, execCompr_invalid_r1,
      execCompr_invalid_r2, execTixr_invalid]
    exact ⟨rfl, rfl, rfl, List.forall_mem_nil _⟩

end Sys2Proof.Machine
end

section
/-! PROOFS. Unimplemented instructions (spec/46_unimplemented.md). An instruction of these is one whose
whole meaning is the fault (`IsUnimplemented`): the fifteen are shown to be so, and what a step over the
encoding of one does is said once for all of them (`IsUnimplemented.step_raises`). -/

namespace Sys2Proof.Machine

/-! A step over an encoding -/

theorem bytesAt_one (m : Memory) (a : Nat) : bytesAt m a 1 = [m.read a] := rfl

/-- A step runs the well-formed instruction whose encoding stands in memory at PC. -/
theorem step_of_encoding {s : State} {i : Instr} (hw : i.wellFormed = true)
    (hrun : s.halted = false) (hheld : s.held = none)
    (hpc : s.PC.toNat + (encode i).length ≤ 0x100001)
    (hbytes : bytesAt s.mem s.PC.toNat (encode i).length = encode i) :
    step s = exec i (s.advance (encode i).length) := by
  have hdecode : decode (encode i) = .ok (i, []) := by
    simpa only [List.append_nil] using decodeReadsEncodedInstruction i [] hw
  exact stepRunsTheDecodedInstruction s i _ hrun hheld hpc (hbytes.symm ▸ hdecode)

/-! The fifteen instructions -/

/-- The instruction has some encoding, and its whole meaning is the fault. -/
structure IsUnimplemented (i : Instr) : Prop where
  wellFormed : i.wellFormed = true
  exec_raises (s : State) : exec i s = .next (s.raise .unimplementedOpcode)

theorem format1_isUnimplemented : ∀ p ∈ format1Table, IsUnimplemented p.2 := by
  simp only [format1Table, List.forall_mem_cons]
  refine ⟨?_, ?_, ?_, ?_, ?_, ?_, List.forall_mem_nil _⟩ <;> exact ⟨rfl, fun _ => rfl⟩

/-- The instructions of R346 to R354, with the fields given. -/
def excluded (m : MemOperand) (r1 r2 : BitVec 4) : List Instr :=
  [.svc r1 r2, .addf m, .subf m, .mulf m, .divf m, .compf m, .lps m, .sti m, .ssk m]

theorem excluded_isUnimplemented (m : MemOperand) (r1 r2 : BitVec 4) :
    ∀ i ∈ excluded m r1 r2, IsUnimplemented i := by
  simp only [excluded, List.forall_mem_cons]
  refine ⟨?_, ?_, ?_, ?_, ?_, ?_, ?_, ?_, ?_, List.forall_mem_nil _⟩ <;> exact ⟨rfl, fun _ => rfl⟩

theorem encode_of_mem_format1Table : ∀ p ∈ format1Table, encode p.2 = [p.1] := by decide

/-! A step over one of them -/

theorem IsUnimplemented.step_raises {s : State} {i : Instr} (h : IsUnimplemented i)
    (hrun : s.halted = false) (hheld : s.held = none)
    (hpc : s.PC.toNat + (encode i).length ≤ 0x100001)
    (hbytes : bytesAt s.mem s.PC.toNat (encode i).length = encode i) :
    step s = .next ((s.advance (encode i).length).raise .unimplementedOpcode) := by
  rw [step_of_encoding h.wellFormed hrun hheld hpc hbytes, h.exec_raises]

/-! The statements -/

/-- Settles O44, for each row of the Format-1 table: its opcode byte is its whole encoding. -/
theorem format1IsUnimplemented : Obligations.Format1IsUnimplemented := by
  intro s p hp
  have h : IsUnimplemented p.2 := format1_isUnimplemented p hp
  have henc : encode p.2 = [p.1] := encode_of_mem_format1Table p hp
  refine ⟨h.exec_raises s, fun hrun hheld hpc hbyte => ?_⟩
  have hstep := h.step_raises hrun hheld
  rw [henc, List.length_singleton, bytesAt_one, hbyte] at hstep
  exact hstep (Nat.succ_le_succ hpc) rfl

/-- Settles O45, for each of the excluded instructions. -/
theorem excludedOpcodesAreUnimplemented : Obligations.ExcludedOpcodesAreUnimplemented := by
  intro s m r1 r2 i hi
  have h : IsUnimplemented i := excluded_isUnimplemented m r1 r2 i hi
  exact ⟨h.exec_raises s, h.step_raises⟩

end Sys2Proof.Machine
end

section
/-! PROOFS. Register ids that name no register (spec/60_exceptions.md R372). Which fields are invalid
is read off the two facts that tie a field to its bits; the checks of the instructions are the cases of
the shared shapes, and the host's that of `hostReg_error`. -/

namespace Sys2Proof

/-! The fields that name no register (R31) -/

theorem RegField.wellFormed_invalid_iff (id : BitVec 4) :
    (RegField.invalid id).wellFormed = true ↔ id.toNat = 7 ∨ 10 ≤ id.toNat := by
  simp only [RegField.wellFormed, Bool.or_eq_true, beq_iff_eq, decide_eq_true_eq,
    ← BitVec.toNat_inj]
  rfl

/-- Only the field's own bits stand in an invalid field, and they do so exactly where that is
well-formed. -/
theorem RegField.ofBits_eq_invalid_iff (id k : BitVec 4) :
    RegField.ofBits id = .invalid k ↔ k = id ∧ (RegField.invalid id).wellFormed = true := by
  constructor
  · intro h
    have hbits : k = id := by rw [← RegField.toBits_ofBits id, h]; rfl
    have hwf : (RegField.invalid k).wellFormed = true := h ▸ RegField.wellFormed_ofBits id
    exact ⟨hbits, hbits ▸ hwf⟩
  · rintro ⟨rfl, hwf⟩
    exact RegField.ofBits_toBits hwf

/-! The ids of the host that name no register (R31) -/

theorem Reg.id_mem (r : Reg) : (r.id.toNat : Int) ∈ ([0, 1, 2, 3, 4, 5, 6, 8, 9] : List Int) := by
  cases r <;> decide

end Sys2Proof

namespace Sys2Proof.Machine

/-! The host's failures -/

section
variable {s : State} {id : Int}

theorem hostPerform_get_error (hs : s.held = none) (h : ∀ r : Reg, id ≠ r.id.toNat) :
    hostPerform (.get id) s = (.failed .invalidRegister, s) := by
  rw [hostPerform_free hs, hostServe, hostReg_error h]
  rfl

theorem hostPerform_set_error (hs : s.held = none) (h : ∀ r : Reg, id ≠ r.id.toNat) (v : Int) :
    hostPerform (.set id v) s = (.failed .invalidRegister, s) := by
  rw [hostPerform_set hs, hostSet, hostReg_error h]
  rfl

end

/-! The statement -/

/-- Settles O28: the checked fields r1 and r2 of each instruction, the invalid ids, and the host. -/
theorem invalidRegisterIds : Obligations.InvalidRegisterIds := by
  refine ⟨fun s id c r f => ?fields, fun id => ?bits, fun s id v hs hid => ?host⟩
  case fields =>
    change ∀ i ∈ _, exec i s = .next (s.raise .invalidRegister)
    simp only [List.forall_mem_cons, exec_addr, exec_subr, exec_mulr, exec_divr, exec_rmo,
      combine_invalid_r1, combine_invalid_r2, exec_compr, execCompr_invalid_r1,
      execCompr_invalid_r2, exec_shiftl, exec_shiftr, exec_clear, update_invalid, exec_tixr,
      execTixr_invalid, true_and]
    exact List.forall_mem_nil _
  case bits =>
    simp only [RegField.ofBits_eq_invalid_iff, exists_eq_left, RegField.wellFormed_invalid_iff]
  case host =>
    have hname (r : Reg) : id ≠ r.id.toNat := fun h => hid (h ▸ r.id_mem)
    exact ⟨hostPerform_get_error hs hname, hostPerform_set_error hs hname v⟩

end Sys2Proof.Machine
end

section
/-! PROOFS. Where a run without a program ends and where a program's own run does
(spec/70_reset_and_hazards.md): memory of zeros runs up to the fetch beyond the memory (R412), and a taken
self-jump changes nothing (R460). -/

namespace Sys2Proof.Machine

/-! A taken self-jump (R460) -/

/-- A taken jump's operand is that of a `jumpIf` whose condition the status word meets (R231). -/
theorem exec_of_takenJump {sw : Word} {i : Instr} {m : MemOperand} (h : takenJump sw i = some m) :
    ∃ taken : Word → Bool, taken sw = true ∧ ∀ s, exec i s = jumpIf taken m s := by
  unfold takenJump at h
  split at h
  case h_1 => cases h; exact ⟨_, rfl, exec_j m⟩
  case h_2 =>
    obtain ⟨hcode, ⟨⟩⟩ := Option.ite_none_right_eq_some.1 h
    exact ⟨(· == ccEQ), beq_iff_eq.2 hcode, exec_jeq m⟩
  case h_3 =>
    obtain ⟨hcode, ⟨⟩⟩ := Option.ite_none_right_eq_some.1 h
    exact ⟨(· == ccGT), beq_iff_eq.2 hcode, exec_jgt m⟩
  case h_4 =>
    obtain ⟨hcode, ⟨⟩⟩ := Option.ite_none_right_eq_some.1 h
    exact ⟨(· == ccLT), beq_iff_eq.2 hcode, exec_jlt m⟩
  case h_5 => cases h

/-- A taken jump sets PC to its effective address and does nothing else. -/
theorem exec_takenJump {s : State} {i : Instr} {m : MemOperand} {ea : Word}
    (hj : takenJump s.SW i = some m) (hea : effectiveAddress s m = .ok ea) :
    exec i s = .next { s with PC := ea } := by
  obtain ⟨taken, htaken, hexec⟩ := exec_of_takenJump hj
  rw [hexec, jumpIf_ok hea, if_pos htaken]

/-- What it means to be idle at a self-jump (R460 (2)). -/
theorem State.idle_elim {s : State} (h : s.idle = true) : s.halted = false ∧ s.held = none ∧
    ∃ bs t i rest m, fetchInstr s = .bytes bs t ∧ decode bs = .ok (i, rest) ∧
      takenJump s.SW i = some m ∧ effectiveAddress t m = .ok s.PC := by
  simp only [State.idle, Bool.and_eq_true, Bool.not_eq_true', Option.isNone_iff_eq_none] at h
  obtain ⟨⟨hrun, hheld⟩, hjump⟩ := h
  refine ⟨hrun, hheld, ?_⟩
  split at hjump
  · cases hjump
  next bs t hfetch =>
    split at hjump
    · cases hjump
    next i rest hdecode =>
      split at hjump
      · cases hjump
      next m htaken =>
        simp only [Bool.and_eq_true] at hjump
        obtain ⟨-, hself⟩ := hjump
        split at hself
        next ea hea =>
          obtain rfl := eq_of_beq hself
          exact ⟨bs, t, i, rest, m, hfetch, hdecode, htaken, hea⟩
        · cases hself

/-- Settles O18: the fetches move PC alone, and the jump puts it back. -/
theorem idleSelfJumpChangesNothing : Obligations.IdleSelfJumpChangesNothing := by
  intro s h
  obtain ⟨hrun, hheld, bs, t, i, rest, m, hfetch, hdecode, htaken, hea⟩ := State.idle_elim h
  obtain ⟨-, ht, -⟩ := fetchedPCNeverWraps.1 s t bs hfetch
  have hSW : t.SW = s.SW := by rw [ht]
  rw [step_running hrun hheld, hfetch, runFetched, hdecode]
  calc exec i t = .next { t with PC := s.PC } := exec_takenJump (hSW ▸ htaken) hea
    _ = .next s := by rw [ht]

/-! Memory of zeros (R412) -/

/-- The reset state with another program counter. -/
def resetAt (pc : Word) : State := { State.reset with PC := pc }

theorem bytesAt_reset (a n : Nat) : bytesAt State.reset.mem a n = List.replicate n 0 := by
  simp only [bytesAt, State.reset, Memory.read, unlistedByte, List.map_const', List.length_range]

theorem readWord_reset : readWord State.reset.mem 0 = .ok 0 := by decide

/-- One step more after steps that all answered a next state. -/
theorem run_succ_of_next {M : Host.Core} {k : Nat} {s t : M.State} (h : M.run k s = .next t) :
    M.run (k + 1) s = M.step t := by
  induction k generalizing s with
  | zero =>
    cases h
    rw [Host.Core.run]
    cases M.step t <;> rfl
  | succ k ih =>
    rw [Host.Core.run] at h ⊢
    cases hs : M.step s with
    | next u => rw [hs] at h; exact ih h
    | fault r => rw [hs] at h; cases h
    | refused r => rw [hs] at h; cases h

/-- Three zero bytes are `LDA 0`, which loads the zero word at address 0. -/
theorem step_resetAt {pc : Word} (h : pc.toNat + 3 ≤ 0x100001) :
    step (resetAt pc) = .next (resetAt (pc + 3)) := by
  have hdecode : decode (bytesAt (resetAt pc).mem pc.toNat 3) = .ok (.lda (.sic false 0), []) := by
    rw [show (resetAt pc).mem = State.reset.mem from rfl, bytesAt_reset]
    rfl
  have hoperand : operandWord (resetAt (pc + 3)) (.sic false 0) = .ok 0 := by
    have hta : targetAddress (resetAt (pc + 3)) (.sic false 0) = .ok 0 :=
      targetAddress_direct (v := 0) rfl rfl
    exact (operands_at_target hta (.inr rfl)).1.trans readWord_reset
  exact (stepRunsTheDecodedInstruction (resetAt pc) _ 3 rfl rfl h hdecode).trans
    ((exec_lda _ _).trans (loadWord_ok hoperand nofun))

/-- Two zero bytes are no instruction, and the third is beyond the memory. -/
theorem step_resetAt_top :
    step (resetAt 0x0FFFFF) = .next ((resetAt 0x100001).raise .outOfRange) := rfl

theorem run_reset {k : Nat} (hk : k ≤ 349525) :
    core.run k State.reset = .next (resetAt (BitVec.ofNat 24 (3 * k))) := by
  induction k with
  | zero => rfl
  | succ k ih =>
    have hpc : (BitVec.ofNat 24 (3 * k)).toNat = 3 * k := by
      rw [BitVec.toNat_ofNat]
      omega
    rw [run_succ_of_next (ih (by omega)), Nat.mul_succ, BitVec.ofNat_add]
    exact step_resetAt (by omega)

/-- Settles O17: the last whole instruction ends at 0xFFFFE. -/
theorem zeroMemoryRunsToTheTop : Obligations.ZeroMemoryRunsToTheTop := by
  refine ⟨fun k hk => run_reset hk, ?_⟩
  exact (run_succ_of_next (run_reset le_rfl)).trans step_resetAt_top

end Sys2Proof.Machine
end

section
/-! PROOFS. The load (spec/70_reset_and_hazards.md R447 to R449): what it does to the block, and what makes
a module no module. A record that is read has a hex character in each of its hex columns (`HexAt`), so a
line that lacks one, be it too short or holding another character, is no record. -/

namespace Sys2Proof.Machine

/-! The block after a load (R447, R448) -/

section
variable {s : State} {text : List Byte}

theorem hostPerform_load (hs : s.held = none) : hostPerform (.load text) s = hostLoad text s :=
  hostPerform_free hs _

theorem hostLoad_of_parse {image : Image} (h : parseModule text = some image) :
    hostLoad text s = (.ok, { s.resume with
      mem := writeTexts s.mem image.texts
      PC := BitVec.ofNat 24 image.entry }) := by
  rw [hostLoad, loadModule, h]
  rfl

theorem hostLoad_of_no_parse (h : parseModule text = none) :
    hostLoad text s = (.failed .loadError, s.raise .loadError) := by
  rw [hostLoad, loadModule, h]
  rfl

end

theorem writeTexts_append (m : Memory) (before later : List (Nat × List Byte)) :
    writeTexts m (before ++ later) = writeTexts (writeTexts m before) later := by
  induction before generalizing m with
  | nil => rfl
  | cons p before ih => exact ih _

/-- A byte of a T record reads as the record says unless a later record names it (R442, R447). -/
theorem writeTexts_read_text {m : Memory} (hm : m.wf) {before later : List (Nat × List Byte)}
    {p : Nat × List Byte} (hp : p.2 = [] ∨ p.1 + p.2.length ≤ maxAddress + 1) {k : Nat} {b : Byte}
    (hk : p.2[k]? = some b) (hlater : ∀ q ∈ later, p.1 + k < q.1 ∨ q.1 + q.2.length ≤ p.1 + k) :
    (writeTexts m (before ++ p :: later)).read (p.1 + k) = b := by
  obtain ⟨hlt, hb⟩ := List.getElem?_eq_some_iff.1 hk
  have hbound : p.1 + p.2.length ≤ maxAddress + 1 :=
    hp.resolve_left (List.ne_nil_of_length_pos (by omega))
  have hm' := writeTexts_wf hm before
  rw [writeTexts_append, writeTexts, writeTexts_read_other (placeBytes_wf hm' _ _) hlater,
    placeBytes_read hm', if_pos (by omega), Nat.add_sub_cancel_left, List.getD_eq_getElem?_getD, hk,
    Option.getD_some]

/-- Settles O52: the memory is that of the T records written in order. -/
theorem successfulLoad : Obligations.SuccessfulLoad := by
  intro s text image hheld hwf hparse
  refine ⟨writeTexts s.mem image.texts, ?reply, fun a ha => writeTexts_read_other hwf ha, ?written⟩
  case reply => rw [hostPerform_load hheld, hostLoad_of_parse hparse]; rfl
  case written =>
    intro before p later htexts k b hk hlater
    have hp := parseModule_bound hparse p (by simp [htexts])
    rw [htexts]
    exact writeTexts_read_text hwf hp hk hlater

/-- Settles O53: a failed load is the fault alone. -/
theorem failedLoad : Obligations.FailedLoad := by
  intro s text hheld hparse
  rw [hostPerform_load hheld, hostLoad_of_no_parse hparse]
  rfl

/-! Hex columns (R440) -/

/-- A hex character stands after the first `j` characters of a line. -/
def HexAt (l : List Byte) (j : Nat) : Prop := ∃ c, l[j]? = some c ∧ isHexChar c = true

section
variable {l : List Byte} {j : Nat}

theorem HexAt.lt_length (h : HexAt l j) : j < l.length := by
  obtain ⟨c, hc, -⟩ := h
  exact (List.getElem?_eq_some_iff.1 hc).1

theorem HexAt.isHexChar_eq {c : Byte} (h : HexAt l j) (hc : l[j]? = some c) :
    isHexChar c = true := by
  obtain ⟨c', hc', hhex⟩ := h
  rwa [Option.some.inj (hc.symm.trans hc')]

theorem isHexChar_of_mem {cs : List Byte} {acc n : Nat} (h : hexNumber acc cs = some n) :
    ∀ c ∈ cs, isHexChar c = true := by
  induction cs generalizing acc with
  | nil => exact List.forall_mem_nil _
  | cons c cs ih =>
    rw [hexNumber] at h
    cases hd : hexDigit c with
    | none => rw [hd] at h; cases h
    | some d =>
      rw [hd] at h
      refine List.forall_mem_cons.2 ⟨?_, ih h⟩
      by_contra hc
      cases hd.symm.trans (hexDigit_of_not_isHexChar (Bool.eq_false_of_not_eq_true hc))

/-- A field that is read has a hex character in each of its columns. -/
theorem hexAt_of_hexField {col width n : Nat} (h : hexField l col width = some n)
    (hlo : col - 1 ≤ j) (hhi : j < col - 1 + width) : HexAt l j := by
  obtain ⟨field, hcols, hnum⟩ := Option.bind_eq_some_iff.1 h
  obtain ⟨hlen, ⟨⟩⟩ := Option.ite_none_right_eq_some.1 hcols
  have hline : col - 1 + width ≤ l.length := by
    rw [List.length_take, List.length_drop] at hlen
    omega
  have hj : j < l.length := by omega
  refine ⟨l[j], List.getElem?_eq_getElem hj, isHexChar_of_mem hnum _ ?_⟩
  exact List.mem_iff_getElem.2 ⟨j - (col - 1), by omega, by simp [Nat.add_sub_cancel' hlo]⟩

/-- So have the hex pairs of a T record's bytes. -/
theorem hexAt_of_hexBytes {col k : Nat} {bs : List Byte} (h : hexBytes l col k = some bs)
    (hcol : 1 ≤ col) (hlo : col - 1 ≤ j) (hhi : j < col - 1 + 2 * k) : HexAt l j := by
  induction k generalizing col bs with
  | zero => omega
  | succ k ih =>
    obtain ⟨v, hv, htail⟩ := Option.bind_eq_some_iff.1 h
    obtain ⟨rest, hrest, -⟩ := Option.bind_eq_some_iff.1 htail
    by_cases hj : j < col - 1 + 2
    · exact hexAt_of_hexField hv hlo hj
    · exact ih hrest (by omega) (by omega) (by omega)

end

/-! The records, by their first character (R441 to R445) -/

section
variable {l : List Byte} {r : Record}

theorem parseRecord_of_H (h : l.head? = some 0x48) : parseRecord l = headerRecord l := by
  rw [parseRecord, h]; rfl

theorem parseRecord_of_T (h : l.head? = some 0x54) : parseRecord l = textRecord l := by
  rw [parseRecord, h]; rfl

theorem parseRecord_of_M (h : l.head? = some 0x4D) : parseRecord l = modificationRecord l := by
  rw [parseRecord, h]; rfl

theorem parseRecord_of_D (h : l.head? = some 0x44) : parseRecord l = some .inert := by
  rw [parseRecord, h]; rfl

theorem parseRecord_of_R (h : l.head? = some 0x52) : parseRecord l = some .inert := by
  rw [parseRecord, h]; rfl

theorem parseRecord_of_E (h : l.head? = some 0x45) : parseRecord l = endRecord l := by
  rw [parseRecord, h]; rfl

theorem parseRecord_of_unknown {tag : Byte} (h : l.head? = some tag)
    (htag : tag ∉ ([0x48, 0x54, 0x4D, 0x44, 0x52, 0x45] : List Byte)) : parseRecord l = none := by
  simp only [List.mem_cons, List.not_mem_nil, or_false, not_or] at htag
  obtain ⟨hH, hT, hM, hD, hR, hE⟩ := htag
  simp only [parseRecord, h, hH, hT, hM, hD, hR, hE, if_false]

theorem headerRecord_eq_some (h : headerRecord l = some r) :
    (∃ start, hexField l 8 6 = some start) ∧ (∃ size, hexField l 14 6 = some size) ∧
      r = .inert := by
  obtain ⟨start, hstart, h⟩ := Option.bind_eq_some_iff.1 h
  obtain ⟨size, hsize, ⟨⟩⟩ := Option.bind_eq_some_iff.1 h
  exact ⟨⟨start, hstart⟩, ⟨size, hsize⟩, rfl⟩

theorem textRecord_eq_some (h : textRecord l = some r) :
    ∃ addr k bytes, hexField l 2 6 = some addr ∧ hexField l 8 2 = some k ∧
      hexBytes l 10 k = some bytes ∧ (k = 0 ∨ addr + k - 1 ≤ maxAddress) ∧
      r = .text addr bytes := by
  obtain ⟨addr, haddr, h⟩ := Option.bind_eq_some_iff.1 h
  obtain ⟨k, hk, h⟩ := Option.bind_eq_some_iff.1 h
  obtain ⟨bytes, hbytes, h⟩ := Option.bind_eq_some_iff.1 h
  obtain ⟨hbound, ⟨⟩⟩ := Option.ite_none_right_eq_some.1 h
  exact ⟨addr, k, bytes, haddr, hk, hbytes, hbound, rfl⟩

theorem modificationRecord_eq_some (h : modificationRecord l = some r) :
    (∃ offset, hexField l 2 6 = some offset) ∧ (∃ length, hexField l 8 2 = some length) ∧
      r = .inert := by
  obtain ⟨offset, hoffset, h⟩ := Option.bind_eq_some_iff.1 h
  obtain ⟨length, hlength, ⟨⟩⟩ := Option.bind_eq_some_iff.1 h
  exact ⟨⟨offset, hoffset⟩, ⟨length, hlength⟩, rfl⟩

theorem endRecord_eq_some (h : endRecord l = some r) :
    ∃ start, hexField l 2 6 = some start ∧ r = .finish start := by
  obtain ⟨start, hstart, ⟨⟩⟩ := Option.bind_eq_some_iff.1 h
  exact ⟨start, hstart, rfl⟩

/-- Only an E record ends a module (R445). -/
theorem head_of_finish {start : Nat} (h : parseRecord l = some (.finish start)) :
    l.head? = some 0x45 := by
  cases hhead : l.head? with
  | none => rw [parseRecord, hhead] at h; cases h
  | some tag =>
    by_cases htag : tag ∈ ([0x48, 0x54, 0x4D, 0x44, 0x52, 0x45] : List Byte)
    · simp only [List.mem_cons, List.not_mem_nil, or_false] at htag
      rcases htag with rfl | rfl | rfl | rfl | rfl | rfl
      · obtain ⟨-, -, ⟨⟩⟩ := headerRecord_eq_some (parseRecord_of_H hhead ▸ h)
      · obtain ⟨_, _, _, -, -, -, -, ⟨⟩⟩ := textRecord_eq_some (parseRecord_of_T hhead ▸ h)
      · obtain ⟨-, -, ⟨⟩⟩ := modificationRecord_eq_some (parseRecord_of_M hhead ▸ h)
      · cases (parseRecord_of_D hhead).symm.trans h
      · cases (parseRecord_of_R hhead).symm.trans h
      · rfl
    · cases (parseRecord_of_unknown hhead htag).symm.trans h

end

/-! The hex columns of each record (R449) -/

/-- The line is no record unless its columns after the first `lo` and up to `hi` are hex. -/
def HexColumns (l : List Byte) (lo hi : Nat) : Prop :=
  ∀ r, parseRecord l = some r → ∀ j, lo ≤ j → j < hi → HexAt l j

section
variable {l : List Byte} {lo hi : Nat}

theorem HexColumns.none_of_short (h : HexColumns l lo hi) (hne : lo < hi)
    (hlen : l.length < hi) : parseRecord l = none := by
  refine Option.eq_none_iff_forall_ne_some.2 fun r hr => ?_
  have hlast := (h r hr (hi - 1) (by omega) (by omega)).lt_length
  omega

theorem HexColumns.none_of_char (h : HexColumns l lo hi) {j : Nat} {c : Byte}
    (hj : l[j]? = some c) (hc : isHexChar c = false) (hlo : lo ≤ j) (hhi : j < hi) :
    parseRecord l = none := by
  refine Option.eq_none_iff_forall_ne_some.2 fun r hr => ?_
  cases ((h r hr j hlo hhi).isHexChar_eq hj).symm.trans hc

theorem hexColumns_H (h : l.head? = some 0x48) : HexColumns l 7 19 := by
  intro r hr j hlo hhi
  obtain ⟨⟨start, hstart⟩, ⟨size, hsize⟩, -⟩ := headerRecord_eq_some (parseRecord_of_H h ▸ hr)
  by_cases hj : j < 13
  · exact hexAt_of_hexField hstart hlo hj
  · exact hexAt_of_hexField hsize (by omega) hhi

/-- The pair in columns 8 and 9 says how many pairs follow it (R442). -/
theorem hexColumns_T_bytes {k : Nat} (h : l.head? = some 0x54) (hk : hexField l 8 2 = some k) :
    HexColumns l 1 (9 + 2 * k) := by
  intro r hr j hlo hhi
  obtain ⟨addr, k', bytes, haddr, hk', hbytes, -⟩ := textRecord_eq_some (parseRecord_of_T h ▸ hr)
  obtain rfl := Option.some.inj (hk.symm.trans hk')
  by_cases hj : j < 7
  · exact hexAt_of_hexField haddr hlo hj
  · by_cases hj' : j < 9
    · exact hexAt_of_hexField hk (by omega) hj'
    · exact hexAt_of_hexBytes hbytes (by omega) (by omega) hhi

theorem hexColumns_T (h : l.head? = some 0x54) : HexColumns l 1 9 := by
  intro r hr j hlo hhi
  obtain ⟨_, _, _, -, hk, -⟩ := textRecord_eq_some (parseRecord_of_T h ▸ hr)
  exact hexColumns_T_bytes h hk r hr j hlo (by omega)

theorem hexColumns_M (h : l.head? = some 0x4D) : HexColumns l 1 9 := by
  intro r hr j hlo hhi
  obtain ⟨⟨offset, hoffset⟩, ⟨length, hlength⟩, -⟩ :=
    modificationRecord_eq_some (parseRecord_of_M h ▸ hr)
  by_cases hj : j < 7
  · exact hexAt_of_hexField hoffset hlo hj
  · exact hexAt_of_hexField hlength (by omega) hhi

theorem hexColumns_E (h : l.head? = some 0x45) : HexColumns l 1 7 := by
  intro r hr j hlo hhi
  obtain ⟨start, hstart, -⟩ := endRecord_eq_some (parseRecord_of_E h ▸ hr)
  exact hexAt_of_hexField hstart hlo hhi

/-- The bytes of a T record have addresses of memory (R442). -/
theorem parseRecord_T_beyond {addr k : Nat} (h : l.head? = some 0x54)
    (haddr : hexField l 2 6 = some addr) (hk : hexField l 8 2 = some k)
    (hbeyond : 0 < k ∧ 0x100000 < addr + k - 1) : parseRecord l = none := by
  refine Option.eq_none_iff_forall_ne_some.2 fun r hr => ?_
  obtain ⟨addr', k', _, haddr', hk', -, hbound, -⟩ := textRecord_eq_some (parseRecord_of_T h ▸ hr)
  obtain rfl := Option.some.inj (haddr.symm.trans haddr')
  obtain rfl := Option.some.inj (hk.symm.trans hk')
  have : maxAddress = 0x100000 := rfl
  omega

end

/-! The lines of a module (R440, R449) -/

section
variable {text : List Byte}

theorem parseModule_of_parseRecords_none (h : parseRecords (moduleLines text) = none) :
    parseModule text = none := by
  unfold parseModule
  cases hlines : moduleLines text with
  | nil => rfl
  | cons l ls => rw [hlines] at h; simp only [h, ite_self]

theorem parseModule_of_head (h : ∀ l ls, moduleLines text = l :: ls → l.head? ≠ some 0x48) :
    parseModule text = none := by
  unfold parseModule
  cases hlines : moduleLines text with
  | nil => rfl
  | cons l ls => exact if_neg (h l ls hlines)

theorem parseRecords_of_none {l : List Byte} (h : parseRecord l = none) (ls : List (List Byte)) :
    parseRecords (l :: ls) = none := by rw [parseRecords, h]

theorem parseRecords_of_finish {l : List Byte} {start : Nat}
    (h : parseRecord l = some (.finish start)) (ls : List (List Byte)) :
    parseRecords (l :: ls) = some { texts := [], entry := start } := by rw [parseRecords, h]

theorem parseRecords_of_inert {l : List Byte} (h : parseRecord l = some .inert)
    (ls : List (List Byte)) : parseRecords (l :: ls) = parseRecords ls := by rw [parseRecords, h]

theorem parseRecords_of_text {l : List Byte} {addr : Nat} {bytes : List Byte}
    (h : parseRecord l = some (.text addr bytes)) (ls : List (List Byte)) :
    parseRecords (l :: ls) = (parseRecords ls).map
      fun image => { image with texts := (addr, bytes) :: image.texts } := by
  rw [parseRecords, h]
  cases parseRecords ls <;> rfl

/-- Lines none of which is an E record do not make a module of what is none (R445). -/
theorem parseRecords_append_none {before later : List (List Byte)}
    (hbefore : ∀ l ∈ before, l.head? ≠ some 0x45) (hlater : parseRecords later = none) :
    parseRecords (before ++ later) = none := by
  induction before with
  | nil => exact hlater
  | cons l before ih =>
    obtain ⟨hl, hbefore⟩ := List.forall_mem_cons.1 hbefore
    have ih := ih hbefore
    rw [List.cons_append]
    match hr : parseRecord l with
    | none => exact parseRecords_of_none hr _
    | some (.finish start) => exact absurd (head_of_finish hr) hl
    | some .inert => exact (parseRecords_of_inert hr _).trans ih
    | some (.text addr bytes) => rw [parseRecords_of_text hr, ih, Option.map_none]

end

/-- Settles O54, cause by cause: the lines, the first characters, then the columns. -/
theorem loadErrorCauses : Obligations.LoadErrorCauses := by
  refine ⟨fun text line rest hlines hhead => ?first, fun text hE => ?noEnd,
    fun text line before later hlines hE hline => ?badLine, fun line tag => parseRecord_of_unknown,
    fun line => ⟨fun h => (hexColumns_H h).none_of_short (by decide),
      fun h => (hexColumns_T h).none_of_short (by decide),
      fun h => (hexColumns_M h).none_of_short (by decide),
      fun h => (hexColumns_E h).none_of_short (by decide)⟩,
    fun line addr k h haddr hk hbad => ?bytes,
    fun l j c hj hc => ⟨fun h => (hexColumns_H h).none_of_char hj hc,
      fun h => (hexColumns_T h).none_of_char hj hc, fun h => (hexColumns_M h).none_of_char hj hc,
      fun h => (hexColumns_E h).none_of_char hj hc,
      fun k h hk hlo => (hexColumns_T_bytes h hk).none_of_char hj hc (by omega)⟩⟩
  case first =>
    refine parseModule_of_head fun l ls hl => ?_
    cases hlines.symm.trans hl
    exact hhead
  case noEnd =>
    have hnone := parseRecords_append_none hE (later := []) rfl
    rw [List.append_nil] at hnone
    exact parseModule_of_parseRecords_none hnone
  case badLine =>
    have hnone := parseRecords_append_none hE (parseRecords_of_none hline later)
    exact parseModule_of_parseRecords_none (hlines ▸ hnone)
  case bytes =>
    rcases hbad with hshort | hbeyond
    · exact (hexColumns_T_bytes h hk).none_of_short (by omega) hshort
    · exact parseRecord_T_beyond h haddr hk hbeyond

end Sys2Proof.Machine
end

section
/-! PROOFS. A module written in the columns of the spec is read as what it says
(spec/70_reset_and_hazards.md R440 to R446): each line written is cut out of the text
(`moduleLines_newline`) and read as its record (`ModuleItem.parseRecords_line`). -/

namespace Sys2Proof.Machine

/-! Numbers and bytes, written and read -/

/-- No hex character ends a line. -/
theorem ne_line_end_of_mem_hexChars {width n : Nat} {c : Byte} (h : c ∈ hexChars width n) :
    c ≠ 0x0A ∧ c ≠ 0x0D := by
  induction width generalizing n with
  | zero => cases h
  | succ width ih =>
    rcases List.mem_append.1 h with h | h
    · exact ih h
    · rw [List.mem_singleton.1 h]
      exact hexChar_ne_line_end _ (Nat.mod_lt n (by omega))

/-- A number in the columns that follow some characters is read (R440). -/
theorem hexField_written {l before : List Byte} {col width n : Nat} (hn : n < 16 ^ width)
    (hc : before.length = col - 1) (hl : before ++ hexChars width n <+: l) :
    hexField l col width = some n := by
  obtain ⟨after, rfl⟩ := hl
  exact hexField_hexChars hc hn

/-- Bytes written as hex pairs are read back (R442). -/
theorem hexBytes_written {l before bytes : List Byte} {col : Nat} (hcol : 1 ≤ col)
    (hc : before.length = col - 1)
    (hl : before ++ bytes.flatMap (fun b => hexChars 2 b.toNat) <+: l) :
    hexBytes l col bytes.length = some bytes := by
  induction bytes generalizing before col with
  | nil => rfl
  | cons b bytes ih =>
    rw [List.flatMap_cons, ← List.append_assoc] at hl
    have hfield : hexField l col 2 = some b.toNat :=
      hexField_written b.isLt hc (List.IsPrefix.trans ⟨_, rfl⟩ hl)
    have hrest : hexBytes l (col + 2) bytes.length = some bytes :=
      ih (by omega) (by rw [List.length_append, hexChars_length]; omega) hl
    rw [List.length_cons, hexBytes, hfield, hrest]
    simp

/-! Lines cut out of a text (R440) -/

/-- A carriage return is removed only from the end of a line. -/
theorem dropReturn_append {xs ys : List Byte} (h : ys = [] → (0x0D : Byte) ∉ xs) :
    dropReturn (xs ++ ys) = xs ++ dropReturn ys := by
  induction xs with
  | nil => rfl
  | cons c xs ih =>
    have ih := ih fun hy hx => h hy (List.mem_cons_of_mem _ hx)
    rw [List.cons_append, List.cons_append, ← ih]
    cases hrest : xs ++ ys with
    | nil =>
      have hc : c ≠ 0x0D := fun hc => h (List.append_eq_nil_iff.1 hrest).2 (hc ▸ List.mem_cons_self)
      exact if_neg hc
    | cons d ds => rfl

theorem dropReturn_of_not_mem {l : List Byte} (h : (0x0D : Byte) ∉ l) : dropReturn l = l := by
  simpa [dropReturn] using dropReturn_append (ys := []) fun _ => h

theorem moduleLines_newline {l kept : List Byte} (rest : List Byte) (hnl : (0x0A : Byte) ∉ l)
    (hkept : dropReturn l = kept) (hne : kept ≠ []) :
    moduleLines (l ++ 0x0A :: rest) = kept :: moduleLines rest := by
  rw [moduleLines, splitLines_newline rest hnl, List.map_cons, hkept, List.filter_cons_of_pos]
  · rfl
  · simpa using hne

/-! Records, from their fields -/

section
variable {l : List Byte}

theorem headerRecord_of_fields {start size : Nat} (hstart : hexField l 8 6 = some start)
    (hsize : hexField l 14 6 = some size) : headerRecord l = some .inert := by
  rw [headerRecord, hstart, hsize]; rfl

theorem textRecord_of_fields {addr k : Nat} {bytes : List Byte} (haddr : hexField l 2 6 = some addr)
    (hk : hexField l 8 2 = some k) (hbytes : hexBytes l 10 k = some bytes)
    (hbound : k = 0 ∨ addr + k - 1 ≤ maxAddress) : textRecord l = some (.text addr bytes) := by
  rw [textRecord, haddr, hk]
  exact (congrArg (· >>= _) hbytes).trans (if_pos hbound)

theorem modificationRecord_of_fields {offset length : Nat} (hoffset : hexField l 2 6 = some offset)
    (hlength : hexField l 8 2 = some length) : modificationRecord l = some .inert := by
  rw [modificationRecord, hoffset, hlength]; rfl

end

/-! The lines between the H and the E record -/

/-- The characters of a line up to its comment. -/
def ModuleItem.columns : ModuleItem → List Byte
  | .text addr bytes _ =>
    0x54 :: (hexChars 6 addr ++ hexChars 2 bytes.length ++
      bytes.flatMap (fun b => hexChars 2 b.toNat))
  | .modification offset length _ => 0x4D :: (hexChars 6 offset ++ hexChars 2 length)
  | .define _ => [0x44]
  | .refer _ => [0x52]

/-- The characters of a line after its columns. -/
def ModuleItem.comment : ModuleItem → List Byte
  | .text _ _ comment => comment
  | .modification _ _ comment => comment
  | .define comment => comment
  | .refer comment => comment

/-- What a line is read as. -/
def ModuleItem.record : ModuleItem → Record
  | .text addr bytes _ => .text addr bytes
  | .modification _ _ _ => .inert
  | .define _ => .inert
  | .refer _ => .inert

theorem ModuleItem.line_eq (item : ModuleItem) : item.line = item.columns ++ item.comment := by
  cases item <;> simp [ModuleItem.line, ModuleItem.columns, ModuleItem.comment]

theorem ModuleItem.columns_ne_nil (item : ModuleItem) : item.columns ≠ [] := by
  cases item <;> exact List.cons_ne_nil _ _

/-- No column holds the end of a line. -/
theorem ModuleItem.ne_line_end_of_mem_columns {item : ModuleItem} {c : Byte}
    (h : c ∈ item.columns) : c ≠ 0x0A ∧ c ≠ 0x0D := by
  cases item with
  | text addr bytes comment =>
    simp only [ModuleItem.columns, List.mem_cons, List.mem_append, List.mem_flatMap] at h
    rcases h with rfl | (h | h) | ⟨b, -, h⟩
    · decide
    all_goals exact ne_line_end_of_mem_hexChars h
  | modification offset length comment =>
    simp only [ModuleItem.columns, List.mem_cons, List.mem_append] at h
    rcases h with rfl | h | h
    · decide
    all_goals exact ne_line_end_of_mem_hexChars h
  | define comment => rw [List.mem_singleton.1 h]; decide
  | refer comment => rw [List.mem_singleton.1 h]; decide

theorem ModuleItem.newline_not_mem_comment {item : ModuleItem} (h : item.fits = true) :
    (0x0A : Byte) ∉ item.comment := by
  cases item <;> simp_all [ModuleItem.fits, ModuleItem.comment]

/-- The record is in the columns, whatever follows them. -/
theorem ModuleItem.parseRecord_columns {item : ModuleItem} (h : item.fits = true)
    (after : List Byte) : parseRecord (item.columns ++ after) = some item.record := by
  cases item with
  | text addr bytes comment =>
    simp only [ModuleItem.fits, Bool.and_eq_true, decide_eq_true_eq, Bool.or_eq_true,
      List.isEmpty_iff] at h
    obtain ⟨⟨⟨haddr, hlen⟩, hbound⟩, -⟩ := h
    rw [parseRecord_of_T rfl]
    exact textRecord_of_fields
      (hexField_written haddr (before := [0x54]) rfl (by simp [ModuleItem.columns]))
      (hexField_written hlen (before := 0x54 :: hexChars 6 addr) (by simp)
        (by simp [ModuleItem.columns]))
      (hexBytes_written (before := 0x54 :: hexChars 6 addr ++ hexChars 2 bytes.length)
        (by omega) (by simp) (by simp [ModuleItem.columns]))
      (hbound.imp_left List.length_eq_zero_iff.2)
  | modification offset length comment =>
    simp only [ModuleItem.fits, Bool.and_eq_true, decide_eq_true_eq] at h
    obtain ⟨⟨hoffset, hlength⟩, -⟩ := h
    rw [parseRecord_of_M rfl]
    exact modificationRecord_of_fields
      (hexField_written hoffset (before := [0x4D]) rfl (by simp [ModuleItem.columns]))
      (hexField_written hlength (before := 0x4D :: hexChars 6 offset) (by simp)
        (by simp [ModuleItem.columns]))
  | define comment => exact parseRecord_of_D rfl
  | refer comment => exact parseRecord_of_R rfl

/-- A line in a text is read as its record; a carriage return it loses is its comment's. -/
theorem ModuleItem.parseRecords_line {item : ModuleItem} (h : item.fits = true) (rest : List Byte)
    {image : Image} (hrest : parseRecords (moduleLines rest) = some image) :
    parseRecords (moduleLines (item.line ++ 0x0A :: rest)) =
      some { image with texts := item.loads.toList ++ image.texts } := by
  have hnl : (0x0A : Byte) ∉ item.line := by
    rw [item.line_eq, List.mem_append, not_or]
    exact ⟨fun hc => (ne_line_end_of_mem_columns hc).1 rfl, newline_not_mem_comment h⟩
  have hkept : dropReturn item.line = item.columns ++ dropReturn item.comment := by
    rw [item.line_eq]
    exact dropReturn_append fun _ hc => (ne_line_end_of_mem_columns hc).2 rfl
  have hrecord := parseRecord_columns h (dropReturn item.comment)
  rw [moduleLines_newline rest hnl hkept (List.append_ne_nil_of_left_ne_nil item.columns_ne_nil _)]
  cases item with
  | text addr bytes comment => rw [parseRecords_of_text hrecord, hrest]; rfl
  | modification offset length comment => exact (parseRecords_of_inert hrecord _).trans hrest
  | define comment => exact (parseRecords_of_inert hrecord _).trans hrest
  | refer comment => exact (parseRecords_of_inert hrecord _).trans hrest

/-- Lines in a text are read in order. -/
theorem parseRecords_items {items : List ModuleItem} (h : ∀ item ∈ items, item.fits = true)
    (rest : List Byte) {image : Image} (hrest : parseRecords (moduleLines rest) = some image) :
    parseRecords (moduleLines (items.flatMap (fun item => item.line ++ [0x0A]) ++ rest)) =
      some { image with texts := items.filterMap ModuleItem.loads ++ image.texts } := by
  induction items with
  | nil => exact hrest
  | cons item items ih =>
    obtain ⟨hitem, hitems⟩ := List.forall_mem_cons.1 h
    have hline := ModuleItem.parseRecords_line hitem _ (ih hitems)
    simp only [List.flatMap_cons, List.append_assoc, List.cons_append, List.nil_append]
    rw [hline]
    cases hl : item.loads <;> simp [hl]

/-! The H and the E record -/

/-- The H record written out (R441). -/
def headerLine (name : List Byte) (start size : Nat) : List Byte :=
  0x48 :: name ++ hexChars 6 start ++ hexChars 6 size

/-- The E record written out (R445). -/
def endLine (entry : Nat) : List Byte := 0x45 :: hexChars 6 entry

theorem moduleText_eq (name : List Byte) (start size : Nat) (items : List ModuleItem) (entry : Nat)
    (later : List Byte) :
    moduleText name start size items entry later = headerLine name start size ++ 0x0A ::
      (items.flatMap (fun item => item.line ++ [0x0A]) ++ (endLine entry ++ 0x0A :: later)) := by
  simp [moduleText, headerLine, endLine]

theorem parseRecords_endLine {entry : Nat} (h : entry < 16 ^ 6) (later : List Byte) :
    parseRecords (moduleLines (endLine entry ++ 0x0A :: later)) =
      some { texts := [], entry := entry } := by
  have hends : ∀ c ∈ endLine entry, c ≠ 0x0A ∧ c ≠ 0x0D :=
    List.forall_mem_cons.2 ⟨by decide, fun _ => ne_line_end_of_mem_hexChars⟩
  have hfield : hexField (endLine entry) 2 6 = some entry :=
    hexField_written h (before := [0x45]) rfl ⟨[], List.append_nil _⟩
  have hrecord : parseRecord (endLine entry) = some (.finish entry) := by
    rw [parseRecord_of_E rfl, endRecord, hfield]
    rfl
  rw [moduleLines_newline later (fun hc => (hends _ hc).1 rfl)
    (dropReturn_of_not_mem fun hc => (hends _ hc).2 rfl) (List.cons_ne_nil _ _),
    parseRecords_of_finish hrecord]

/-- The H record decides that a text is a module, and has no other effect (R440, R441). -/
theorem parseModule_headerLine {name : List Byte} {start size : Nat} (hname : name.length = 6)
    (hnl : (0x0A : Byte) ∉ name) (hstart : start < 16 ^ 6) (hsize : size < 16 ^ 6)
    (rest : List Byte) :
    parseModule (headerLine name start size ++ 0x0A :: rest) = parseRecords (moduleLines rest) := by
  have hline : (0x0A : Byte) ∉ headerLine name start size := by
    simp only [headerLine, List.cons_append, List.mem_cons, List.mem_append, not_or]
    exact ⟨by decide, ⟨hnl, fun hc => (ne_line_end_of_mem_hexChars hc).1 rfl⟩,
      fun hc => (ne_line_end_of_mem_hexChars hc).1 rfl⟩
  have hkept : dropReturn (headerLine name start size) = headerLine name start size := by
    have hlast : dropReturn (hexChars 6 size) = hexChars 6 size :=
      dropReturn_of_not_mem fun hc => (ne_line_end_of_mem_hexChars hc).2 rfl
    rw [headerLine, dropReturn_append (List.ne_nil_of_length_pos (by simp)).elim, hlast]
  have hrecord : parseRecord (headerLine name start size) = some .inert := by
    rw [parseRecord_of_H rfl]
    exact headerRecord_of_fields
      (hexField_written hstart (before := 0x48 :: name) (by simp [hname])
        ⟨_, rfl⟩)
      (hexField_written hsize (before := 0x48 :: name ++ hexChars 6 start) (by simp [hname])
        ⟨[], List.append_nil _⟩)
  rw [parseModule, moduleLines_newline rest hline hkept (List.cons_ne_nil _ _)]
  exact (if_pos rfl).trans (parseRecords_of_inert hrecord _)

/-- Settles O60, line by line from the E record back. -/
theorem writtenModulesAreRead : Obligations.WrittenModulesAreRead := by
  intro name start size entry items later hname hnl hstart hsize hentry hitems
  rw [moduleText_eq, parseModule_headerLine hname (by simpa using hnl) hstart hsize,
    parseRecords_items hitems _ (parseRecords_endLine hentry later), List.append_nil]

end Sys2Proof.Machine
end
